-- ==== Sys2Proof/Word.lean ====
section
/-! DEFINITION. The word types of LTC2983-CORE (R7, R10 of spec/00_scope.md): bit 0 is the least significant bit of
every value. -/

namespace Sys2Proof

/-- One byte on the bus (R11). -/
abbrev Byte := BitVec 8

/-- A 32-bit register word, or a binary32 bit pattern (R7, R13). -/
abbrev Word := BitVec 32

/-- A device register address (R60 of spec/20_memory.md). -/
abbrev Addr := BitVec 16

/-- A set of channels: bit `n-1` is set exactly when channel `n` is a member (R26, R153). -/
abbrev ChSet := BitVec 20

end Sys2Proof
end

