-- ==== Sys2Proof/Config.lean ====
section
/-! DEFINITION. What an implementation fixes (the parameters of R8, spec/00_scope.md) and the free values of the spec
(`draw(W)`, R14). -/

namespace Sys2Proof

/-- `TYPE_ID`, the type identifier of each sensor variant (R8, R101), as its table: thermocouples and RTDs by subtype,
the diode, the sense resistor. -/
structure TypeIds where
  tc    : Vector (BitVec 5) 8
  rtd   : Vector (BitVec 5) 8
  diode : BitVec 5
  sense : BitVec 5
deriving DecidableEq, Repr

/-- `TYPE_ID(TC, sub)`. -/
def TypeIds.ofTc (ids : TypeIds) (sub : BitVec 3) : BitVec 5 := ids.tc[sub.toFin]

/-- `TYPE_ID(RTD, sub)`. -/
def TypeIds.ofRtd (ids : TypeIds) (sub : BitVec 3) : BitVec 5 := ids.rtd[sub.toFin]

/-- The eighteen identifiers of the table. -/
def TypeIds.all (ids : TypeIds) : List (BitVec 5) := ids.tc.toList ++ ids.rtd.toList ++ [ids.diode, ids.sense]

/-- The parameters of R8 that an instance sets, as plain data. They are constants of the instance (R271);
`State.par` carries them (assumption 8). -/
structure Params where
  /-- `POLL_MAX`: poll attempts per round on the single-channel averaging path, at least 1 (R8). -/
  pollMax : Nat
  /-- `ROUND_MAX`: round attempts of one single-channel averaging operation, at least 1 (R8). -/
  roundMax : Nat
  /-- `MPOLL_MAX`: poll attempts per round on the multi-channel path; `none` is `INF` (R8). -/
  mpollMax : Option Nat
  /-- `MROUND_MAX`: round attempts of one multi-channel averaging operation; `none` is `INF` (R8). -/
  mroundMax : Option Nat
  /-- `POLL_DELAY`: the sleep between unsuccessful polls; no rule reads it (R8, R262). -/
  pollDelay : Nat
  /-- `RTD_EXC(wires, ext, rot)` as its table: entry `8*wires[1] + 4*wires[0] + 2*ext + rot` (R8, R165). -/
  rtdExc : Vector (BitVec 2) 16
  /-- `TERR_W`: the width in bits of the transport's opaque error payload (R8). -/
  terrW : Nat
  /-- `TYPE_ID` (R8, R101). -/
  typeIds : TypeIds
deriving DecidableEq, Repr

/-- `P_EXT_POL`, the polarity of the RTD external-sense-resistor flag inside the default `RTD_EXC` (R8: default 0). -/
def Config.pExtPol : BitVec 1 := 0

/-- The default `RTD_EXC` of R165 as a table, for a polarity `P_EXT_POL`: `{rot and four-wire, ext XOR P_EXT_POL}`,
where `wires` 2 and 3 are the four-wire modes. PRESUMED, unsafe (assumption 11): the positions and the polarity are not
in the source. -/
def Config.defaultRtdExc (extPol : BitVec 1) : Vector (BitVec 2) 16 :=
  Vector.ofFn fun i =>
    let fourWire := i.val.testBit 3
    let ext := BitVec.ofBool (i.val.testBit 1)
    let rot := BitVec.ofBool (i.val.testBit 0 && fourWire)
    rot ++ (ext ^^^ extPol)

/-- The default `TYPE_ID` of R101: `1 + sub`, `10 + sub`, 28, 29. PRESUMED, unsafe (assumption 9): the table is not in
the source. -/
def Config.defaultTypeIds : TypeIds where
  tc := Vector.ofFn fun i => BitVec.ofNat 5 (1 + i.val)
  rtd := Vector.ofFn fun i => BitVec.ofNat 5 (10 + i.val)
  diode := 28
  sense := 29

/-- `POLL_MAX - 1` of the instance: R8 gives the parameter no value but says that it is at least 1. -/
opaque Config.pollMaxLessOne : Nat

/-- `ROUND_MAX - 1` of the instance: R8 gives the parameter no value but says that it is at least 1. -/
opaque Config.roundMaxLessOne : Nat

/-- `POLL_DELAY` of the instance: R8 gives it no value. -/
opaque Config.pollDelay : Nat

/-- The instance's parameters: R8's defaults where it gives one, an opaque constant where it gives none. -/
def Config.params : Params where
  pollMax := Config.pollMaxLessOne + 1
  roundMax := Config.roundMaxLessOne + 1
  mpollMax := none
  mroundMax := none
  pollDelay := Config.pollDelay
  rtdExc := Config.defaultRtdExc Config.pExtPol
  terrW := 32
  typeIds := Config.defaultTypeIds

/-- The free values `draw(W)` of R14: draw number `n`, 32 bits wide, of which a narrower draw takes the low bits.
Nothing is known of any of them (assumption 13). -/
opaque Config.draw : Nat → Word

/-- The bytes of a transport answer that the spec leaves free (R67), for `State.withFetchWord` alone (assumption 22). -/
opaque Config.answerByte : Nat → Byte

end Sys2Proof
end

