-- ==== Sys2Proof/Syntax.lean ====
section
/-! DEFINITION. The instructions: one constructor for each of the 50 rows of spec/opcode_table.json, with the row's
operands. The 23 host operations take the operand-record fields of R110 (spec/30_encoding.md); the frames, the register
contents and the configuration words take the fields of their rows. -/

namespace Sys2Proof

/-- The operand record on the command port (R26, spec/10_state.md). -/
structure Opr where
  op     : Byte
  ch     : BitVec 5
  chset  : ChSet
  fval   : Word
  k      : BitVec 5
  raw    : BitVec 24
  err    : Byte
  addr   : Addr
  len    : BitVec 3
  wdata  : Word
  sub    : BitVec 3
  cj     : BitVec 5
  sgl    : BitVec 1
  oc     : BitVec 3
  cptr   : BitVec 12
  rs     : BitVec 5
  wires  : BitVec 2
  ext    : BitVec 1
  rot    : BitVec 1
  cur    : BitVec 4
  curve  : BitVec 2
  rd3    : BitVec 1
  avg    : BitVec 1
  dcur   : BitVec 2
  idfEn  : BitVec 1
  target : BitVec 16
deriving DecidableEq, Repr

/-- The record with every field 0. -/
def Opr.zero : Opr :=
  { op := 0, ch := 0, chset := 0, fval := 0, k := 0, raw := 0, err := 0, addr := 0, len := 0, wdata := 0, sub := 0,
    cj := 0, sgl := 0, oc := 0, cptr := 0, rs := 0, wires := 0, ext := 0, rot := 0, cur := 0, curve := 0, rd3 := 0,
    avg := 0, dcur := 0, idfEn := 0, target := 0 }

/-- The fields of a thermocouple word below the type identifier (R102); also the operands of ENCTC besides `sub`. -/
structure TcFields where
  cj   : BitVec 5
  sgl  : BitVec 1
  oc   : BitVec 3
  cptr : BitVec 12
deriving DecidableEq, Repr

/-- The operands of ENCRTD besides `sub` (R164). -/
structure RtdOperands where
  rs    : BitVec 5
  wires : BitVec 2
  ext   : BitVec 1
  rot   : BitVec 1
  cur   : BitVec 4
  curve : BitVec 2
  cptr  : BitVec 12
deriving DecidableEq, Repr

/-- The fields of an RTD word below the type identifier (R104): `exc` is `RTD_EXC(wires, ext, rot)`. -/
structure RtdFields where
  rs    : BitVec 5
  wires : BitVec 2
  exc   : BitVec 2
  cur   : BitVec 4
  curve : BitVec 2
  cptr  : BitVec 12
deriving DecidableEq, Repr

/-- The operands of ENCDIO (R166). -/
structure DiodeOperands where
  sgl   : BitVec 1
  rd3   : BitVec 1
  avg   : BitVec 1
  dcur  : BitVec 2
  idfEn : BitVec 1
  fval  : Word
deriving DecidableEq, Repr

/-- The fields of a diode word below the type identifier (R106). -/
structure DiodeFields where
  sgl  : BitVec 1
  rd3  : BitVec 1
  avg  : BitVec 1
  dcur : BitVec 2
  idf  : BitVec 22
deriving DecidableEq, Repr

/-- The instructions, one constructor per row of spec/opcode_table.json, in the table's order. -/
inductive Instr where
  -- host operations (HOP): R110
  | encq (fval : Word) (k : BitVec 5)
  | encidf (fval : Word)
  | decq (raw : BitVec 24)
  | classify (err : Byte) (raw : BitVec 24)
  | chmap (ch : BitVec 5)
  | mkmask (chset : ChSet)
  | enctc (sub : BitVec 3) (p : TcFields)
  | encrtd (sub : BitVec 3) (p : RtdOperands)
  | encdio (p : DiodeOperands)
  | encrs (fval : Word)
  | cfgtc (ch : BitVec 5) (sub : BitVec 3) (p : TcFields)
  | cfgrtd (ch : BitVec 5) (sub : BitVec 3) (p : RtdOperands)
  | cfgdio (ch : BitVec 5) (p : DiodeOperands)
  | cfgrs (ch : BitVec 5) (fval : Word)
  | wrreg (addr : Addr) (len : BitVec 3) (wdata : Word)
  | rdreg (addr : Addr) (len : BitVec 3)
  | start (ch : BitVec 5)
  | startm (chset : ChSet)
  | status
  | rdtemp (ch : BitVec 5)
  | rdtempm (chset : ChSet)
  | avg (ch : BitVec 5) (target : BitVec 16)
  | avgm (chset : ChSet) (target : BitVec 16)
  -- wire frames (FRAME): R91, R92, R95, R98, R170, R206, R208
  | wWrite (addr : Addr) (payload : List Byte)
  | wRead (addr : Addr) (n : BitVec 3)
  | fStart (c : BitVec 5)
  | fMask (m : ChSet)
  | fCfg (a : BitVec 5) (w : Word)
  | fStatusRd
  | fResultRd (a : BitVec 5)
  -- register contents as received (DATA): R96, R97
  | statusByte (start done unused : BitVec 1) (chsel : BitVec 5)
  | resultWord (err : Byte) (raw : BitVec 24)
  -- configuration words (CFGWORD): R161, R165, R167, R168
  | cfgwordTcJ (f : TcFields)
  | cfgwordTcK (f : TcFields)
  | cfgwordTcE (f : TcFields)
  | cfgwordTcN (f : TcFields)
  | cfgwordTcR (f : TcFields)
  | cfgwordTcS (f : TcFields)
  | cfgwordTcT (f : TcFields)
  | cfgwordTcB (f : TcFields)
  | cfgwordRtdPt10 (f : RtdFields)
  | cfgwordRtdPt50 (f : RtdFields)
  | cfgwordRtdPt100 (f : RtdFields)
  | cfgwordRtdPt200 (f : RtdFields)
  | cfgwordRtdPt500 (f : RtdFields)
  | cfgwordRtdPt1000 (f : RtdFields)
  | cfgwordRtd1000Ohm (f : RtdFields)
  | cfgwordRtdNi120 (f : RtdFields)
  | cfgwordDiode (f : DiodeFields)
  | cfgwordSense (rq : BitVec 27)
deriving DecidableEq, Repr

end Sys2Proof
end

