-- ==== Sys2Proof/WellFormed.lean ====
section
/-! DEFINITION. Which instructions are well formed: operand values inside the legal sets of R26 and R244, and frame and
word fields inside the values their rows of spec/opcode_table.json give. An ill-formed host operation still decodes and
runs: it ends with ConfigRejected (R27). -/

namespace Sys2Proof

/-- Legal `ch`: 1 to 20 (R26). -/
def WellFormed.ch (ch : BitVec 5) : Bool := decide (1 ≤ ch.toNat ∧ ch.toNat ≤ 20)

/-- Legal `cj`: 0 to 20 (R26). -/
def WellFormed.cj (cj : BitVec 5) : Bool := decide (cj.toNat ≤ 20)

/-- Legal `oc`: 0, 4, 5, 6, 7 (R26, R103). -/
def WellFormed.oc (oc : BitVec 3) : Bool := decide (oc = 0 ∨ 4 ≤ oc.toNat)

/-- Legal `rs`: 2 to 20 (R26). -/
def WellFormed.rs (rs : BitVec 5) : Bool := decide (2 ≤ rs.toNat ∧ rs.toNat ≤ 20)

/-- Legal `cur`: 1 to 8 (R26, R105). -/
def WellFormed.cur (cur : BitVec 4) : Bool := decide (1 ≤ cur.toNat ∧ cur.toNat ≤ 8)

/-- Legal `len`: 0 to 4 (R26). -/
def WellFormed.len (len : BitVec 3) : Bool := decide (len.toNat ≤ 4)

/-- Legal thermocouple operands, which are also the legal fields of a thermocouple word (R162). -/
def WellFormed.tc (p : TcFields) : Bool := WellFormed.cj p.cj && WellFormed.oc p.oc

/-- Legal RTD operands (R164). -/
def WellFormed.rtdOperands (p : RtdOperands) : Bool := WellFormed.rs p.rs && WellFormed.cur p.cur

/-- Legal fields of an RTD word (R104, R105). -/
def WellFormed.rtdFields (f : RtdFields) : Bool := WellFormed.rs f.rs && WellFormed.cur f.cur

/-- A write frame that a more special row describes: the start command (R95), the mask write (R98), a configuration
write (R170). -/
def WellFormed.specialWrite (addr : Addr) (payload : List Byte) : Bool :=
  match payload with
  | [b] => addr == 0 && b.extractLsb' 5 3 == 4#3
  | [b3, b2, _, _] =>
    (addr == 0x00F4 && b3 == 0 && b2.extractLsb' 4 4 == 0#4) || (addr &&& 0xFF83 == 0x0200)
  | _ => false

/-- A read frame that a more special row describes: the status read (R206), a result read (R208). -/
def WellFormed.specialRead (addr : Addr) (n : BitVec 3) : Bool :=
  (n == 1 && addr == 0) || (n == 4 && (addr &&& 0xFF83 == 0))

/-- Well-formed instructions, one arm per constructor. -/
def WellFormed : Instr → Bool
  | .encq _ _ => true
  | .encidf _ => true
  | .decq _ => true
  | .classify _ _ => true
  | .chmap ch => WellFormed.ch ch
  | .mkmask _ => true
  | .enctc _ p => WellFormed.tc p
  | .encrtd _ p => WellFormed.rtdOperands p
  | .encdio _ => true
  | .encrs _ => true
  | .cfgtc ch _ p => WellFormed.ch ch && WellFormed.tc p
  | .cfgrtd ch _ p => WellFormed.ch ch && WellFormed.rtdOperands p
  | .cfgdio ch _ => WellFormed.ch ch
  | .cfgrs ch _ => WellFormed.ch ch
  | .wrreg _ len _ => WellFormed.len len
  | .rdreg _ len => WellFormed.len len
  | .start ch => WellFormed.ch ch
  | .startm _ => true
  | .status => true
  | .rdtemp ch => WellFormed.ch ch
  | .rdtempm _ => true
  | .avg ch _ => WellFormed.ch ch
  | .avgm _ _ => true
  | .wWrite addr payload => decide (payload.length ≤ 4) && !WellFormed.specialWrite addr payload
  | .wRead addr n => WellFormed.len n && !WellFormed.specialRead addr n
  | .fStart c => decide (c.toNat ≤ 20)
  | .fMask _ => true
  | .fCfg a _ => decide (a.toNat ≤ 19)
  | .fStatusRd => true
  | .fResultRd a => decide (4 ≤ a.toNat ∧ a.toNat ≤ 23)
  | .statusByte _ _ _ _ => true
  | .resultWord _ _ => true
  | .cfgwordTcJ f => WellFormed.tc f
  | .cfgwordTcK f => WellFormed.tc f
  | .cfgwordTcE f => WellFormed.tc f
  | .cfgwordTcN f => WellFormed.tc f
  | .cfgwordTcR f => WellFormed.tc f
  | .cfgwordTcS f => WellFormed.tc f
  | .cfgwordTcT f => WellFormed.tc f
  | .cfgwordTcB f => WellFormed.tc f
  | .cfgwordRtdPt10 f => WellFormed.rtdFields f
  | .cfgwordRtdPt50 f => WellFormed.rtdFields f
  | .cfgwordRtdPt100 f => WellFormed.rtdFields f
  | .cfgwordRtdPt200 f => WellFormed.rtdFields f
  | .cfgwordRtdPt500 f => WellFormed.rtdFields f
  | .cfgwordRtdPt1000 f => WellFormed.rtdFields f
  | .cfgwordRtd1000Ohm f => WellFormed.rtdFields f
  | .cfgwordRtdNi120 f => WellFormed.rtdFields f
  | .cfgwordDiode _ => true
  | .cfgwordSense _ => true

end Sys2Proof
end

