-- ==== Sys2Proof/Decode.lean ====
section
/-! DEFINITION. The encodings of spec/30_encoding.md, both ways: the field packer (R90), the frame builders (R91, R92),
the configuration word layouts (R102, R104, R106, R107), the decoder of each layer, the encoder, and the reading of one
row of spec/opcode_table.json. -/

namespace Sys2Proof

/-! ## Byte order and the field packer -/

/-- `BE16(a)` of R11. -/
def be16 (a : Addr) : List Byte := [a.extractLsb' 8 8, a.extractLsb' 0 8]

/-- `BE32(w)` of R11. -/
def be32 (w : Word) : List Byte :=
  [w.extractLsb' 24 8, w.extractLsb' 16 8, w.extractLsb' 8 8, w.extractLsb' 0 8]

/-- The word whose big-endian bytes are the four given (R62). -/
def wordOfBytes (b3 b2 b1 b0 : Byte) : Word := b3 ++ b2 ++ b1 ++ b0

/-- The bit string of `Pack` (R90) as a number: the first field most significant, each value reduced modulo
`2 ^ width`. A field is a pair (value, width). -/
def packBits (fields : List (Nat × Nat)) : Nat :=
  fields.foldl (fun acc f => acc * 2 ^ f.2 + f.1 % 2 ^ f.2) 0

/-- The total width `T` of a field list (R90). -/
def packWidth (fields : List (Nat × Nat)) : Nat := (fields.map (·.2)).sum

/-- The bytes of `Pack` (R90), for a total width that is a multiple of 8. -/
def packBytes (fields : List (Nat × Nat)) : List Byte :=
  (List.range (packWidth fields / 8)).map fun i =>
    BitVec.ofNat 8 (packBits fields / 2 ^ (packWidth fields - 8 * (i + 1)))

/-- The word form of `Pack` for a total width of 32 (R90). -/
def packWord (fields : List (Nat × Nat)) : Word := BitVec.ofNat 32 (packBits fields)

/-! ## Frames -/

/-- `WriteFrame(addr, payload)` of R91. -/
def writeFrame (addr : Addr) (payload : List Byte) : List Byte := 0x02 :: be16 addr ++ payload

/-- `ReadFrame(addr, n)` of R92. -/
def readFrame (addr : Addr) (n : Nat) : List Byte := 0x03 :: be16 addr ++ List.replicate n 0

/-- The start command frame (R95): the 3-bit command 4 above the 5-bit channel selection. -/
def startFrame (c : BitVec 5) : List Byte := writeFrame 0x0000 (packBytes [(4, 3), (c.toNat, 5)])

/-- The mask write frame (R98). -/
def maskFrame (mask : Word) : List Byte := writeFrame 0x00F4 (packBytes [(mask.toNat, 32)])

/-- The status read frame (R206). -/
def statusFrame : List Byte := readFrame 0x0000 1

/-- The address of a configuration register from the row F_CFG's field, which is the channel number less 1 (R150). -/
def cfgFieldAddr (a : BitVec 5) : Addr := 0x0200 + 4 * a.setWidth 16

/-- The address of a result register from the row F_RESULT_RD's field, which is the channel number plus 3 (R150:
`0x010 + 4*(n-1) = 4*(n+3)`). -/
def resultFieldAddr (a : BitVec 5) : Addr := 4 * a.setWidth 16

/-! ## Configuration words -/

/-- The thermocouple word (R102, R161). PRESUMED layout, unsafe (assumption 10). -/
def tcWord (typeId : BitVec 5) (f : TcFields) : Word :=
  packWord [(typeId.toNat, 5), (f.cj.toNat, 5), (f.sgl.toNat, 1), (f.oc.toNat, 3), (0, 6), (f.cptr.toNat, 12)]

/-- The RTD word (R104, R165). PRESUMED layout, unsafe (assumption 10). -/
def rtdWord (typeId : BitVec 5) (f : RtdFields) : Word :=
  packWord [(typeId.toNat, 5), (f.rs.toNat, 5), (f.wires.toNat, 2), (f.exc.toNat, 2), (f.cur.toNat, 4),
    (f.curve.toNat, 2), (f.cptr.toNat, 12)]

/-- The diode word (R106, R167). -/
def diodeWord (typeId : BitVec 5) (f : DiodeFields) : Word :=
  packWord [(typeId.toNat, 5), (f.sgl.toNat, 1), (f.rd3.toNat, 1), (f.avg.toNat, 1), (f.dcur.toNat, 2),
    (f.idf.toNat, 22)]

/-- The sense-resistor word (R107, R168). -/
def senseWord (typeId : BitVec 5) (rq : BitVec 27) : Word :=
  packWord [(typeId.toNat, 5), (rq.toNat, 27)]

/-- The fields of a thermocouple word, sliced at the offsets of R102. -/
def tcFieldsOf (w : Word) : TcFields :=
  { cj := w.extractLsb' 22 5, sgl := w.extractLsb' 21 1, oc := w.extractLsb' 18 3, cptr := w.extractLsb' 0 12 }

/-- The fields of an RTD word, sliced at the offsets of R104. -/
def rtdFieldsOf (w : Word) : RtdFields :=
  { rs := w.extractLsb' 22 5, wires := w.extractLsb' 20 2, exc := w.extractLsb' 18 2, cur := w.extractLsb' 14 4,
    curve := w.extractLsb' 12 2, cptr := w.extractLsb' 0 12 }

/-- The fields of a diode word, sliced at the offsets of R106. -/
def diodeFieldsOf (w : Word) : DiodeFields :=
  { sgl := w.extractLsb' 26 1, rd3 := w.extractLsb' 25 1, avg := w.extractLsb' 24 1, dcur := w.extractLsb' 22 2,
    idf := w.extractLsb' 0 22 }

/-! ## What the block decodes -/

/-- What one step of the block decodes, by the layers of spec/opcode_table.json: an operation presented on the command
port, a frame handed to the transport, the status byte or the result word a read brought, a configuration word. -/
inductive Item where
  | port (o : Opr)
  | wire (bytes : List Byte)
  | statusByte (b : Byte)
  | resultWord (w : Word)
  | cfgWord (w : Word)
deriving DecidableEq, Repr

/-- Why an item is no row of the table. -/
inductive DecodeError where
  /-- An unassigned operation code (R123); the machine answers it with `IllegalOperation`, not with a stop. -/
  | illegalOperation (op : Byte)
  /-- Fewer than the three bytes every frame has (R94). -/
  | shortFrame
  /-- More than four bytes after the header: no operation builds such a frame (R68, R94). -/
  | longFrame
  /-- A first byte other than 0x02 and 0x03 (R93, R120). -/
  | notAFrame (first : Byte)
  /-- A read frame whose filler bytes are not all zero (R92). -/
  | nonzeroFiller
  /-- A type identifier outside the implemented set (R122). -/
  | reservedType (typeId : BitVec 5)
  /-- A thermocouple word with a reserved bit set (R124). -/
  | reservedBits
deriving DecidableEq, Repr

/-- The operation codes of R110. -/
def decodeOp (o : Opr) : Except DecodeError Instr :=
  let tc : TcFields := { cj := o.cj, sgl := o.sgl, oc := o.oc, cptr := o.cptr }
  let rtd : RtdOperands :=
    { rs := o.rs, wires := o.wires, ext := o.ext, rot := o.rot, cur := o.cur, curve := o.curve, cptr := o.cptr }
  let dio : DiodeOperands :=
    { sgl := o.sgl, rd3 := o.rd3, avg := o.avg, dcur := o.dcur, idfEn := o.idfEn, fval := o.fval }
  match o.op.toNat with
  | 0x01 => .ok (.encq o.fval o.k)
  | 0x02 => .ok (.encidf o.fval)
  | 0x03 => .ok (.decq o.raw)
  | 0x04 => .ok (.classify o.err o.raw)
  | 0x05 => .ok (.chmap o.ch)
  | 0x06 => .ok (.mkmask o.chset)
  | 0x07 => .ok (.enctc o.sub tc)
  | 0x08 => .ok (.encrtd o.sub rtd)
  | 0x09 => .ok (.encdio dio)
  | 0x0A => .ok (.encrs o.fval)
  | 0x0B => .ok (.cfgtc o.ch o.sub tc)
  | 0x0C => .ok (.cfgrtd o.ch o.sub rtd)
  | 0x0D => .ok (.cfgdio o.ch dio)
  | 0x0E => .ok (.cfgrs o.ch o.fval)
  | 0x0F => .ok (.wrreg o.addr o.len o.wdata)
  | 0x10 => .ok (.rdreg o.addr o.len)
  | 0x11 => .ok (.start o.ch)
  | 0x12 => .ok (.startm o.chset)
  | 0x13 => .ok .status
  | 0x14 => .ok (.rdtemp o.ch)
  | 0x15 => .ok (.rdtempm o.chset)
  | 0x16 => .ok (.avg o.ch o.target)
  | 0x17 => .ok (.avgm o.chset o.target)
  | _ => .error (.illegalOperation o.op)

/-- The row a write frame belongs to: a more special row where its mask and match of spec/opcode_table.json hold, else
W_WRITE. -/
def decodeWrite (addr : Addr) (payload : List Byte) : Instr :=
  match payload with
  | [b] =>
    if addr = 0 ∧ b.extractLsb' 5 3 = 4#3 then .fStart (b.extractLsb' 0 5) else .wWrite addr payload
  | [b3, b2, b1, b0] =>
    if addr = 0x00F4 ∧ b3 = 0 ∧ b2.extractLsb' 4 4 = 0#4 then .fMask ((wordOfBytes b3 b2 b1 b0).setWidth 20)
    else if addr &&& 0xFF83 = 0x0200 then .fCfg (addr.extractLsb' 2 5) (wordOfBytes b3 b2 b1 b0)
    else .wWrite addr payload
  | _ => .wWrite addr payload

/-- The row a read frame of `n` filler bytes belongs to, in the same way. -/
def decodeRead (addr : Addr) (n : Nat) : Instr :=
  if n = 1 ∧ addr = 0 then .fStatusRd
  else if n = 4 ∧ addr &&& 0xFF83 = 0 then .fResultRd (addr.extractLsb' 2 5)
  else .wRead addr (BitVec.ofNat 3 n)

/-- The frame decoder (R91 to R94), total on any bytes. -/
def decodeWire : List Byte → Except DecodeError Instr
  | first :: hi :: lo :: rest =>
    if 4 < rest.length then .error .longFrame
    else if first = 0x02 then .ok (decodeWrite (hi ++ lo) rest)
    else if first = 0x03 then
      if rest.all (· == 0) then .ok (decodeRead (hi ++ lo) rest.length) else .error .nonzeroFiller
    else .error (.notAFrame first)
  | _ => .error .shortFrame

/-- The status byte's fields (R96). -/
def decodeStatusByte (b : Byte) : Instr :=
  .statusByte (b.extractLsb' 7 1) (b.extractLsb' 6 1) (b.extractLsb' 5 1) (b.extractLsb' 0 5)

/-- The result word's fields (R97). -/
def decodeResultWord (w : Word) : Instr := .resultWord (w.extractLsb' 24 8) (w.extractLsb' 0 24)

/-- The subtypes of a thermocouple or an RTD (R101). -/
def subtypes : List (BitVec 3) := [0, 1, 2, 3, 4, 5, 6, 7]

/-- The row of a thermocouple subtype (R101). -/
def tcRow (sub : BitVec 3) (f : TcFields) : Instr :=
  match sub.toNat with
  | 0 => .cfgwordTcJ f
  | 1 => .cfgwordTcK f
  | 2 => .cfgwordTcE f
  | 3 => .cfgwordTcN f
  | 4 => .cfgwordTcR f
  | 5 => .cfgwordTcS f
  | 6 => .cfgwordTcT f
  | _ => .cfgwordTcB f

/-- The row of an RTD subtype (R101). -/
def rtdRow (sub : BitVec 3) (f : RtdFields) : Instr :=
  match sub.toNat with
  | 0 => .cfgwordRtdPt10 f
  | 1 => .cfgwordRtdPt50 f
  | 2 => .cfgwordRtdPt100 f
  | 3 => .cfgwordRtdPt200 f
  | 4 => .cfgwordRtdPt500 f
  | 5 => .cfgwordRtdPt1000 f
  | 6 => .cfgwordRtd1000Ohm f
  | _ => .cfgwordRtdNi120 f

/-- The configuration word decoder on the types other than thermocouples (R101, R122). -/
def decodeOtherWord (ids : TypeIds) (w : Word) : Except DecodeError Instr :=
  match subtypes.find? fun sub => ids.ofRtd sub == w.extractLsb' 27 5 with
  | some sub => .ok (rtdRow sub (rtdFieldsOf w))
  | none =>
    if w.extractLsb' 27 5 = ids.diode then .ok (.cfgwordDiode (diodeFieldsOf w))
    else if w.extractLsb' 27 5 = ids.sense then .ok (.cfgwordSense (w.extractLsb' 0 27))
    else .error (.reservedType (w.extractLsb' 27 5))

/-- The configuration word decoder, by type identifier (R101, R122), for any table `TYPE_ID`. A thermocouple word with a
reserved bit set is none (R102, R124). Where an instance gives several types one identifier, the first of them is read
(assumption 9). -/
def decodeCfgWord (ids : TypeIds) (w : Word) : Except DecodeError Instr :=
  match subtypes.find? fun sub => ids.ofTc sub == w.extractLsb' 27 5 with
  | some sub =>
    if w.extractLsb' 12 6 = 0#6 then .ok (tcRow sub (tcFieldsOf w))
    else
      match decodeOtherWord ids w with
      | .ok i => .ok i
      | .error _ => .error .reservedBits
  | none => decodeOtherWord ids w

/-- The decoder, under the instance's type identifiers: total on every item, rejecting by name. -/
def decode (ids : TypeIds) : Item → Except DecodeError Instr
  | .port o => decodeOp o
  | .wire bytes => decodeWire bytes
  | .statusByte b => .ok (decodeStatusByte b)
  | .resultWord w => .ok (decodeResultWord w)
  | .cfgWord w => decodeCfgWord ids w

/-! ## The encoder -/

/-- The operand record with a thermocouple's operands filled in. -/
def Opr.withTc (o : Opr) (sub : BitVec 3) (p : TcFields) : Opr :=
  { o with sub := sub, cj := p.cj, sgl := p.sgl, oc := p.oc, cptr := p.cptr }

/-- The operand record with an RTD's operands filled in. -/
def Opr.withRtd (o : Opr) (sub : BitVec 3) (p : RtdOperands) : Opr :=
  { o with sub := sub, rs := p.rs, wires := p.wires, ext := p.ext, rot := p.rot, cur := p.cur, curve := p.curve,
           cptr := p.cptr }

/-- The operand record with a diode's operands filled in. -/
def Opr.withDiode (o : Opr) (p : DiodeOperands) : Opr :=
  { o with sgl := p.sgl, rd3 := p.rd3, avg := p.avg, dcur := p.dcur, idfEn := p.idfEn, fval := p.fval }

/-- The operand record of an operation code, every operand 0. -/
def Opr.ofOp (op : Byte) : Opr := { Opr.zero with op := op }

/-- The encoding of an instruction in its layer: the operand record with the code of R110 (fields it does not read 0),
the frame's bytes, the register content; a configuration word under the instance's type identifiers. -/
def encode (ids : TypeIds) : Instr → Item
  | .encq fval k => .port { Opr.ofOp 0x01 with fval := fval, k := k }
  | .encidf fval => .port { Opr.ofOp 0x02 with fval := fval }
  | .decq raw => .port { Opr.ofOp 0x03 with raw := raw }
  | .classify err raw => .port { Opr.ofOp 0x04 with err := err, raw := raw }
  | .chmap ch => .port { Opr.ofOp 0x05 with ch := ch }
  | .mkmask chset => .port { Opr.ofOp 0x06 with chset := chset }
  | .enctc sub p => .port ((Opr.ofOp 0x07).withTc sub p)
  | .encrtd sub p => .port ((Opr.ofOp 0x08).withRtd sub p)
  | .encdio p => .port ((Opr.ofOp 0x09).withDiode p)
  | .encrs fval => .port { Opr.ofOp 0x0A with fval := fval }
  | .cfgtc ch sub p => .port { (Opr.ofOp 0x0B).withTc sub p with ch := ch }
  | .cfgrtd ch sub p => .port { (Opr.ofOp 0x0C).withRtd sub p with ch := ch }
  | .cfgdio ch p => .port { (Opr.ofOp 0x0D).withDiode p with ch := ch }
  | .cfgrs ch fval => .port { Opr.ofOp 0x0E with ch := ch, fval := fval }
  | .wrreg addr len wdata => .port { Opr.ofOp 0x0F with addr := addr, len := len, wdata := wdata }
  | .rdreg addr len => .port { Opr.ofOp 0x10 with addr := addr, len := len }
  | .start ch => .port { Opr.ofOp 0x11 with ch := ch }
  | .startm chset => .port { Opr.ofOp 0x12 with chset := chset }
  | .status => .port (Opr.ofOp 0x13)
  | .rdtemp ch => .port { Opr.ofOp 0x14 with ch := ch }
  | .rdtempm chset => .port { Opr.ofOp 0x15 with chset := chset }
  | .avg ch target => .port { Opr.ofOp 0x16 with ch := ch, target := target }
  | .avgm chset target => .port { Opr.ofOp 0x17 with chset := chset, target := target }
  | .wWrite addr payload => .wire (writeFrame addr payload)
  | .wRead addr n => .wire (readFrame addr n.toNat)
  | .fStart c => .wire (startFrame c)
  | .fMask m => .wire (maskFrame (m.setWidth 32))
  | .fCfg a w => .wire (writeFrame (cfgFieldAddr a) (be32 w))
  | .fStatusRd => .wire statusFrame
  | .fResultRd a => .wire (readFrame (resultFieldAddr a) 4)
  | .statusByte start done unused chsel => .statusByte (start ++ done ++ unused ++ chsel)
  | .resultWord err raw => .resultWord (err ++ raw)
  | .cfgwordTcJ f => .cfgWord (tcWord (ids.ofTc 0) f)
  | .cfgwordTcK f => .cfgWord (tcWord (ids.ofTc 1) f)
  | .cfgwordTcE f => .cfgWord (tcWord (ids.ofTc 2) f)
  | .cfgwordTcN f => .cfgWord (tcWord (ids.ofTc 3) f)
  | .cfgwordTcR f => .cfgWord (tcWord (ids.ofTc 4) f)
  | .cfgwordTcS f => .cfgWord (tcWord (ids.ofTc 5) f)
  | .cfgwordTcT f => .cfgWord (tcWord (ids.ofTc 6) f)
  | .cfgwordTcB f => .cfgWord (tcWord (ids.ofTc 7) f)
  | .cfgwordRtdPt10 f => .cfgWord (rtdWord (ids.ofRtd 0) f)
  | .cfgwordRtdPt50 f => .cfgWord (rtdWord (ids.ofRtd 1) f)
  | .cfgwordRtdPt100 f => .cfgWord (rtdWord (ids.ofRtd 2) f)
  | .cfgwordRtdPt200 f => .cfgWord (rtdWord (ids.ofRtd 3) f)
  | .cfgwordRtdPt500 f => .cfgWord (rtdWord (ids.ofRtd 4) f)
  | .cfgwordRtdPt1000 f => .cfgWord (rtdWord (ids.ofRtd 5) f)
  | .cfgwordRtd1000Ohm f => .cfgWord (rtdWord (ids.ofRtd 6) f)
  | .cfgwordRtdNi120 f => .cfgWord (rtdWord (ids.ofRtd 7) f)
  | .cfgwordDiode f => .cfgWord (diodeWord ids.diode f)
  | .cfgwordSense rq => .cfgWord (senseWord ids.sense rq)

/-! ## One row of spec/opcode_table.json -/

/-- The `n` big-endian bytes of a row's number: the table writes a frame as one number whose most significant byte is
first in time. -/
def rowBytes (n w : Nat) : List Byte :=
  (List.range n).map fun i => BitVec.ofNat 8 (w / 2 ^ (8 * (n - 1 - i)))

/-- The item a row of `nbits` bits with the number `w` stands for (assumption 21). The layers overlap in width, and the
first reading that decodes is taken: 8 bits are an operation code, else a status byte; 24 and 56 bits are a frame; 32
bits are a frame, else a configuration word, else a result word. -/
def rowItem (ids : TypeIds) (nbits w : Nat) : Option Item :=
  match nbits with
  | 8 =>
    let o := Opr.ofOp (BitVec.ofNat 8 w)
    match decodeOp o with
    | .ok _ => some (.port o)
    | .error _ => some (.statusByte (BitVec.ofNat 8 w))
  | 24 => some (.wire (rowBytes 3 w))
  | 32 =>
    match decodeWire (rowBytes 4 w), decodeCfgWord ids (BitVec.ofNat 32 w) with
    | .ok _, _ => some (.wire (rowBytes 4 w))
    | .error _, .ok _ => some (.cfgWord (BitVec.ofNat 32 w))
    | .error _, .error _ => some (.resultWord (BitVec.ofNat 32 w))
  | 56 => some (.wire (rowBytes 7 w))
  | _ => none

/-- The instruction the decoder reads from a row's bits, numbered as spec/opcode_table.json numbers them: a row's bits
are one number, bit 0 its least significant bit. The table's configuration words have the default type identifiers. -/
def decodeTableWord (nbits w : Nat) : Option Instr :=
  match rowItem Config.defaultTypeIds nbits w with
  | some it => (decode Config.defaultTypeIds it).toOption
  | none => none

end Sys2Proof
end

