-- ==== Sys2Proof/Machine/State.lean ====
section
/-! DEFINITION. The state of LTC2983-CORE as plain data (spec/10_state.md), the reasons a step can stop, and the state
after reset (R271, spec/70_reset_and_hazards.md). -/

namespace Sys2Proof.Machine

/-- One of the 20 channels: index `i` is channel number `i + 1` (R7: numbered 1 to 20, no channel 0). -/
abbrev Channel := Fin 20

/-- The result record RES (R28). `none` is the spec's own "unspecified": R29 says that the model makes a field absent
that the last operation did not write, and R271 says so of every field after reset (assumption 3). The per-channel
fields are indexed by channel number less 1. `info` is the number of the `TERR_W` bits it has, below `2 ^ TERR_W`
(`ResLegal`). -/
structure Res where
  code    : Option (BitVec 3)
  info    : Option Nat
  word    : Option Word
  caddr   : Option Addr
  raddr   : Option Addr
  selbit  : Option Word
  q       : Option (BitVec 24)
  f       : Option Word
  tag     : Option (BitVec 2)
  err     : Option Byte
  stStart : Option (BitVec 1)
  stDone  : Option (BitVec 1)
  stChsel : Option (BitVec 5)
  rdata   : Option Word
  rlen    : Option (BitVec 3)
  mtag    : Vector (Option (BitVec 2)) 20
  mq      : Vector (Option (BitVec 24)) 20
  mf      : Vector (Option Word) 20
  merr    : Vector (Option Byte) 20
  sum     : Option (BitVec 40)
  cnt     : Option (BitVec 16)
  meanF   : Option Word
  msum    : Vector (Option (BitVec 40)) 20
  mmean   : Vector (Option Word) 20
deriving DecidableEq, Repr

/-- The record with every field unspecified (R29, R271). -/
def Res.empty : Res :=
  { code := none, info := none, word := none, caddr := none, raddr := none, selbit := none, q := none, f := none,
    tag := none, err := none, stStart := none, stDone := none, stChsel := none, rdata := none, rlen := none,
    mtag := Vector.replicate 20 none, mq := Vector.replicate 20 none, mf := Vector.replicate 20 none,
    merr := Vector.replicate 20 none, sum := none, cnt := none, meanF := none,
    msum := Vector.replicate 20 none, mmean := Vector.replicate 20 none }

/-- One result of a channel, the triple `(t, err, q)` of R208: `raw` is the magnitude whose signed value is `q`, and
the tag `t` is a function of `err` (R140), so it is not stored. -/
structure Reading where
  err : Byte
  raw : BitVec 24
deriving DecidableEq, Repr

/-- The bytes the transport receives during a transfer (R63, R69): three framing bytes, which are discarded, and up to
four data bytes. A transfer of `3 + n` bytes receives the first `3 + n` of them, so that the exchange has equal length
by construction (assumption 6). -/
structure Rx where
  f0 : Byte
  f1 : Byte
  f2 : Byte
  d0 : Byte
  d1 : Byte
  d2 : Byte
  d3 : Byte
deriving DecidableEq, Repr

/-- The transport's answer to one call (R63): `Ok`, with the bytes received (a `write` does not see them), or `Err(e)`,
of which the block receives the low `TERR_W` bits, so that the payload has its width by construction (R8; assumption 6).
-/
inductive Answer where
  | ok (rx : Rx)
  | err (e : Nat)
deriving DecidableEq, Repr

/-- One action of the host on the block (R24, R270): presenting an operation, or the reset input. -/
inductive HostAction where
  | present (o : Opr)
  | reset
deriving DecidableEq, Repr

/-- The operation in progress, with the operands its later steps still need (R30). The pure operations are over in one
step and never stand here. -/
inductive Job where
  /-- No operation is in progress. -/
  | none
  /-- CFGTC, CFGRTD, CFGDIO, CFGRS on a channel: the tail `CfgWrite` of R170. -/
  | cfg (c : Channel)
  | wrreg
  | rdreg
  | start
  | startm
  | status
  | rdtemp
  | rdtempm (chset : ChSet)
  | avg (c : Channel) (target : BitVec 16)
  | avgm (chset : ChSet) (target : BitVec 16)
deriving DecidableEq, Repr

/-- The step the operation in progress is at (R20, R30): what it decodes and runs next. -/
inductive Pending where
  /-- Nothing: no operation is in progress. -/
  | none
  /-- An encoded configuration word, about to be framed (R170). -/
  | cfgWord (w : Word)
  /-- A frame handed to the transport (R64). -/
  | frame (bytes : List Byte)
  /-- Data byte 0 of a status read (R96). -/
  | statusByte (b : Byte)
  /-- The data bytes of a result read of a channel (R97). -/
  | resultWord (c : Channel) (w : Word)
deriving DecidableEq, Repr

/-- The state: everything the spec gives the block, the two inputs, the history of frames, and the model's own counter
of free values. -/
structure State where
  /-- PHASE (R22): 0 IDLE, 1 CONVERTING, 2 DONE. -/
  phase    : BitVec 2
  /-- SEL (R22): the channel selection of the last start command sent successfully. -/
  sel      : BitVec 5
  /-- BUSY (R24). -/
  busy     : Bool
  /-- SUM[1..20] (R23), signed, indexed by channel number less 1. -/
  sum      : Vector (BitVec 40) 20
  /-- CNT (R23): completed valid rounds. -/
  cnt      : BitVec 16
  /-- RND (R23): round attempts. -/
  rnd      : Nat
  /-- POLLS (R23): polls of the current round. -/
  polls    : Nat
  /-- The readings of the current pass over a channel set (R211, R230). -/
  readings : Vector Reading 20
  /-- The operation in progress (R30). -/
  job      : Job
  /-- The step it is at (R30). -/
  pending  : Pending
  /-- OPR as the host last presented it (R26). -/
  opr      : Opr
  /-- RES (R28). -/
  res      : Res
  /-- The parameters of the instance (R8, R271): constants, changed by no step (assumption 8). -/
  par      : Params
  /-- Input: what the host does next, in order (assumption 5). -/
  host     : List HostAction
  /-- Input: what the transport answers next, in order (assumption 6). -/
  answers  : List Answer
  /-- The frames handed to the transport whose call has returned, oldest first (R67, R73; assumption 7). -/
  trace    : List (List Byte)
  /-- The MODEL's counter of `draw(W)` values (R14; assumption 13). -/
  draws    : Nat
deriving DecidableEq, Repr

/-- Reasons to stop with a fault. Raised by `step` alone and only in states no run reaches. -/
inductive Fault where
  /-- `BUSY = 1` with no step pending: the position R30 speaks of is lost. Safe: the block never reaches such a state
  (assumption 29). -/
  | lostPosition
deriving DecidableEq, Repr

/-- Reasons to refuse. -/
inductive Refusal where
  /-- An instruction without a meaning yet; raised by no arm of this model. Safe. -/
  | notModelled (mnemonic : String)
  /-- The pending item of the operation in progress is no row of the table. Raised by `step` alone, in states no run
  reaches. Safe (assumption 29). -/
  | undecodable (e : DecodeError)
deriving DecidableEq, Repr

/-- The state after reset (R271). The inputs are empty and nothing has been sent (R272); the operand record's values are
the model's (assumption 4). -/
def State.reset : State :=
  { phase := 0, sel := 0, busy := false, sum := Vector.replicate 20 0, cnt := 0, rnd := 0, polls := 0,
    readings := Vector.replicate 20 { err := 0, raw := 0 },
    job := .none, pending := .none, opr := Opr.zero, res := Res.empty, par := Config.params,
    host := [], answers := [], trace := [], draws := 0 }

end Sys2Proof.Machine
end

