-- ==== Sys2Proof/Machine/Operands.lean ====
section
/-! DEFINITION. Operand forms and the arithmetic of the block: channels and their registers (spec/41_channel_map.md),
the fixed-point codec and the binary32 conversions (spec/40_codec.md, spec/45_averaging.md R226), placement of read data
(R195). -/

namespace Sys2Proof.Machine

/-! ## Channels -/

/-- The channel a 5-bit port code names: 1 to 20, anything else none (R26, R27). -/
def channelOfPort (ch : BitVec 5) : Option Channel :=
  if h : 1 ≤ ch.toNat ∧ ch.toNat ≤ 20 then some ⟨ch.toNat - 1, by omega⟩ else none

/-- The channel a result frame's address field names (the row F_RESULT_RD: channel number plus 3). -/
def channelOfResultField (a : BitVec 5) : Option Channel :=
  if h : 4 ≤ a.toNat ∧ a.toNat ≤ 23 then some ⟨a.toNat - 4, by omega⟩ else none

/-- The channel number, 1 to 20 (R7). -/
def channelNumber (c : Channel) : BitVec 5 := BitVec.ofNat 5 (c.val + 1)

/-- `ConfigAddr(n)` of R150. -/
def configAddr (c : Channel) : Addr := BitVec.ofNat 16 (0x200 + 4 * c.val)

/-- `ResultAddr(n)` of R150. -/
def resultAddr (c : Channel) : Addr := BitVec.ofNat 16 (0x010 + 4 * c.val)

/-- `SelBit(n)` of R150. -/
def selBit (c : Channel) : Word := 1#32 <<< c.val

/-- `n` is a member of the set (R26, R153). -/
def isMember (chset : ChSet) (c : Channel) : Bool := chset.getLsbD c.val

/-- The members of a channel set in ascending order (R303). -/
def members (chset : ChSet) : List Channel := (List.finRange 20).filter (isMember chset)

/-- The first member, if any (R211, R230: ascending order). -/
def firstMember (chset : ChSet) : Option Channel := (members chset).head?

/-- The next member above a channel, if any. -/
def nextMember (chset : ChSet) (c : Channel) : Option Channel := (members chset).find? fun d => decide (c < d)

/-- `Mask(S)`: the OR of the members' selection bits (R153). -/
def maskOf (chset : ChSet) : Word := (members chset).foldl (fun m c => m ||| selBit c) 0

/-- One value for each member, absent outside the set (R303). -/
def perMember {α : Type} (chset : ChSet) (v : Channel → Option α) : Vector (Option α) 20 :=
  Vector.ofFn fun c => if isMember chset c then v c else none

/-! ## Binary32 to unsigned fixed point -/

/-- The exponent field `e` of R13. -/
def f32Exp (b : Word) : Nat := (b.extractLsb' 23 8).toNat

/-- The fraction field `m` of R13. -/
def f32Frac (b : Word) : Nat := (b.extractLsb' 0 23).toNat

/-- The significand of a finite binary32: `2^23 + m`, or `m` where `e = 0` (R13). -/
def f32Sig (b : Word) : Nat := if f32Exp b = 0 then f32Frac b else 2 ^ 23 + f32Frac b

/-- `finite(b)` of R13. -/
def f32Finite (b : Word) : Bool := f32Exp b != 255

/-- `val(b)` of R13 for a finite `b`, a rational: its magnitude is the significand times `2^(max(e,1)-150)`. -/
def f32Val (b : Word) : ℚ :=
  (if b.getLsbD 31 then -1 else 1) * (f32Sig b : ℚ) * (2 : ℚ) ^ ((max (f32Exp b) 1 : ℤ) - 150)

/-- The domain of the unsigned encoders (R131): finite and not below 0; minus zero is inside. -/
def encDomain (b : Word) : Bool := f32Finite b && (!b.getLsbD 31 || f32Sig b == 0)

/-- `N = floor(val(b) * 2^k + 1/2)` of R131, exactly, for `b` in the domain. -/
def encInt (b : Word) (k : Nat) : Nat :=
  let s := max (f32Exp b) 1 + k
  if 150 ≤ s then f32Sig b * 2 ^ (s - 150)
  else (f32Sig b + 2 ^ (150 - s - 1)) / 2 ^ (150 - s)

/-- `EncQ(b, k, W)` of R132, and `none` where R133 leaves the value to `draw(W)`. The wrap modulo `2^W` is silent. -/
def encQ (b : Word) (k W : Nat) : Option (BitVec W) :=
  if encDomain b then some (BitVec.ofNat W (encInt b k)) else none

/-! ## Signed fixed point to binary32 -/

/-- `sext_24(raw)` (R12, R135). -/
def sext24 (raw : BitVec 24) : Int := raw.toInt

/-- The sign bit of a binary32 in place. -/
def f32SignBit (q : Int) : Nat := if q < 0 then 2 ^ 31 else 0

/-- `F32OfQ(q)` by the construction of R137: the binary32 whose value is exactly `q / 1024`. -/
def f32OfQ (q : Int) : Word :=
  if q = 0 then 0
  else
    let e := Nat.log2 q.natAbs
    BitVec.ofNat 32 (f32SignBit q + (117 + e) * 2 ^ 23 + (q.natAbs - 2 ^ e) * 2 ^ (23 - e))

/-- The quotient `n / d` rounded to the nearest natural, ties to even. -/
def roundDiv (n d : Nat) : Nat :=
  let t := n / d
  let r := n % d
  if 2 * r < d then t else if d < 2 * r then t + 1 else t + t % 2

/-- The exponent of a positive rational `a / d`: the `e` with `2^e <= a/d < 2^(e+1)`. -/
def ratExp (a d : Nat) : Int :=
  let e := (Nat.log2 a : Int) - (Nat.log2 d : Int)
  if a * 2 ^ (-e).toNat < d * 2 ^ e.toNat then e - 1 else e

/-- `rne32(p / d)` of R13: the binary32 nearest the rational `p / d` (`d > 0`), ties to even; a zero result is plus zero
(R226). -/
def rne32 (p : Int) (d : Nat) : Word :=
  if p = 0 then 0
  else
    let e := max (ratExp p.natAbs d) (-126)
    let sig := roundDiv (p.natAbs * 2 ^ (23 - e).toNat) (d * 2 ^ (e - 23).toNat)
    let bits := (e + 126).toNat * 2 ^ 23 + sig
    BitVec.ofNat 32 (f32SignBit p + min bits (255 * 2 ^ 23))

/-! ## Configuration words from operands -/

/-- `RTD_EXC(wires, ext, rot)`, looked up in the instance's table (R8, R165). -/
def rtdExc (par : Params) (wires : BitVec 2) (ext rot : BitVec 1) : BitVec 2 :=
  par.rtdExc[(wires ++ ext ++ rot).toFin]

/-- `EncTC` of R161. -/
def encTc (par : Params) (sub : BitVec 3) (p : TcFields) : Word := tcWord (par.typeIds.ofTc sub) p

/-- `EncRTD` of R165. -/
def encRtd (par : Params) (sub : BitVec 3) (p : RtdOperands) : Word :=
  rtdWord (par.typeIds.ofRtd sub)
    { rs := p.rs, wires := p.wires, exc := rtdExc par p.wires p.ext p.rot, cur := p.cur, curve := p.curve,
      cptr := p.cptr }

/-- `EncDIO` of R167 for an ideality field already encoded. -/
def encDiode (par : Params) (p : DiodeOperands) (idf : BitVec 22) : Word :=
  diodeWord par.typeIds.diode { sgl := p.sgl, rd3 := p.rd3, avg := p.avg, dcur := p.dcur, idf := idf }

/-- `EncRS` of R168 for a resistance field already encoded. -/
def encSense (par : Params) (rq : BitVec 27) : Word := senseWord par.typeIds.sense rq

/-! ## Operand checks -/

/-- The checks of ENCTC (R162). -/
def tcLegal (p : TcFields) : Bool := decide (p.cj.toNat ≤ 20) && !(p.oc == 1 || p.oc == 2 || p.oc == 3)

/-- The checks of ENCRTD (R164): `rs = 1` is the source's own rejection, the others the spec's. -/
def rtdLegal (p : RtdOperands) : Bool :=
  !(p.rs == 1) && !(p.rs == 0 || decide (20 < p.rs.toNat)) && !(p.cur == 0 || decide (8 < p.cur.toNat))

/-- The check of WRREG and RDREG (R193, R194). -/
def lenLegal (len : BitVec 3) : Bool := decide (len.toNat ≤ 4)

/-! ## Read data -/

/-- The data bytes of a transfer, after the three framing bytes (R69, R192). -/
def Rx.data (rx : Rx) : List Byte := [rx.d0, rx.d1, rx.d2, rx.d3]

/-- The received bytes of a transfer of `3 + n` bytes (R63). -/
def Rx.received (rx : Rx) (n : Nat) : List Byte := ([rx.f0, rx.f1, rx.f2] ++ rx.data).take (3 + n)

/-- `rdata` of R195: the first `n` data bytes left-aligned, first byte most significant, the rest 0. -/
def placeRead (data : List Byte) (n : Nat) : Word :=
  let b := fun i => if i < n then data.getD i 0 else 0
  wordOfBytes (b 0) (b 1) (b 2) (b 3)

/-- The result word a read of four bytes brings (R97). -/
def Rx.word (rx : Rx) : Word := wordOfBytes rx.d0 rx.d1 rx.d2 rx.d3

end Sys2Proof.Machine
end

