-- ==== Sys2Proof/Machine/Flags.lean ====
section
/-! DEFINITION. The block's flags (R31): the result tag (R140), the status snapshot (R96) and the phase machine (R200,
R201 of spec/44_conversion.md). -/

namespace Sys2Proof.Machine

/-- `VALID` (R28). -/
def tagValid : BitVec 2 := 1

/-- `SUSPECT` (R28). -/
def tagSuspect : BitVec 2 := 2

/-- `INVALID` (R28). -/
def tagInvalid : BitVec 2 := 3

/-- `Classify(err)` of R140. -/
def classifyErr (err : Byte) : BitVec 2 :=
  if err = 0x01 then tagValid else if err &&& 0x0E ≠ 0 then tagInvalid else tagSuspect

/-- `IDLE` (R22). -/
def phaseIdle : BitVec 2 := 0

/-- `CONVERTING` (R22). -/
def phaseConverting : BitVec 2 := 1

/-- `DONE` (R22). -/
def phaseDone : BitVec 2 := 2

/-- The phase machine when a start frame has returned `Ok` (R201): CONVERTING from any phase, and SEL takes the channel
selection of the frame. -/
def State.startPhase (s : State) (c : BitVec 5) : State := { s with phase := phaseConverting, sel := c }

/-- The phase machine on a status snapshot (R201, R206): DONE from CONVERTING when the snapshot shows done, else
unchanged. -/
def State.statusPhase (s : State) (done : BitVec 1) : State :=
  if s.phase = phaseConverting ∧ done = 1 then { s with phase := phaseDone } else s

end Sys2Proof.Machine
end

