-- ==== Sys2Proof/Machine/Ops.lean ====
section
/-! DEFINITION. The shared operations of the block: completing an operation, raising a code, drawing a free value, one
bus transaction, and the steps between transactions that the operations have in common. -/

namespace Sys2Proof.Machine

/-- The outcome of one step of this machine. -/
abbrev Out := Host.Outcome State Fault Refusal

/-! ## Result codes (R240) -/

def codeOk : BitVec 3 := 0
def codeTransportFailure : BitVec 3 := 1
def codeAverageUnattainable : BitVec 3 := 3
def codeConfigRejected : BitVec 3 := 4
def codeIllegalOperation : BitVec 3 := 5

/-! ## Beginning and ending an operation -/

/-- No operation is in progress any more: `BUSY <- 0` (R24). -/
def State.release (s : State) : State := { s with busy := false, job := .none, pending := .none }

/-- An operation goes on in the next step: `BUSY <- 1` (R24), with its first step pending (R30). RES is absent until it
completes (R29; assumption 16). -/
def State.beginJob (s : State) (job : Job) (p : Pending) : State :=
  { s with busy := true, job := job, pending := p, res := Res.empty }

/-- Completion (R24): the block writes the result record, with code OK, then clears BUSY. Fields of `r` that the
operation's rule does not write are absent (R29). -/
def State.complete (s : State) (r : Res) : State := { s with res := { r with code := some codeOk } }.release

/-- `raise E(info)` of R246: the one way an operation ends abnormally. RES defines `code` and, for TransportFailure,
`info`; PHASE, SEL and the working registers keep what the completed steps gave them; nothing is saved. -/
def raiseCode (code : BitVec 3) (info : Option Nat) (s : State) : State :=
  { s with res := { Res.empty with code := some code, info := info } }.release

/-- `raise ConfigRejected` (R244). -/
def rejectConfig (s : State) : State := raiseCode codeConfigRejected none s

/-- `raise IllegalOperation` (R245). -/
def illegalOperation (s : State) : State := raiseCode codeIllegalOperation none s

/-- The block's reset (R270, R271, R272): no bus activity; the host's and the transport's inputs, the operand record,
the instance's parameters, the recorded history and the counter of free values are not the block's to reset (assumption
23). -/
def State.resetBlock (s : State) : State :=
  { s with
    phase := phaseIdle, sel := 0, busy := false, sum := Vector.replicate 20 0, cnt := 0, rnd := 0, polls := 0,
    readings := Vector.replicate 20 { err := 0, raw := 0 },
    job := .none, pending := .none, res := Res.empty }

/-! ## Free values -/

/-- The next `draw(W)` (R14): the low `W` bits of the next free word. -/
def State.drawBits (s : State) (W : Nat) : BitVec W := (Config.draw s.draws).setWidth W

/-- The state after a draw. -/
def State.drawn (s : State) : State := { s with draws := s.draws + 1 }

/-- `EncQ(b, k, W)` of R131 to R133 as the block computes it: the encoded field, or a fresh draw where R133 leaves it
open; and the state after it. -/
def State.encField (s : State) (b : Word) (k W : Nat) : BitVec W × State :=
  match encQ b k W with
  | some v => (v, s)
  | none => (s.drawBits W, s.drawn)

/-- The ideality field of R167: 0 without a factor, and `fval` is then ignored. -/
def State.encIdf (s : State) (p : DiodeOperands) : BitVec 22 × State :=
  if p.idfEn = 1 then s.encField p.fval 20 22 else (0, s)

/-! ## Bus transactions -/

/-- One bus transaction (R64, R65, R66, R191, R192). While the transport has not answered, the call has not returned and
nothing changes. `Err(e)` ends the operation with `TransportFailure` and `RES.info <- e`, where `e` has `TERR_W` bits
(R8); on `Ok` the operation goes on with `k` and the bytes received. The frame enters the history when its call
returns. -/
def transact (frame : List Byte) (s : State) (k : Rx → State → State) : Out :=
  match s.answers with
  | [] => .next s
  | .err e :: rest =>
    .next (raiseCode codeTransportFailure (some (e % 2 ^ s.par.terrW))
      { s with answers := rest, trace := s.trace ++ [frame] })
  | .ok rx :: rest => .next (k rx { s with answers := rest, trace := s.trace ++ [frame] })

/-- The next step of the operation is the given frame. -/
def State.send (s : State) (frame : List Byte) : State := { s with pending := .frame frame }

/-- The result read frame of a channel (R208). -/
def resultFrame (c : Channel) : List Byte := readFrame (resultAddr c) 4

/-- The configuration write frame of a channel (R170). -/
def configFrame (c : Channel) (w : Word) : List Byte := writeFrame (configAddr c) (be32 w)

/-- The end of a generic read (R194, R195): `len` data bytes left-aligned. -/
def State.completeRead (s : State) (len : BitVec 3) (rx : Rx) : State :=
  s.complete { Res.empty with rdata := some (placeRead rx.data len.toNat), rlen := some len }

/-! ## Results -/

/-- The triple of R208 from the result word's fields. -/
def readingOf (err : Byte) (raw : BitVec 24) : Reading := { err := err, raw := raw }

/-- The tag of a reading (R208, R140). -/
def Reading.tag (r : Reading) : BitVec 2 := classifyErr r.err

/-- The signed magnitude the host sees: unspecified for an INVALID result (R209). -/
def Reading.q? (r : Reading) : Option (BitVec 24) :=
  if r.tag = tagInvalid then none else some (BitVec.ofInt 24 (sext24 r.raw))

/-- The binary32 temperature the host sees: unspecified for an INVALID result (R209). -/
def Reading.f? (r : Reading) : Option Word := if r.tag = tagInvalid then none else some (f32OfQ (sext24 r.raw))

/-- The result record of CLASS and RDTEMP (R141, R210). -/
def Reading.res (r : Reading) : Res :=
  { Res.empty with tag := some r.tag, err := some r.err, q := r.q?, f := r.f? }

/-- The per-channel results of RDTEMPM (R211). -/
def multiRes (chset : ChSet) (rd : Vector Reading 20) : Res :=
  { Res.empty with
    mtag := perMember chset fun c => some rd[c].tag
    merr := perMember chset fun c => some rd[c].err
    mq := perMember chset fun c => rd[c].q?
    mf := perMember chset fun c => rd[c].f? }

/-- A channel's reading is kept until the pass over the set is over. -/
def State.keepReading (s : State) (c : Channel) (r : Reading) : State := { s with readings := s.readings.set c r }

/-! ## The averaging loops (spec/45_averaging.md) -/

/-- The poll loop of R222 begins: `POLLS <- 0`, then a status read. -/
def State.beginPolls (s : State) : State := { s with polls := 0 }.send statusFrame

/-- One poll of R222 has been made and its snapshot shows `done`: does the loop end? `bound` is `B`. -/
def State.pollsOver (s : State) (bound : Option Nat) (done : BitVec 1) : Bool :=
  done == 1 || bound == some s.polls

/-- `SUM[c] + q`, the exact sum narrowed to 40 bits (R221, R23). -/
def addReading (sum : BitVec 40) (raw : BitVec 24) : BitVec 40 := BitVec.ofInt 40 (sum.toInt + sext24 raw)

/-- The mean of R226: the exact rational rounded once. -/
def meanOf (sum : BitVec 40) (target : BitVec 16) : Word := rne32 sum.toInt (1024 * target.toNat)

/-- The end of AVG (R225, R227): `mean_f` is a draw where `target = 0`. -/
def State.completeAvg (s : State) (c : Channel) (target : BitVec 16) : State :=
  if target = 0 then
    s.drawn.complete
      { Res.empty with sum := some s.sum[c], cnt := some s.cnt, meanF := some (s.drawBits 32) }
  else
    s.complete { Res.empty with sum := some s.sum[c], cnt := some s.cnt, meanF := some (meanOf s.sum[c] target) }

/-- The end of AVGM (R230, R227): each member's mean is a draw of its own where `target = 0`; lane `i` takes draw
number `i` of twenty (assumption 14). -/
def State.completeAvgm (s : State) (chset : ChSet) (target : BitVec 16) : State :=
  if target = 0 then
    { s with draws := s.draws + 20 }.complete
      { Res.empty with
        msum := perMember chset fun c => some s.sum[c]
        mmean := perMember chset fun c => some (Config.draw (s.draws + c.val))
        cnt := some s.cnt }
  else
    s.complete
      { Res.empty with
        msum := perMember chset fun c => some s.sum[c]
        mmean := perMember chset fun c => some (meanOf s.sum[c] target)
        cnt := some s.cnt }

/-- The top of AVG's round loop (R225, R224): finished, unattainable, or a further round, whose first step is the start
command. -/
def State.avgRound (s : State) (c : Channel) (target : BitVec 16) : State :=
  if s.cnt.toNat < target.toNat then
    if s.rnd = s.par.roundMax then raiseCode codeAverageUnattainable none s
    else { s with rnd := s.rnd + 1 }.send (startFrame (channelNumber c))
  else s.completeAvg c target

/-- The top of AVGM's round loop (R230, R224): the first step of a round is the mask write. -/
def State.avgmRound (s : State) (chset : ChSet) (target : BitVec 16) : State :=
  if s.cnt.toNat < target.toNat then
    if s.par.mroundMax = some s.rnd then raiseCode codeAverageUnattainable none s
    else { s with rnd := s.rnd + 1 }.send (maskFrame (maskOf chset))
  else s.completeAvgm chset target

/-- The end of a round of AVG with its reading (R225): a VALID reading is accumulated, any other leaves SUM and CNT as
they were (R220). -/
def State.avgRoundEnd (s : State) (c : Channel) (target : BitVec 16) (r : Reading) : State :=
  if r.tag = tagValid then
    { s with sum := s.sum.set c (addReading s.sum[c] r.raw), cnt := s.cnt + 1 }.avgRound c target
  else s.avgRound c target

/-- Every member's reading of the round is VALID (R230); vacuously so for the empty set (R231). -/
def State.allValid (s : State) (chset : ChSet) : Bool :=
  (members chset).all fun c => s.readings[c].tag == tagValid

/-- SUM with every member's reading added (R230). -/
def State.addAll (s : State) (chset : ChSet) : Vector (BitVec 40) 20 :=
  Vector.ofFn fun c => if isMember chset c then addReading s.sum[c] s.readings[c].raw else s.sum[c]

/-- The end of a round of AVGM (R230): accumulated for every member or for none (R232). -/
def State.avgmRoundEnd (s : State) (chset : ChSet) (target : BitVec 16) : State :=
  if s.allValid chset then { s with sum := s.addAll chset, cnt := s.cnt + 1 }.avgmRound chset target
  else s.avgmRound chset target

/-- AVGM's reads begin after the poll loop: the first member's result read, or the end of the round where the set is
empty (R231). -/
def State.avgmReads (s : State) (chset : ChSet) (target : BitVec 16) : State :=
  match firstMember chset with
  | some c => s.send (resultFrame c)
  | none => s.avgmRoundEnd chset target

/-- One poll of AVG: counted, and the loop goes on or the result is read (R222, R223). -/
def State.avgPolled (s : State) (c : Channel) (done : BitVec 1) : State :=
  let s' := { s with polls := s.polls + 1 }
  if s'.pollsOver (some s.par.pollMax) done then s'.send (resultFrame c) else s'.send statusFrame

/-- One poll of AVGM (R222, R223). -/
def State.avgmPolled (s : State) (chset : ChSet) (target : BitVec 16) (done : BitVec 1) : State :=
  let s' := { s with polls := s.polls + 1 }
  if s'.pollsOver s.par.mpollMax done then s'.avgmReads chset target else s'.send statusFrame

/-- The next read of a pass over a channel set after channel `c`, or `finish` where `c` was the last member. -/
def State.nextRead (s : State) (chset : ChSet) (c : Channel) (finish : State → State) : State :=
  match nextMember chset c with
  | some d => s.send (resultFrame d)
  | none => finish s

/-! ## What a step decodes -/

/-- The item the operation in progress is at (R30). -/
def State.pendingItem (s : State) : Option Item :=
  match s.pending with
  | .none => none
  | .cfgWord w => some (.cfgWord w)
  | .frame bytes => some (.wire bytes)
  | .statusByte b => some (.statusByte b)
  | .resultWord _ w => some (.resultWord w)

/-- The channel of the result word the block is at. -/
def State.pendingChannel (s : State) : Option Channel :=
  match s.pending with
  | .resultWord c _ => some c
  | _ => none

/-- The host presents an operation (R24): its record stands on the port, and the host's next action comes next. -/
def State.present (s : State) (o : Opr) (rest : List HostAction) : State := { s with opr := o, host := rest }

/-- The operation a lone frame or word belongs to, for `State.withFetchWord` (assumption 22): the operation whose own
step it is. -/
def loneJob : Instr → Job
  | .wWrite _ _ => .wrreg
  | .wRead _ _ => .rdreg
  | .fStart _ => .start
  | .fMask _ => .startm
  | .fStatusRd => .status
  | .statusByte _ _ _ _ => .status
  | .fResultRd _ => .rdtemp
  | .resultWord _ _ => .rdtemp
  | _ => .cfg 0

/-- The block at the given item, as the next thing it decodes (assumption 22). An operation is placed on the command
port of an idle block. Any other item is placed as the pending step of an operation in progress, and where no answer of
the transport is there yet, one `Ok` answer with free bytes, so that the very next step runs the item. -/
def State.placeItem (s : State) (it : Item) : State :=
  let job := match decode s.par.typeIds it with
    | .ok i => loneJob i
    | .error _ => .wrreg
  let answers := match s.answers with
    | [] => [Answer.ok
        { f0 := Config.answerByte 0, f1 := Config.answerByte 1, f2 := Config.answerByte 2, d0 := Config.answerByte 3,
          d1 := Config.answerByte 4, d2 := Config.answerByte 5, d3 := Config.answerByte 6 }]
    | as => as
  match it with
  | .port o => { s with host := [.present o] }.release
  | .wire bytes => { s with busy := true, job := job, pending := .frame bytes, answers := answers }
  | .statusByte b => { s with busy := true, job := job, pending := .statusByte b }
  | .resultWord w => { s with busy := true, job := job, pending := .resultWord 0 w }
  | .cfgWord w => { s with busy := true, job := job, pending := .cfgWord w }

end Sys2Proof.Machine
end

