-- ==== Sys2Proof/Machine/Averaging.lean ====
section
/-! DEFINITION. AVG and AVGM (spec/45_averaging.md). Their first step clears the working registers and begins the first
round; the rounds are the steps of Conversion.lean under the job `avg` or `avgm`. -/

namespace Sys2Proof.Machine

/-- AVG (R225): its first step. With `target = 0` it completes at once (R227). -/
def execAvg (ch : BitVec 5) (target : BitVec 16) (s : State) : Out :=
  match channelOfPort ch with
  | none => .next (rejectConfig s)
  | some c =>
    .next (({ s with sum := s.sum.set c 0, cnt := 0, rnd := 0, polls := 0 }.beginJob (.avg c target) .none).avgRound
      c target)

/-- AVGM (R230): its first step. With `target = 0` it completes at once (R227). -/
def execAvgm (chset : ChSet) (target : BitVec 16) (s : State) : Out :=
  let cleared : Vector (BitVec 40) 20 := Vector.ofFn fun c => if isMember chset c then 0 else s.sum[c]
  .next (({ s with sum := cleared, cnt := 0, rnd := 0, polls := 0 }.beginJob (.avgm chset target) .none).avgmRound
    chset target)

end Sys2Proof.Machine
end

