-- ==== Sys2Proof/Machine/ChannelMap.lean ====
section
/-! DEFINITION. CHMAP, MKMASK (spec/41_channel_map.md): combinational, no bus activity, no state change. -/

namespace Sys2Proof.Machine

/-- CHMAP (R151). -/
def execChmap (ch : BitVec 5) (s : State) : Out :=
  match channelOfPort ch with
  | none => .next (rejectConfig s)
  | some c =>
    .next (s.complete
      { Res.empty with caddr := some (configAddr c), raddr := some (resultAddr c), selbit := some (selBit c) })

/-- MKMASK (R154). -/
def execMkmask (chset : ChSet) (s : State) : Out :=
  .next (s.complete { Res.empty with word := some (maskOf chset) })

end Sys2Proof.Machine
end

