-- ==== Sys2Proof/Machine/Codec.lean ====
section
/-! DEFINITION. ENCQ, ENCIDF, DECQ, CLASS (spec/40_codec.md): combinational, no bus activity, every operand legal. -/

namespace Sys2Proof.Machine

/-- ENCQ (R130). -/
def execEncq (fval : Word) (k : BitVec 5) (s : State) : Out :=
  let e := s.encField fval k.toNat 32
  .next (e.2.complete { Res.empty with word := some e.1 })

/-- ENCIDF (R134): bits 31:22 of the word are 0. -/
def execEncidf (fval : Word) (s : State) : Out :=
  let e := s.encField fval 20 22
  .next (e.2.complete { Res.empty with word := some (e.1.setWidth 32) })

/-- DECQ (R136). -/
def execDecq (raw : BitVec 24) (s : State) : Out :=
  .next (s.complete
    { Res.empty with q := some (BitVec.ofInt 24 (sext24 raw)), f := some (f32OfQ (sext24 raw)) })

/-- CLASS (R141). -/
def execClassify (err : Byte) (raw : BitVec 24) (s : State) : Out :=
  .next (s.complete (readingOf err raw).res)

end Sys2Proof.Machine
end

