-- ==== Sys2Proof/Machine/ConfigWord.lean ====
section
/-! DEFINITION. The 18 configuration words (rows CFGWORD_*): the internal step of a CFG operation between its checks and
its bus transaction. The fields are packed (R100) and the word is framed for the channel's configuration register
(R170). -/

namespace Sys2Proof.Machine

/-- The step an encoded configuration word takes: `CfgWrite` of R170 up to its transaction. Outside a CFG operation (a
state no run reaches) the word is the result, as in an ENC operation (assumption 20). -/
def State.frameConfig (s : State) (w : Word) : State :=
  match s.job with
  | .cfg c => s.send (configFrame c w)
  | _ => s.complete { Res.empty with word := some w }

/-- CFGWORD_TC_J (R161, R101): thermocouple type J. -/
def execCfgwordTcJ (f : TcFields) (s : State) : Out := .next (s.frameConfig (tcWord (s.par.typeIds.ofTc 0) f))

/-- CFGWORD_TC_K (R161, R101): thermocouple type K. -/
def execCfgwordTcK (f : TcFields) (s : State) : Out := .next (s.frameConfig (tcWord (s.par.typeIds.ofTc 1) f))

/-- CFGWORD_TC_E (R161, R101): thermocouple type E. -/
def execCfgwordTcE (f : TcFields) (s : State) : Out := .next (s.frameConfig (tcWord (s.par.typeIds.ofTc 2) f))

/-- CFGWORD_TC_N (R161, R101): thermocouple type N. -/
def execCfgwordTcN (f : TcFields) (s : State) : Out := .next (s.frameConfig (tcWord (s.par.typeIds.ofTc 3) f))

/-- CFGWORD_TC_R (R161, R101): thermocouple type R. -/
def execCfgwordTcR (f : TcFields) (s : State) : Out := .next (s.frameConfig (tcWord (s.par.typeIds.ofTc 4) f))

/-- CFGWORD_TC_S (R161, R101): thermocouple type S. -/
def execCfgwordTcS (f : TcFields) (s : State) : Out := .next (s.frameConfig (tcWord (s.par.typeIds.ofTc 5) f))

/-- CFGWORD_TC_T (R161, R101): thermocouple type T. -/
def execCfgwordTcT (f : TcFields) (s : State) : Out := .next (s.frameConfig (tcWord (s.par.typeIds.ofTc 6) f))

/-- CFGWORD_TC_B (R161, R101): thermocouple type B. -/
def execCfgwordTcB (f : TcFields) (s : State) : Out := .next (s.frameConfig (tcWord (s.par.typeIds.ofTc 7) f))

/-- CFGWORD_RTD_PT10 (R165, R101): RTD PT10. -/
def execCfgwordRtdPt10 (f : RtdFields) (s : State) : Out := .next (s.frameConfig (rtdWord (s.par.typeIds.ofRtd 0) f))

/-- CFGWORD_RTD_PT50 (R165, R101): RTD PT50. -/
def execCfgwordRtdPt50 (f : RtdFields) (s : State) : Out := .next (s.frameConfig (rtdWord (s.par.typeIds.ofRtd 1) f))

/-- CFGWORD_RTD_PT100 (R165, R101): RTD PT100. -/
def execCfgwordRtdPt100 (f : RtdFields) (s : State) : Out := .next (s.frameConfig (rtdWord (s.par.typeIds.ofRtd 2) f))

/-- CFGWORD_RTD_PT200 (R165, R101): RTD PT200. -/
def execCfgwordRtdPt200 (f : RtdFields) (s : State) : Out := .next (s.frameConfig (rtdWord (s.par.typeIds.ofRtd 3) f))

/-- CFGWORD_RTD_PT500 (R165, R101): RTD PT500. -/
def execCfgwordRtdPt500 (f : RtdFields) (s : State) : Out := .next (s.frameConfig (rtdWord (s.par.typeIds.ofRtd 4) f))

/-- CFGWORD_RTD_PT1000 (R165, R101): RTD PT1000. -/
def execCfgwordRtdPt1000 (f : RtdFields) (s : State) : Out := .next (s.frameConfig (rtdWord (s.par.typeIds.ofRtd 5) f))

/-- CFGWORD_RTD_1000OHM (R165, R101): RTD 1000 ohm. -/
def execCfgwordRtd1000Ohm (f : RtdFields) (s : State) : Out := .next (s.frameConfig (rtdWord (s.par.typeIds.ofRtd 6) f))

/-- CFGWORD_RTD_NI120 (R165, R101): RTD NI120. -/
def execCfgwordRtdNi120 (f : RtdFields) (s : State) : Out := .next (s.frameConfig (rtdWord (s.par.typeIds.ofRtd 7) f))

/-- CFGWORD_DIODE (R167). -/
def execCfgwordDiode (f : DiodeFields) (s : State) : Out := .next (s.frameConfig (diodeWord s.par.typeIds.diode f))

/-- CFGWORD_SENSE (R168). -/
def execCfgwordSense (rq : BitVec 27) (s : State) : Out := .next (s.frameConfig (senseWord s.par.typeIds.sense rq))

end Sys2Proof.Machine
end

