-- ==== Sys2Proof/Machine/Conversion.lean ====
section
/-! DEFINITION. The conversion and status orchestrator (spec/44_conversion.md): START, STARTM, STATUS, RDTEMP, RDTEMPM,
and the rows of the frames and register contents their steps run. A frame or a register content is a step of the
operation in progress, so what follows it depends on that operation; where no rule has such a step (a state no run
reaches), the operation completes (assumption 20). -/

namespace Sys2Proof.Machine

/-- START (R203): its first step hands the start frame to the transport. -/
def execStart (ch : BitVec 5) (s : State) : Out :=
  match channelOfPort ch with
  | none => .next (rejectConfig s)
  | some c => .next (s.beginJob .start (.frame (startFrame (channelNumber c))))

/-- STARTM (R205, R204): its first step hands the mask frame to the transport; the empty set is accepted. -/
def execStartm (chset : ChSet) (s : State) : Out :=
  .next (s.beginJob .startm (.frame (maskFrame (maskOf chset))))

/-- STATUS (R207, R206): its first step hands the status read to the transport. -/
def execStatus (s : State) : Out := .next (s.beginJob .status (.frame statusFrame))

/-- RDTEMP (R210, R208): its first step hands the result read to the transport. -/
def execRdtemp (ch : BitVec 5) (s : State) : Out :=
  match channelOfPort ch with
  | none => .next (rejectConfig s)
  | some c => .next (s.beginJob .rdtemp (.frame (resultFrame c)))

/-- RDTEMPM (R211): its first step hands the first member's result read to the transport; the empty set completes at
once. -/
def execRdtempm (chset : ChSet) (s : State) : Out :=
  match firstMember chset with
  | some c => .next (s.beginJob (.rdtempm chset) (.frame (resultFrame c)))
  | none => .next (s.complete (multiRes chset s.readings))

/-- F_START (R95, R202, R204): the start command on the bus. When it returns `Ok`, START and STARTM write PHASE and SEL
and complete, a round of AVG or AVGM writes them and begins its polls; a WRREG of the same bytes changes neither
(R193). -/
def execFStart (c : BitVec 5) (s : State) : Out :=
  transact (startFrame c) s fun _ s =>
    match s.job with
    | .start => (s.startPhase c).complete Res.empty
    | .startm => (s.startPhase c).complete Res.empty
    | .avg _ _ => (s.startPhase c).beginPolls
    | .avgm _ _ => (s.startPhase c).beginPolls
    | _ => s.complete Res.empty

/-- F_MASK (R98, R204): the mask write on the bus. A masked start goes on with the start command of channel field 0; a
WRREG of the same bytes completes. -/
def execFMask (m : ChSet) (s : State) : Out :=
  transact (maskFrame (m.setWidth 32)) s fun _ s =>
    match s.job with
    | .startm => s.send (startFrame 0)
    | .avgm _ _ => s.send (startFrame 0)
    | _ => s.complete Res.empty

/-- F_CFG (R170): a configuration write on the bus. A CFG operation completes with the word; a WRREG of the same bytes
defines no `word`. -/
def execFCfg (a : BitVec 5) (w : Word) (s : State) : Out :=
  transact (writeFrame (cfgFieldAddr a) (be32 w)) s fun _ s =>
    match s.job with
    | .cfg _ => s.complete { Res.empty with word := some w }
    | _ => s.complete Res.empty

/-- F_STATUS_RD (R206): a status read on the bus. Data byte 0 is decoded in the next step; an RDREG of the same frame
completes with the data (R194). -/
def execFStatusRd (s : State) : Out :=
  transact statusFrame s fun rx s =>
    match s.job with
    | .rdreg => s.completeRead 1 rx
    | _ => { s with pending := .statusByte rx.d0 }

/-- F_RESULT_RD (R208): a result read on the bus. The result word is decoded in the next step; an RDREG of the same
frame completes with the data (R194). -/
def execFResultRd (a : BitVec 5) (s : State) : Out :=
  transact (readFrame (resultFieldAddr a) 4) s fun rx s =>
    match s.job, channelOfResultField a with
    | .rdreg, _ => s.completeRead 4 rx
    | _, some c => { s with pending := .resultWord c rx.word }
    | _, none => s.completeRead 4 rx

/-- STATUS_BYTE (R96, R206): the snapshot of one status read. The phase machine sees `done`; bit 5 is ignored (R121).
STATUS completes with the snapshot (R207); a poll of AVG or AVGM looks only at `done` (R222). -/
def execStatusByte (start done _unused : BitVec 1) (chsel : BitVec 5) (s : State) : Out :=
  let s := s.statusPhase done
  match s.job with
  | .avg c _ => .next (s.avgPolled c done)
  | .avgm chset target => .next (s.avgmPolled chset target done)
  | _ =>
    .next (s.complete { Res.empty with stStart := some start, stDone := some done, stChsel := some chsel })

/-- RESULT_WORD (R97, R208): the result of one result read, classified. RDTEMP completes with it (R210); RDTEMPM and
AVGM keep it and read the next member (R211, R230); AVG ends its round with it (R225). -/
def execResultWord (err : Byte) (raw : BitVec 24) (s : State) : Out :=
  match s.job, s.pendingChannel with
  | .rdtempm chset, some c =>
    .next ((s.keepReading c (readingOf err raw)).nextRead chset c fun s => s.complete (multiRes chset s.readings))
  | .avg c target, _ => .next (s.avgRoundEnd c target (readingOf err raw))
  | .avgm chset target, some c =>
    .next ((s.keepReading c (readingOf err raw)).nextRead chset c fun s => s.avgmRoundEnd chset target)
  | _, _ => .next (s.complete (readingOf err raw).res)

end Sys2Proof.Machine
end

