-- ==== Sys2Proof/Machine/Framer.lean ====
section
/-! DEFINITION. The transaction framer (spec/43_framer.md): WRREG and RDREG, and the rows of the two general frames. -/

namespace Sys2Proof.Machine

/-- WRREG (R193): its first step hands one write frame of the first `len` bytes of `wdata` to the transport. -/
def execWrreg (addr : Addr) (len : BitVec 3) (wdata : Word) (s : State) : Out :=
  if lenLegal len then .next (s.beginJob .wrreg (.frame (writeFrame addr ((be32 wdata).take len.toNat))))
  else .next (rejectConfig s)

/-- RDREG (R194): its first step hands one read frame to the transport. -/
def execRdreg (addr : Addr) (len : BitVec 3) (s : State) : Out :=
  if lenLegal len then .next (s.beginJob .rdreg (.frame (readFrame addr len.toNat)))
  else .next (rejectConfig s)

/-- W_WRITE (R91, R191): a write transaction that no more special row describes; only WRREG builds one, and it then
completes (R193). -/
def execWWrite (addr : Addr) (payload : List Byte) (s : State) : Out :=
  transact (writeFrame addr payload) s fun _ s => s.complete Res.empty

/-- W_READ (R92, R192): a read transaction that no more special row describes; only RDREG builds one, and it then
completes with the data placed left-aligned (R194, R195). -/
def execWRead (addr : Addr) (n : BitVec 3) (s : State) : Out :=
  transact (readFrame addr n.toNat) s fun rx s => s.completeRead n rx

end Sys2Proof.Machine
end

