-- ==== Sys2Proof/Machine/Sensor.lean ====
section
/-! DEFINITION. The sensor configuration encoder (spec/42_sensor_config.md): ENCTC, ENCRTD, ENCDIO, ENCRS complete in
one step; CFGTC, CFGRTD, CFGDIO, CFGRS check, encode, and leave the word as the pending step, whose framing and writing
are the rows CFGWORD_* and F_CFG. Every check comes before the word is built (R172). -/

namespace Sys2Proof.Machine

/-- ENCTC (R162). -/
def execEnctc (sub : BitVec 3) (p : TcFields) (s : State) : Out :=
  if tcLegal p then .next (s.complete { Res.empty with word := some (encTc s.par sub p) })
  else .next (rejectConfig s)

/-- ENCRTD (R164). -/
def execEncrtd (sub : BitVec 3) (p : RtdOperands) (s : State) : Out :=
  if rtdLegal p then .next (s.complete { Res.empty with word := some (encRtd s.par sub p) })
  else .next (rejectConfig s)

/-- ENCDIO (R166). -/
def execEncdio (p : DiodeOperands) (s : State) : Out :=
  let e := s.encIdf p
  .next (e.2.complete { Res.empty with word := some (encDiode s.par p e.1) })

/-- ENCRS (R169). -/
def execEncrs (fval : Word) (s : State) : Out :=
  let e := s.encField fval 10 27
  .next (e.2.complete { Res.empty with word := some (encSense s.par e.1) })

/-- CFGTC (R171): its first step. -/
def execCfgtc (ch : BitVec 5) (sub : BitVec 3) (p : TcFields) (s : State) : Out :=
  match channelOfPort ch with
  | none => .next (rejectConfig s)
  | some c =>
    if tcLegal p then .next (s.beginJob (.cfg c) (.cfgWord (encTc s.par sub p))) else .next (rejectConfig s)

/-- CFGRTD (R173): its first step. -/
def execCfgrtd (ch : BitVec 5) (sub : BitVec 3) (p : RtdOperands) (s : State) : Out :=
  match channelOfPort ch with
  | none => .next (rejectConfig s)
  | some c =>
    if rtdLegal p then .next (s.beginJob (.cfg c) (.cfgWord (encRtd s.par sub p))) else .next (rejectConfig s)

/-- CFGDIO (R174): its first step. -/
def execCfgdio (ch : BitVec 5) (p : DiodeOperands) (s : State) : Out :=
  match channelOfPort ch with
  | none => .next (rejectConfig s)
  | some c =>
    let e := s.encIdf p
    .next (e.2.beginJob (.cfg c) (.cfgWord (encDiode s.par p e.1)))

/-- CFGRS (R175): its first step. -/
def execCfgrs (ch : BitVec 5) (fval : Word) (s : State) : Out :=
  match channelOfPort ch with
  | none => .next (rejectConfig s)
  | some c =>
    let e := s.encField fval 10 27
    .next (e.2.beginJob (.cfg c) (.cfgWord (encSense s.par e.1)))

end Sys2Proof.Machine
end

