-- ==== Sys2Proof/Machine/Dispatch.lean ====
section
/-! DEFINITION. One arm per constructor of Instr, each one call of its meaning. -/

namespace Sys2Proof.Machine

def exec (i : Instr) (s : State) : Host.Outcome State Fault Refusal :=
  match i with
  | .encq fval k => Sys2Proof.Machine.execEncq fval k s
  | .encidf fval => Sys2Proof.Machine.execEncidf fval s
  | .decq raw => Sys2Proof.Machine.execDecq raw s
  | .classify err raw => Sys2Proof.Machine.execClassify err raw s
  | .chmap ch => Sys2Proof.Machine.execChmap ch s
  | .mkmask chset => Sys2Proof.Machine.execMkmask chset s
  | .enctc sub p => Sys2Proof.Machine.execEnctc sub p s
  | .encrtd sub p => Sys2Proof.Machine.execEncrtd sub p s
  | .encdio p => Sys2Proof.Machine.execEncdio p s
  | .encrs fval => Sys2Proof.Machine.execEncrs fval s
  | .cfgtc ch sub p => Sys2Proof.Machine.execCfgtc ch sub p s
  | .cfgrtd ch sub p => Sys2Proof.Machine.execCfgrtd ch sub p s
  | .cfgdio ch p => Sys2Proof.Machine.execCfgdio ch p s
  | .cfgrs ch fval => Sys2Proof.Machine.execCfgrs ch fval s
  | .wrreg addr len wdata => Sys2Proof.Machine.execWrreg addr len wdata s
  | .rdreg addr len => Sys2Proof.Machine.execRdreg addr len s
  | .start ch => Sys2Proof.Machine.execStart ch s
  | .startm chset => Sys2Proof.Machine.execStartm chset s
  | .status => Sys2Proof.Machine.execStatus s
  | .rdtemp ch => Sys2Proof.Machine.execRdtemp ch s
  | .rdtempm chset => Sys2Proof.Machine.execRdtempm chset s
  | .avg ch target => Sys2Proof.Machine.execAvg ch target s
  | .avgm chset target => Sys2Proof.Machine.execAvgm chset target s
  | .wWrite addr payload => Sys2Proof.Machine.execWWrite addr payload s
  | .wRead addr n => Sys2Proof.Machine.execWRead addr n s
  | .fStart c => Sys2Proof.Machine.execFStart c s
  | .fMask m => Sys2Proof.Machine.execFMask m s
  | .fCfg a w => Sys2Proof.Machine.execFCfg a w s
  | .fStatusRd => Sys2Proof.Machine.execFStatusRd s
  | .fResultRd a => Sys2Proof.Machine.execFResultRd a s
  | .statusByte start done unused chsel => Sys2Proof.Machine.execStatusByte start done unused chsel s
  | .resultWord err raw => Sys2Proof.Machine.execResultWord err raw s
  | .cfgwordTcJ f => Sys2Proof.Machine.execCfgwordTcJ f s
  | .cfgwordTcK f => Sys2Proof.Machine.execCfgwordTcK f s
  | .cfgwordTcE f => Sys2Proof.Machine.execCfgwordTcE f s
  | .cfgwordTcN f => Sys2Proof.Machine.execCfgwordTcN f s
  | .cfgwordTcR f => Sys2Proof.Machine.execCfgwordTcR f s
  | .cfgwordTcS f => Sys2Proof.Machine.execCfgwordTcS f s
  | .cfgwordTcT f => Sys2Proof.Machine.execCfgwordTcT f s
  | .cfgwordTcB f => Sys2Proof.Machine.execCfgwordTcB f s
  | .cfgwordRtdPt10 f => Sys2Proof.Machine.execCfgwordRtdPt10 f s
  | .cfgwordRtdPt50 f => Sys2Proof.Machine.execCfgwordRtdPt50 f s
  | .cfgwordRtdPt100 f => Sys2Proof.Machine.execCfgwordRtdPt100 f s
  | .cfgwordRtdPt200 f => Sys2Proof.Machine.execCfgwordRtdPt200 f s
  | .cfgwordRtdPt500 f => Sys2Proof.Machine.execCfgwordRtdPt500 f s
  | .cfgwordRtdPt1000 f => Sys2Proof.Machine.execCfgwordRtdPt1000 f s
  | .cfgwordRtd1000Ohm f => Sys2Proof.Machine.execCfgwordRtd1000Ohm f s
  | .cfgwordRtdNi120 f => Sys2Proof.Machine.execCfgwordRtdNi120 f s
  | .cfgwordDiode f => Sys2Proof.Machine.execCfgwordDiode f s
  | .cfgwordSense rq => Sys2Proof.Machine.execCfgwordSense rq s

end Sys2Proof.Machine
end

