-- ==== Sys2Proof/Machine/Step.lean ====
section
/-! DEFINITION. One step of the machine (R20): the block decodes the item it is at and runs it. -/

namespace Sys2Proof.Machine

/-- One step. With `BUSY = 1` the operation in progress takes its next step (R21). With `BUSY = 0` the block takes the
host's next action (R24, R270): an unassigned code ends at once with IllegalOperation (R123, R245); where the host does
nothing the block waits (R271). -/
def step (s : State) : Host.Outcome State Fault Refusal :=
  if s.busy then
    match s.pendingItem with
    | none => .fault .lostPosition
    | some it =>
      match decode s.par.typeIds it with
      | .ok i => exec i s
      | .error e => .refused (.undecodable e)
  else
    match s.host with
    | [] => .next s
    | .reset :: rest => .next { s with host := rest }.resetBlock
    | .present o :: rest =>
      match decode s.par.typeIds (.port o) with
      | .ok i => exec i (s.present o rest)
      | .error _ => .next (illegalOperation (s.present o rest))

/-- The state with the instruction of a row's bits where `step` fetches next (assumption 22). -/
def State.withFetchWord (s : State) (nbits w : Nat) : State :=
  match rowItem s.par.typeIds nbits w with
  | some it => s.placeItem it
  | none => s

end Sys2Proof.Machine
end

