-- ==== Sys2Proof/Safety.lean ====
section
/-! DEFINITION. What statements about this machine speak of: how an operation ends or goes on, runs of several steps,
what counts as a good state, and which parts of a state two runs may differ in. -/

namespace Sys2Proof.Machine

/-! ## How one step leaves an operation -/

/-- The operation is over with code OK and exactly the result fields of `r` (R24, R29); every other part of the state is
as it was. -/
def ended (s : State) (r : Res) : State :=
  { s with busy := false, job := .none, pending := .none, res := { r with code := some 0 } }

/-- The operation is over with a code other than OK (R246): only `code` and `info` are defined; every other part of the
state is as it was. -/
def raised (s : State) (code : BitVec 3) (info : Option Nat) : State :=
  { s with busy := false, job := .none, pending := .none, res := { Res.empty with code := some code, info := info } }

/-- The operation has begun and its first step is pending (R24, R30); every other part of the state is as it was. -/
def begun (s : State) (job : Job) (p : Pending) : State :=
  { s with busy := true, job := job, pending := p, res := Res.empty }

/-- One transport call has returned: its answer is used up and its frame is in the history (R67, R73). -/
def called (s : State) (frame : List Byte) (rest : List Answer) : State :=
  { s with answers := rest, trace := s.trace ++ [frame] }

/-! ## Runs -/

/-- `k` steps from `s` end in `t`, none of them stopping. -/
def Runs (k : Nat) (s t : State) : Prop := Host.Core.run Sys2Proof.core k s = .next t

/-! ## Good states -/

/-- The steps an operation can be at, by its rule (R30), under the instance's type identifiers. -/
def PendingFits (ids : TypeIds) : Job → Pending → Prop
  | .none, p => p = .none
  | .cfg c, p => (∃ w i, p = .cfgWord w ∧ decodeCfgWord ids w = .ok i) ∨ ∃ w, p = .frame (configFrame c w)
  | .wrreg, p => ∃ addr payload, payload.length ≤ 4 ∧ p = .frame (writeFrame addr payload)
  | .rdreg, p => ∃ addr n, n ≤ 4 ∧ p = .frame (readFrame addr n)
  | .start, p => ∃ c, p = .frame (startFrame (channelNumber c))
  | .startm, p => (∃ chset, p = .frame (maskFrame (maskOf chset))) ∨ p = .frame (startFrame 0)
  | .status, p => p = .frame statusFrame ∨ ∃ b, p = .statusByte b
  | .rdtemp, p => ∃ c, p = .frame (resultFrame c) ∨ ∃ w, p = .resultWord c w
  | .rdtempm chset, p =>
    ∃ c, isMember chset c = true ∧ (p = .frame (resultFrame c) ∨ ∃ w, p = .resultWord c w)
  | .avg c _, p =>
    p = .frame (startFrame (channelNumber c)) ∨ p = .frame statusFrame ∨ (∃ b, p = .statusByte b) ∨
      p = .frame (resultFrame c) ∨ ∃ w, p = .resultWord c w
  | .avgm chset _, p =>
    p = .frame (maskFrame (maskOf chset)) ∨ p = .frame (startFrame 0) ∨ p = .frame statusFrame ∨
      (∃ b, p = .statusByte b) ∨
      ∃ c, isMember chset c = true ∧ (p = .frame (resultFrame c) ∨ ∃ w, p = .resultWord c w)

/-- The invariant of the block's control state: PHASE is never 3 and SEL is 0 to 20 (R22), BUSY is 1 exactly while an
operation is in progress (R24), and the step it is at is one of its rule's (R30). -/
def ControlInv (s : State) : Prop :=
  s.phase ≠ 3 ∧ s.sel.toNat ≤ 20 ∧ (s.busy = true ↔ s.job ≠ .none) ∧
    PendingFits s.par.typeIds s.job s.pending

/-- The sum of a channel is within the number of accumulated rounds times the largest magnitude `2^23` (R23). -/
def SumWithin (s : State) (c : Channel) : Prop := s.sum[c].toInt.natAbs ≤ s.cnt.toNat * 2 ^ 23

/-- The invariant of the averaging loops: while AVG or AVGM runs, fewer rounds are accumulated than wanted (R225, R230)
and each sum it accumulates is within its bound, so that no sum overflows (R23). -/
def LoopInv (s : State) : Prop :=
  match s.job with
  | .avg c target => s.cnt.toNat < target.toNat ∧ SumWithin s c
  | .avgm chset target => s.cnt.toNat < target.toNat ∧ ∀ c, isMember chset c = true → SumWithin s c
  | _ => True

/-- The result record uses only assigned codes and tags: code 0, 1, 3, 4 or 5 (R240, R242), tags never 0 (R28); and the
transport's payload has `TERR_W` bits (R8, R28). -/
def ResLegal (par : Params) (r : Res) : Prop :=
  (∀ x, r.code = some x → x = 0 ∨ x = 1 ∨ x = 3 ∨ x = 4 ∨ x = 5) ∧
    (∀ x, r.info = some x → x < 2 ^ par.terrW) ∧ (∀ x, r.tag = some x → x ≠ 0) ∧
    ∀ (c : Channel) x, r.mtag[c] = some x → x ≠ 0

/-! ## Comparing runs -/

/-- The state without PHASE and SEL, which gate nothing (R22, R307). -/
def forgetPhase (s : State) : State := { s with phase := 0, sel := 0 }

/-- The outcome without PHASE and SEL. -/
def forgetPhaseOut : Host.Outcome State Fault Refusal → Host.Outcome State Fault Refusal
  | .next s => .next (forgetPhase s)
  | .fault e => .fault e
  | .refused e => .refused e

/-! ## The spec's formulas, written without the model's packer and frame builders -/

/-- The word of R161: the type identifier in bits 31:27 above the fields of R102. -/
def tcFormula (typeId : BitVec 5) (f : TcFields) : Word :=
  typeId.setWidth 32 <<< 27 ||| f.cj.setWidth 32 <<< 22 ||| f.sgl.setWidth 32 <<< 21 |||
    f.oc.setWidth 32 <<< 18 ||| f.cptr.setWidth 32

/-- The word of R165: the type identifier in bits 31:27 above the fields of R104. -/
def rtdFormula (typeId : BitVec 5) (f : RtdFields) : Word :=
  typeId.setWidth 32 <<< 27 ||| f.rs.setWidth 32 <<< 22 ||| f.wires.setWidth 32 <<< 20 |||
    f.exc.setWidth 32 <<< 18 ||| f.cur.setWidth 32 <<< 14 ||| f.curve.setWidth 32 <<< 12 ||| f.cptr.setWidth 32

/-- The word of R167 for an ideality field `idf`. -/
def diodeFormula (typeId : BitVec 5) (f : DiodeFields) : Word :=
  typeId.setWidth 32 <<< 27 ||| f.sgl.setWidth 32 <<< 26 ||| f.rd3.setWidth 32 <<< 25 ||| f.avg.setWidth 32 <<< 24 |||
    f.dcur.setWidth 32 <<< 22 ||| f.idf.setWidth 32

/-- The word of R168 for a resistance field `rq`. -/
def senseFormula (typeId : BitVec 5) (rq : BitVec 27) : Word := typeId.setWidth 32 <<< 27 ||| rq.setWidth 32

/-- The RTD word fields of some operands, with `exc` as in R165 at the default `RTD_EXC`: bit 1 is `rot` in the two
four-wire modes, bit 0 is `ext` exclusive-or `P_EXT_POL`. -/
def rtdDefaultFields (extPol : BitVec 1) (p : RtdOperands) : RtdFields :=
  { rs := p.rs, wires := p.wires, exc := (if p.wires = 2 ∨ p.wires = 3 then p.rot else 0) ++ (p.ext ^^^ extPol),
    cur := p.cur, curve := p.curve, cptr := p.cptr }

/-- The RTD word fields of some operands with the excitation field the instance's table of `RTD_EXC` gives (R8, R165).
-/
def rtdTableFields (par : Params) (p : RtdOperands) : RtdFields :=
  { rs := p.rs, wires := p.wires, exc := par.rtdExc[(p.wires ++ p.ext ++ p.rot).toFin], cur := p.cur, curve := p.curve,
    cptr := p.cptr }

/-- `EncQ(b, k, W)` of R131 to R133 with the number of draws made before it, and the number made after it: the nearest
integer to `val(b) * 2^k`, half away from zero, modulo `2^W`, where `b` is finite and not below 0, else a draw. -/
def fieldFormula (draws : Nat) (b : Word) (k W : Nat) : BitVec W × Nat :=
  if f32Finite b = true ∧ 0 ≤ f32Val b then (BitVec.ofInt W ⌊f32Val b * 2 ^ k + 1 / 2⌋, draws)
  else ((Config.draw draws).setWidth W, draws + 1)

/-- The ideality field of R167: `EncQ(fval, 20, 22)` where a factor is given, else 0. -/
def idfFormula (draws : Nat) (p : DiodeOperands) : BitVec 22 × Nat :=
  if p.idfEn = 1 then fieldFormula draws p.fval 20 22 else (0, draws)

/-- The diode word's fields for some operands and an encoded ideality field (R167). -/
def diodeFields (p : DiodeOperands) (idf : BitVec 22) : DiodeFields :=
  { sgl := p.sgl, rd3 := p.rd3, avg := p.avg, dcur := p.dcur, idf := idf }

/-- The seven bytes of a configuration write on channel number `n` (R170). -/
def cfgBytes (n : Nat) (w : Word) : List Byte :=
  [0x02, 0x02, BitVec.ofNat 8 (4 * (n - 1)), w.extractLsb' 24 8, w.extractLsb' 16 8, w.extractLsb' 8 8,
    w.extractLsb' 0 8]

/-- The seven bytes of a result read of channel number `n` (R208). -/
def resultBytes (n : Nat) : List Byte := [0x03, 0x00, BitVec.ofNat 8 (0x10 + 4 * (n - 1)), 0x00, 0x00, 0x00, 0x00]

/-- The four bytes of a start command with channel selection `c` (R95). -/
def startBytes (c : BitVec 5) : List Byte := [0x02, 0x00, 0x00, 0x80 ||| c.setWidth 8]

/-- The four bytes of a status read (R206). -/
def statusBytes : List Byte := [0x03, 0x00, 0x00, 0x00]

/-- The seven bytes of a mask write for a channel set (R98, R153: bits 31:20 are 0). -/
def maskBytes (chset : ChSet) : List Byte :=
  [0x02, 0x00, 0xF4, 0x00, chset.extractLsb' 16 4 |>.setWidth 8, chset.extractLsb' 8 8, chset.extractLsb' 0 8]

/-- The tag of R140, by its three cases. -/
def tagFormula (err : Byte) : BitVec 2 := if err = 0x01 then 1 else if err &&& 0x0E = 0 then 2 else 3

/-- The result fields of one classified reading (R141, R209, R210): temperature fields only where no bit of 3:1 is
set. -/
def resultFormula (err : Byte) (raw : BitVec 24) : Res :=
  { Res.empty with
    tag := some (tagFormula err), err := some err
    q := if err &&& 0x0E = 0 then some raw else none
    f := if err &&& 0x0E = 0 then some (f32OfQ raw.toInt) else none }

/-- The magnitude a result read brings (R97). -/
def rawOf (rx : Rx) : BitVec 24 := rx.d1 ++ rx.d2 ++ rx.d3

/-- PHASE after a snapshot with the given done flag (R201). -/
def phaseAfterStatus (phase : BitVec 2) (done : Bool) : BitVec 2 := if phase = 1 ∧ done = true then 2 else phase

/-! ## Scripted rounds of AVG -/

/-- What the transport receives in one round of AVG whose first poll ends the loop: at the start frame, at the status
read, at the result read (R225). -/
structure Round where
  start  : Rx
  poll   : Rx
  result : Rx
deriving DecidableEq, Repr

/-- The poll of the round shows done (R206: bit 6 of data byte 0). -/
def Round.done (r : Round) : Bool := r.poll.d0.getLsbD 6

/-- The error byte of the round's reading (R97). -/
def Round.err (r : Round) : Byte := r.result.d0

/-- The raw value of the round's reading, a signed 24-bit integer (R97, R135). -/
def Round.q (r : Round) : Int := (r.result.d1 ++ r.result.d2 ++ r.result.d3).toInt

/-- The transport's answers of a script of rounds, in order. -/
def scriptAnswers (rounds : List Round) : List Answer := rounds.flatMap fun r => [.ok r.start, .ok r.poll, .ok r.result]

/-- The rounds whose reading is VALID: error byte 0x01 (R140). -/
def validRounds (rounds : List Round) : List Round := rounds.filter fun r => r.err == 0x01

/-- The exact sum of the raw values of some rounds (R221). -/
def sumOf (rounds : List Round) : Int := (rounds.map Round.q).sum

/-- The three frames of such a round on a channel: start command, status read, result read (R225). -/
def roundFrames (ch : BitVec 5) : List (List Byte) :=
  [startBytes ch, statusBytes, resultBytes ch.toNat]

end Sys2Proof.Machine
end

