-- ==== Sys2Proof/Certificates/Slice0/Obligations.lean ====
section
/-! DEFINITION. The statements about the model, for the provers. A statement whose text speaks of "the next answer of
the transport" writes the state with that answer in front, so it holds of every state and every answer. -/

open Sys2Proof Sys2Proof.Machine

/-! ## The step -/

/-- R24, R30: a step runs the decoded instruction. With `BUSY = 0` the operation the host presents is put on the port
and run; with `BUSY = 1` the step the operation in progress is at is run, and nothing is added around it. -/
def Obligations.StepRunsTheDecodedInstruction : Prop :=
  (∀ (s : State) o rest i, s.busy = false → s.host = .present o :: rest → decode s.par.typeIds (.port o) = .ok i →
    step s = exec i { s with opr := o, host := rest }) ∧
  (∀ (s : State) it i, s.busy = true → s.pendingItem = some it → decode s.par.typeIds it = .ok i → step s = exec i s)

/-- R123, R245: an unassigned code ends at once with IllegalOperation and nothing else happens. -/
def Obligations.UnassignedCodesEndIllegal : Prop :=
  ∀ (s : State) o rest, s.busy = false → s.host = .present o :: rest → (o.op = 0 ∨ 0x18 ≤ o.op.toNat) →
    step s = .next (raised { s with opr := o, host := rest } 5 none)

/-- R65, R24, R271: while the transport call has not returned, nothing changes; an idle block waits for the host. That
an empty list of answers is a call not returned, and an empty list of host actions a host that does nothing, is the
model's choice (assumptions 6 and 5). -/
def Obligations.WaitingChangesNothing : Prop :=
  (∀ (s : State) bytes i, s.busy = true → s.pending = .frame bytes → decodeWire bytes = .ok i → s.answers = [] →
    step s = .next s) ∧
  (∀ (s : State), s.busy = false → s.host = [] → step s = .next s)

/-- R66: on `Err(e)` the operation in progress ends with TransportFailure and `info = e`; the failing frame is the last
one, and PHASE, SEL and the working registers keep what they were. The payload has `TERR_W` bits: of a larger number the
block receives the low ones (assumption 6). -/
def Obligations.TransportErrorEndsTheOperation : Prop :=
  ∀ (s : State) bytes i e rest, s.busy = true → s.pending = .frame bytes → decodeWire bytes = .ok i →
    s.answers = .err e :: rest →
    step s = .next (raised (called s bytes rest) 1 (some (e % 2 ^ s.par.terrW))) ∧
    (e < 2 ^ s.par.terrW → step s = .next (raised (called s bytes rest) 1 (some e)))

/-- R24: while `BUSY = 1` the host has no step on the command port. -/
def Obligations.HostHasNoStepWhileBusy : Prop :=
  ∀ (s t : State), s.busy = true → step s = .next t → t.host = s.host ∧ t.opr = s.opr

/-- R73, R64, R93: a step adds at most one frame to the history, the one it was at, and a frame begins with 0x02 or
0x03; what is in the history stays. The record of frames is the model's (assumption 7). -/
def Obligations.HistoryGrowsByOneWholeFrame : Prop :=
  ∀ (s t : State), step s = .next t →
    t.trace = s.trace ∨
      ∃ hi lo rest, ∃ first : Byte, (first = 0x02 ∨ first = 0x03) ∧ rest.length ≤ 4 ∧
        s.pending = .frame (first :: hi :: lo :: rest) ∧ t.trace = s.trace ++ [first :: hi :: lo :: rest]

/-- R271: the parameters are constants of the instance: no step changes them. (State carries them: assumption 8.) -/
def Obligations.ParametersAreConstant : Prop :=
  ∀ (s t : State), step s = .next t → t.par = s.par

/-- R23: SUM, CNT, RND and POLLS are written only while AVG or AVGM runs (at its acceptance, or with it in progress),
and by reset. -/
def Obligations.WorkingRegistersBelongToAveraging : Prop :=
  ∀ (s t : State), step s = .next t →
    (t.sum = s.sum ∧ t.cnt = s.cnt ∧ t.rnd = s.rnd ∧ t.polls = s.polls) ∨
    (s.busy = true ∧ ((∃ c n, s.job = .avg c n) ∨ ∃ chset n, s.job = .avgm chset n)) ∨
    (s.busy = false ∧ ∃ o rest, s.host = .present o :: rest ∧ (o.op = 0x16 ∨ o.op = 0x17)) ∨
    (s.busy = false ∧ ∃ rest, s.host = .reset :: rest)

/-- No instruction of this hardware stops the machine: what the spec calls an exception is an operation that ends with a
code (R240). -/
def Obligations.EveryInstructionAnswersANextState : Prop :=
  ∀ (i : Instr) (s : State), ∃ t, exec i s = .next t

/-! ## Reset and invariants -/

/-- R271: the state after reset: the block's registers are 0 and every field of RES is unspecified, which the model
writes as absent (R29). -/
def Obligations.ResetStateHasTheValuesOfTheTable : Prop :=
  State.reset.phase = 0 ∧ State.reset.sel = 0 ∧ State.reset.busy = false ∧
    (∀ c : Fin 20, State.reset.sum[c] = 0) ∧ State.reset.cnt = 0 ∧ State.reset.rnd = 0 ∧ State.reset.polls = 0 ∧
    State.reset.res = Res.empty

/-- R270 to R273: the host's reset, taken when `BUSY = 0`, gives the values of R271 and sends no frame; it leaves the
inputs, the operand record, the parameters and the counter of free values (the model's choice, assumption 23). With
`BUSY = 1` it is not taken. -/
def Obligations.ResetInputGivesTheResetState : Prop :=
  (∀ (s : State) rest, s.busy = false → s.host = .reset :: rest →
    step s = .next { State.reset with
      opr := s.opr, par := s.par, host := rest, answers := s.answers, trace := s.trace, draws := s.draws }) ∧
  (∀ (s t : State) rest, s.busy = true → s.host = .reset :: rest → step s = .next t → t.host = .reset :: rest)

/-- The reset state meets the invariants. -/
def Obligations.ResetStateMeetsTheInvariants : Prop :=
  ControlInv State.reset ∧ LoopInv State.reset ∧ ResLegal State.reset.par State.reset.res

/-- R22, R24, R30: from every state of the invariant a step answers a next state, and the invariant holds there: PHASE
is never 3, SEL is 0 to 20, BUSY is 1 exactly while an operation is in progress, and the operation is at a step of its
rule. In particular the block never stops. (What stands for the position of R30 is the model's: assumption 19.) -/
def Obligations.InvariantKeptAndNoStop : Prop :=
  ∀ s, ControlInv s → ∃ t, step s = .next t ∧ ControlInv t

/-- R23, R221: while AVG or AVGM runs, every sum it accumulates is within CNT times `2^23`, so no 40-bit sum overflows;
and fewer rounds are accumulated than wanted. -/
def Obligations.SumsStayWithinTheirBound : Prop :=
  ∀ (s t : State), LoopInv s → step s = .next t → LoopInv t

/-- R240, R242, R28, R8: the result record holds only assigned codes, never ChannelUnconfigured, its payload has
`TERR_W` bits, and tags are never 0. -/
def Obligations.ResultRecordStaysLegal : Prop :=
  ∀ (s t : State), ResLegal s.par s.res → step s = .next t → ResLegal t.par t.res

/-- R201: PHASE and SEL change only as the transition table says: by a start frame that returned `Ok` inside a START,
STARTM, AVG or AVGM (its channel selection goes to SEL), by a status byte with done set in CONVERTING, and by reset. -/
def Obligations.PhaseAndSelFollowTheTable : Prop :=
  ∀ (s t : State), step s = .next t →
    (t.phase = s.phase ∧ t.sel = s.sel) ∨
    (∃ c rx rest, s.busy = true ∧ s.pending = .frame (startBytes c) ∧ s.answers = .ok rx :: rest ∧
      (s.job = .start ∨ s.job = .startm ∨ (∃ d n, s.job = .avg d n) ∨ ∃ d n, s.job = .avgm d n) ∧
      t.phase = 1 ∧ t.sel = c) ∨
    (∃ b, s.busy = true ∧ s.pending = .statusByte b ∧ b.getLsbD 6 = true ∧ s.phase = 1 ∧ t.phase = 2 ∧
      t.sel = s.sel) ∨
    (s.busy = false ∧ (∃ rest, s.host = .reset :: rest) ∧ t.phase = 0 ∧ t.sel = 0)

/-- R22, R307: PHASE and SEL gate nothing: two states that differ only in them take the same step, up to PHASE and SEL
again; the frames and the results are the same. -/
def Obligations.PhaseAndSelGateNothing : Prop :=
  ∀ (s : State) p l, forgetPhaseOut (step { s with phase := p, sel := l }) = forgetPhaseOut (step s)

/-! ## Encodings -/

/-- Decode and encode agree on every well-formed instruction of every layer, for every table `TYPE_ID` that gives each
sensor type an identifier of its own, as the default of R101 does (assumption 9). -/
def Obligations.DecodeInvertsEncode : Prop :=
  ∀ ids : TypeIds, ids.all.Nodup → ∀ i, WellFormed i = true → decode ids (encode ids i) = .ok i

/-- A frame, a register content and a configuration word have one meaning, for every table `TYPE_ID`: decoding loses no
bit of them. (An operand record may have fields its operation does not read.) -/
def Obligations.EncodeInvertsDecode : Prop :=
  ∀ (ids : TypeIds) it i, (∀ o, it ≠ .port o) → decode ids it = .ok i → encode ids i = it

/-- R176, R108: slicing a configuration word at the layouts' offsets gives back the type identifier, which is the one
`TYPE_ID` gives, and every enumerated operand. The thermocouple and RTD layouts are marked by the spec itself as general
knowledge (assumption 10). -/
def Obligations.ConfigurationWordsRoundTrip : Prop :=
  (∀ par sub p, (encTc par sub p).extractLsb' 27 5 = par.typeIds.ofTc sub ∧ (encTc par sub p).extractLsb' 12 6 = 0#6 ∧
    tcFieldsOf (encTc par sub p) = p) ∧
  (∀ par sub (p : RtdOperands), (encRtd par sub p).extractLsb' 27 5 = par.typeIds.ofRtd sub ∧
    (rtdFieldsOf (encRtd par sub p)).rs = p.rs ∧ (rtdFieldsOf (encRtd par sub p)).wires = p.wires ∧
    (rtdFieldsOf (encRtd par sub p)).cur = p.cur ∧ (rtdFieldsOf (encRtd par sub p)).curve = p.curve ∧
    (rtdFieldsOf (encRtd par sub p)).cptr = p.cptr) ∧
  (∀ par p idf, (encDiode par p idf).extractLsb' 27 5 = par.typeIds.diode ∧
    diodeFieldsOf (encDiode par p idf) = diodeFields p idf) ∧
  (∀ par rq, (encSense par rq).extractLsb' 27 5 = par.typeIds.sense ∧ (encSense par rq).extractLsb' 0 27 = rq)

/-- A few words written out from the tables of R110, R95, R96 and R102 decode to their instructions. How a row's number
becomes a layer is the model's (assumption 21), the K word's layout general knowledge (assumptions 9, 10). -/
def Obligations.WrittenOutWordsDecode : Prop :=
  decodeTableWord 8 0x11 = some (.start 0) ∧ decodeTableWord 8 0x16 = some (.avg 0 0) ∧
    decodeTableWord 32 0x02000084 = some (.fStart 4) ∧
    decodeTableWord 56 0x0200F400080005 = some (.fMask 0x80005) ∧
    decodeTableWord 32 0x10B40000 = some (.cfgwordTcK { cj := 2, sgl := 1, oc := 5, cptr := 0 }) ∧
    decode Config.defaultTypeIds (.statusByte 0x44) = .ok (.statusByte 0 1 0 4)

/-! ## The codec -/

/-- R130 to R133: ENCQ on every operand: the nearest integer modulo `2^32`, or a free value, and code OK. -/
def Obligations.EncqWritesTheEncodedWord : Prop :=
  ∀ (s : State) b k, exec (.encq b k) s =
    .next (ended { s with draws := (fieldFormula s.draws b k.toNat 32).2 }
      { Res.empty with word := some (fieldFormula s.draws b k.toNat 32).1 })

/-- R134: ENCIDF is ENCQ with `k = 20` in 22 bits, the upper bits 0. -/
def Obligations.EncidfWritesTheIdealityField : Prop :=
  ∀ (s : State) b, exec (.encidf b) s =
    .next (ended { s with draws := (fieldFormula s.draws b 20 22).2 }
      { Res.empty with word := some ((fieldFormula s.draws b 20 22).1.setWidth 32) })

/-- R136: DECQ writes the magnitude and its binary32. -/
def Obligations.DecqWritesValueAndFloat : Prop :=
  ∀ (s : State) raw, exec (.decq raw) s = .next (ended s { Res.empty with q := some raw, f := some (f32OfQ raw.toInt) })

/-- R137: `F32OfQ(q)` is finite, has exactly the value `q / 1024`, and is plus zero for 0. -/
def Obligations.DecodedFloatIsExact : Prop :=
  (∀ raw : BitVec 24, f32Finite (f32OfQ raw.toInt) = true ∧ f32Val (f32OfQ raw.toInt) = (raw.toInt : ℚ) / 1024) ∧
    f32OfQ 0 = 0

/-- R140, R141: CLASS on every operand. -/
def Obligations.ClassTagsTheErrorByte : Prop :=
  ∀ (s : State) err raw, exec (.classify err raw) s = .next (ended s (resultFormula err raw))

/-! ## Channels -/

/-- R150, R151: CHMAP of every legal channel. -/
def Obligations.ChmapMapsEveryChannel : Prop :=
  ∀ (s : State) ch, 1 ≤ ch.toNat ∧ ch.toNat ≤ 20 → exec (.chmap ch) s =
    .next (ended s { Res.empty with
      caddr := some (BitVec.ofNat 16 (0x200 + 4 * (ch.toNat - 1)))
      raddr := some (BitVec.ofNat 16 (0x010 + 4 * (ch.toNat - 1)))
      selbit := some (BitVec.ofNat 32 (2 ^ (ch.toNat - 1))) })

/-- R153, R154: MKMASK writes the set's membership vector, zero-extended. -/
def Obligations.MkmaskWritesTheMembershipVector : Prop :=
  ∀ (s : State) chset, exec (.mkmask chset) s = .next (ended s { Res.empty with word := some (chset.setWidth 32) })

/-! ## Sensor configuration -/

/-- R161, R162: ENCTC on its legal operands, under the instance's `TYPE_ID`; at the default table the identifier is
`1 + sub` (R101). Default table and layout are general knowledge in the spec itself (assumptions 9, 10). -/
def Obligations.EnctcWritesTheThermocoupleWord : Prop :=
  (∀ (s : State) sub p, p.cj.toNat ≤ 20 → (p.oc = 0 ∨ 4 ≤ p.oc.toNat) → exec (.enctc sub p) s =
    .next (ended s { Res.empty with word := some (tcFormula (s.par.typeIds.ofTc sub) p) })) ∧
  (∀ sub, Config.params.typeIds.ofTc sub = 1 + sub.setWidth 5)

/-- R164, R165: ENCRTD on its legal operands, with the identifier and the excitation field the instance's `TYPE_ID` and
`RTD_EXC` give; at the default tables they are `10 + sub` (R101) and the field of R165, for either polarity `P_EXT_POL`,
which is 0. Layout and default tables are general knowledge in the spec itself (assumptions 9, 10, 11). -/
def Obligations.EncrtdWritesTheRtdWord : Prop :=
  (∀ (s : State) sub p, (2 ≤ p.rs.toNat ∧ p.rs.toNat ≤ 20) → (1 ≤ p.cur.toNat ∧ p.cur.toNat ≤ 8) →
    exec (.encrtd sub p) s =
      .next (ended s
        { Res.empty with word := some (rtdFormula (s.par.typeIds.ofRtd sub) (rtdTableFields s.par p)) })) ∧
  (∀ sub, Config.params.typeIds.ofRtd sub = 10 + sub.setWidth 5) ∧
  (∀ par p extPol, par.rtdExc = Config.defaultRtdExc extPol → rtdTableFields par p = rtdDefaultFields extPol p) ∧
  Config.params.rtdExc = Config.defaultRtdExc 0

/-- R166, R167: ENCDIO on every operand, under the instance's `TYPE_ID`; at the default table the identifier is 28
(R101). The default table is general knowledge in the spec itself (assumption 9). -/
def Obligations.EncdioWritesTheDiodeWord : Prop :=
  (∀ (s : State) p, exec (.encdio p) s =
    .next (ended { s with draws := (idfFormula s.draws p).2 }
      { Res.empty with word := some (diodeFormula s.par.typeIds.diode (diodeFields p (idfFormula s.draws p).1)) })) ∧
  Config.params.typeIds.diode = 28

/-- R168, R169: ENCRS on every operand, under the instance's `TYPE_ID`; at the default table the identifier is 29
(R101). The default table is general knowledge in the spec itself (assumption 9). -/
def Obligations.EncrsWritesTheResistorWord : Prop :=
  (∀ (s : State) b, exec (.encrs b) s =
    .next (ended { s with draws := (fieldFormula s.draws b 10 27).2 }
      { Res.empty with word := some (senseFormula s.par.typeIds.sense (fieldFormula s.draws b 10 27).1) })) ∧
  Config.params.typeIds.sense = 29

/-- R27, R244, R250: an illegal operand ends the operation with ConfigRejected before any bus activity; only `code` is
defined and nothing else changes. -/
def Obligations.IllegalOperandsAreRejected : Prop :=
  (∀ (s : State) (ch : BitVec 5), (ch = 0 ∨ 21 ≤ ch.toNat) →
    ∀ i ∈ [Instr.chmap ch, .start ch, .rdtemp ch], exec i s = .next (raised s 4 none)) ∧
  (∀ (s : State) (ch : BitVec 5), (ch = 0 ∨ 21 ≤ ch.toNat) → ∀ sub tc rtd dio b n,
    ∀ i ∈ [Instr.cfgtc ch sub tc, .cfgrtd ch sub rtd, .cfgdio ch dio, .cfgrs ch b, .avg ch n],
      exec i s = .next (raised s 4 none)) ∧
  (∀ (s : State) ch sub (tc : TcFields), (21 ≤ tc.cj.toNat ∨ tc.oc = 1 ∨ tc.oc = 2 ∨ tc.oc = 3) →
    ∀ i ∈ [Instr.enctc sub tc, .cfgtc ch sub tc], exec i s = .next (raised s 4 none)) ∧
  (∀ (s : State) ch sub (rtd : RtdOperands),
    (rtd.rs = 0 ∨ rtd.rs = 1 ∨ 21 ≤ rtd.rs.toNat ∨ rtd.cur = 0 ∨ 9 ≤ rtd.cur.toNat) →
    ∀ i ∈ [Instr.encrtd sub rtd, .cfgrtd ch sub rtd], exec i s = .next (raised s 4 none)) ∧
  (∀ (s : State) addr (len : BitVec 3) wdata, 5 ≤ len.toNat →
    ∀ i ∈ [Instr.wrreg addr len wdata, .rdreg addr len], exec i s = .next (raised s 4 none))

/-- R170, R171: CFGTC on its legal operands: it begins with the word of ENCTC, and two steps on, when the transport has
answered `Ok`, one seven-byte frame has been sent and the word is the result. (Assumption 10 as for ENCTC.) -/
def Obligations.CfgtcWritesTheConfigurationRegister : Prop :=
  ∀ (s : State) ch sub p rx rest, 1 ≤ ch.toNat ∧ ch.toNat ≤ 20 → p.cj.toNat ≤ 20 → (p.oc = 0 ∨ 4 ≤ p.oc.toNat) →
    let word := tcFormula (s.par.typeIds.ofTc sub) p
    ∃ t, exec (.cfgtc ch sub p) { s with answers := .ok rx :: rest } = .next t ∧
      (∃ c : Fin 20, c.val + 1 = ch.toNat ∧
        t = begun { s with answers := .ok rx :: rest } (.cfg c) (.cfgWord word)) ∧
      Runs 2 t (ended (called s (cfgBytes ch.toNat word) rest) { Res.empty with word := some word })

/-- R170, R173: CFGRTD on its legal operands, in the same way; the word is that of ENCRTD, and channel 1 may be
configured. (Assumption 10 as for ENCRTD.) -/
def Obligations.CfgrtdWritesTheConfigurationRegister : Prop :=
  ∀ (s : State) ch sub p rx rest, 1 ≤ ch.toNat ∧ ch.toNat ≤ 20 → (2 ≤ p.rs.toNat ∧ p.rs.toNat ≤ 20) →
    (1 ≤ p.cur.toNat ∧ p.cur.toNat ≤ 8) →
    let word := rtdFormula (s.par.typeIds.ofRtd sub) (rtdTableFields s.par p)
    ∃ t, exec (.cfgrtd ch sub p) { s with answers := .ok rx :: rest } = .next t ∧
      (∃ c : Fin 20, c.val + 1 = ch.toNat ∧
        t = begun { s with answers := .ok rx :: rest } (.cfg c) (.cfgWord word)) ∧
      Runs 2 t (ended (called s (cfgBytes ch.toNat word) rest) { Res.empty with word := some word })

/-- R170, R174: CFGDIO on a legal channel, in the same way; the word is that of ENCDIO, free ideality field and all. -/
def Obligations.CfgdioWritesTheConfigurationRegister : Prop :=
  ∀ (s : State) ch p rx rest, 1 ≤ ch.toNat ∧ ch.toNat ≤ 20 →
    let word := diodeFormula s.par.typeIds.diode (diodeFields p (idfFormula s.draws p).1)
    ∃ t, exec (.cfgdio ch p) { s with answers := .ok rx :: rest } = .next t ∧
      (∃ c : Fin 20, c.val + 1 = ch.toNat ∧
        t = begun { s with answers := .ok rx :: rest, draws := (idfFormula s.draws p).2 } (.cfg c) (.cfgWord word)) ∧
      Runs 2 t (ended (called { s with draws := (idfFormula s.draws p).2 } (cfgBytes ch.toNat word) rest)
        { Res.empty with word := some word })

/-- R170, R175: CFGRS on a legal channel, in the same way; the word is that of ENCRS. -/
def Obligations.CfgrsWritesTheConfigurationRegister : Prop :=
  ∀ (s : State) ch b rx rest, 1 ≤ ch.toNat ∧ ch.toNat ≤ 20 →
    let word := senseFormula s.par.typeIds.sense (fieldFormula s.draws b 10 27).1
    ∃ t, exec (.cfgrs ch b) { s with answers := .ok rx :: rest } = .next t ∧
      (∃ c : Fin 20, c.val + 1 = ch.toNat ∧
        t = begun { s with answers := .ok rx :: rest, draws := (fieldFormula s.draws b 10 27).2 } (.cfg c)
          (.cfgWord word)) ∧
      Runs 2 t (ended (called { s with draws := (fieldFormula s.draws b 10 27).2 } (cfgBytes ch.toNat word) rest)
        { Res.empty with word := some word })

/-! ## The framer -/

/-- R193: WRREG sends the first `len` bytes of `wdata` and changes neither PHASE nor SEL, whatever the address. -/
def Obligations.WrregSendsItsBytes : Prop :=
  ∀ (s : State) (addr : Addr) (len : BitVec 3) (wdata : Word) rx rest, len.toNat ≤ 4 →
    let frame : List Byte := [0x02, addr.extractLsb' 8 8, addr.extractLsb' 0 8] ++
      [wdata.extractLsb' 24 8, wdata.extractLsb' 16 8, wdata.extractLsb' 8 8, wdata.extractLsb' 0 8].take len.toNat
    ∃ t, exec (.wrreg addr len wdata) { s with answers := .ok rx :: rest } = .next t ∧
      t = begun { s with answers := .ok rx :: rest } .wrreg (.frame frame) ∧
      Runs 1 t (ended (called s frame rest) Res.empty)

/-- R194, R195: RDREG sends `len` zero bytes and returns the `len` data bytes left-aligned, the rest of `rdata` 0; it
changes neither PHASE nor SEL, whatever the address. -/
def Obligations.RdregReturnsLeftAlignedData : Prop :=
  ∀ (s : State) (addr : Addr) (len : BitVec 3) rx rest, len.toNat ≤ 4 →
    let frame : List Byte := [0x03, addr.extractLsb' 8 8, addr.extractLsb' 0 8] ++ List.replicate len.toNat 0x00
    let drop := 8 * (4 - len.toNat)
    let data : Word := rx.d0 ++ rx.d1 ++ rx.d2 ++ rx.d3
    ∃ t, exec (.rdreg addr len) { s with answers := .ok rx :: rest } = .next t ∧
      t = begun { s with answers := .ok rx :: rest } .rdreg (.frame frame) ∧
      Runs 1 t (ended (called s frame rest)
        { Res.empty with rdata := some (data >>> drop <<< drop), rlen := some len })

/-! ## Conversions -/

/-- R202, R203: START on a legal channel: one frame, then CONVERTING with SEL the channel. Where the frame fails, PHASE
and SEL are unchanged. -/
def Obligations.StartConvertsTheChannel : Prop :=
  (∀ (s : State) ch rx rest, 1 ≤ ch.toNat ∧ ch.toNat ≤ 20 →
    ∃ t, exec (.start ch) { s with answers := .ok rx :: rest } = .next t ∧
      t = begun { s with answers := .ok rx :: rest } .start (.frame (startBytes ch)) ∧
      Runs 1 t (ended { called s (startBytes ch) rest with phase := 1, sel := ch } Res.empty)) ∧
  (∀ (s : State) ch e rest, 1 ≤ ch.toNat ∧ ch.toNat ≤ 20 → e < 2 ^ s.par.terrW →
    ∃ t, exec (.start ch) { s with answers := .err e :: rest } = .next t ∧
      Runs 1 t (raised (called s (startBytes ch) rest) 1 (some e)))

/-- R204, R205: STARTM on every set: the mask frame, then the start frame with channel field 0, then CONVERTING with
SEL 0. Where the first frame fails, the second is not sent; where the second fails, the mask has been sent. In both
cases PHASE and SEL are unchanged (R201). -/
def Obligations.StartmSendsMaskThenStart : Prop :=
  (∀ (s : State) chset rx rx' rest,
    ∃ t, exec (.startm chset) { s with answers := .ok rx :: .ok rx' :: rest } = .next t ∧
      t = begun { s with answers := .ok rx :: .ok rx' :: rest } .startm (.frame (maskBytes chset)) ∧
      Runs 2 t (ended
        { called (called s (maskBytes chset) rest) (startBytes 0) rest with phase := 1, sel := 0 } Res.empty)) ∧
  (∀ (s : State) chset rx e rest, e < 2 ^ s.par.terrW →
    ∃ t, exec (.startm chset) { s with answers := .ok rx :: .err e :: rest } = .next t ∧
      Runs 2 t (raised (called (called s (maskBytes chset) rest) (startBytes 0) rest) 1 (some e))) ∧
  (∀ (s : State) chset e rest, e < 2 ^ s.par.terrW →
    ∃ t, exec (.startm chset) { s with answers := .err e :: rest } = .next t ∧
      Runs 1 t (raised (called s (maskBytes chset) rest) 1 (some e)))

/-- R206, R207: STATUS: one four-byte frame; the snapshot of the received byte; DONE from CONVERTING when it shows
done. -/
def Obligations.StatusReportsOneSnapshot : Prop :=
  ∀ (s : State) rx rest,
    ∃ t, exec .status { s with answers := .ok rx :: rest } = .next t ∧
      t = begun { s with answers := .ok rx :: rest } .status (.frame statusBytes) ∧
      Runs 2 t (ended
        { called s statusBytes rest with phase := phaseAfterStatus s.phase (rx.d0.getLsbD 6) }
        { Res.empty with
          stStart := some (rx.d0.extractLsb' 7 1), stDone := some (rx.d0.extractLsb' 6 1)
          stChsel := some (rx.d0.extractLsb' 0 5) })

/-- R208, R210: RDTEMP on a legal channel: one seven-byte frame; the classified result of the received bytes. -/
def Obligations.RdtempClassifiesTheResult : Prop :=
  ∀ (s : State) ch rx rest, 1 ≤ ch.toNat ∧ ch.toNat ≤ 20 →
    ∃ t, exec (.rdtemp ch) { s with answers := .ok rx :: rest } = .next t ∧
      t = begun { s with answers := .ok rx :: rest } .rdtemp (.frame (resultBytes ch.toNat)) ∧
      Runs 2 t (ended (called s (resultBytes ch.toNat) rest) (resultFormula rx.d0 (rawOf rx)))

/-- R211: RDTEMPM on every set, with the transport answering `Ok` at every member: one result read per member,
ascending; one classified entry per member, none outside the set; nothing else of the block changes, but for the
readings it keeps between its steps. The empty set sends nothing. -/
def Obligations.RdtempmReadsTheMembersAscending : Prop :=
  ∀ (s : State) (chset : ChSet) (rxs : Fin 20 → Rx) rest,
    let mem := (List.finRange 20).filter fun c => chset.getLsbD c.val
    let entry := fun (c : Fin 20) => resultFormula (rxs c).d0 (rawOf (rxs c))
    let s' : State := { s with answers := (mem.map fun c => Answer.ok (rxs c)) ++ rest }
    ∃ t rd, exec (.rdtempm chset) s' = .next t ∧
      (∀ c, mem.head? = some c → t = begun s' (.rdtempm chset) (.frame (resultBytes (c.val + 1)))) ∧
      Runs (2 * mem.length) t (ended
        { s with
          answers := rest, readings := rd, trace := s.trace ++ mem.map (fun c => resultBytes (c.val + 1)) }
        { Res.empty with
          mtag := Vector.ofFn fun c => if chset.getLsbD c.val then (entry c).tag else none
          merr := Vector.ofFn fun c => if chset.getLsbD c.val then (entry c).err else none
          mq := Vector.ofFn fun c => if chset.getLsbD c.val then (entry c).q else none
          mf := Vector.ofFn fun c => if chset.getLsbD c.val then (entry c).f else none })

/-! ## Averaging -/

/-- R227: AVG and AVGM with `target = 0` send no frame and complete at once with sum 0 and count 0; the mean is the next
free value `draw(32)`, and PHASE and SEL are unchanged. How free values are numbered and counted (assumption 13), that
each member of AVGM has its own (assumption 14), and that POLLS is cleared and only the channel's or the members' SUM
(assumption 15), is the model's. -/
def Obligations.AveragingZeroRoundsSendsNothing : Prop :=
  (∀ (s : State) ch, 1 ≤ ch.toNat ∧ ch.toNat ≤ 20 → ∃ c : Fin 20, c.val + 1 = ch.toNat ∧
    exec (.avg ch 0) s = .next (ended
      { s with sum := s.sum.set c 0, cnt := 0, rnd := 0, polls := 0, draws := s.draws + 1 }
      { Res.empty with sum := some 0, cnt := some 0, meanF := some (Config.draw s.draws) })) ∧
  (∀ (s : State) (chset : ChSet),
    exec (.avgm chset 0) s = .next (ended
      { s with
        sum := Vector.ofFn fun c => if chset.getLsbD c.val then 0 else s.sum[c]
        cnt := 0, rnd := 0, polls := 0, draws := s.draws + 20 }
      { Res.empty with
        cnt := some 0
        msum := Vector.ofFn fun c => if chset.getLsbD c.val then some 0 else none
        mmean := Vector.ofFn fun c => if chset.getLsbD c.val then some (Config.draw (s.draws + c.val)) else none }))

/-- R225, R230, R224: with `target` not 0 and a round bound that allows a round, AVG and AVGM clear working registers
and begin round 1: AVG with its start frame, AVGM with its mask frame. AVGM with `MROUND_MAX = 0` ends with
AverageUnattainable before round 1 and sends nothing. That POLLS is cleared here and only the channel's or the members'
SUM is read from R23, R225 and R230 together (assumption 15). -/
def Obligations.AveragingBeginsItsFirstRound : Prop :=
  (∀ (s : State) ch n, 1 ≤ ch.toNat ∧ ch.toNat ≤ 20 → n ≠ 0 → s.par.roundMax ≠ 0 →
    ∃ c : Fin 20, c.val + 1 = ch.toNat ∧ exec (.avg ch n) s =
      .next (begun { s with sum := s.sum.set c 0, cnt := 0, rnd := 1, polls := 0 } (.avg c n)
        (.frame (startBytes ch)))) ∧
  (∀ (s : State) (chset : ChSet) n, n ≠ 0 →
    let cleared := Vector.ofFn fun c : Fin 20 => if chset.getLsbD c.val then 0 else s.sum[c]
    (s.par.mroundMax ≠ some 0 → exec (.avgm chset n) s =
      .next (begun { s with sum := cleared, cnt := 0, rnd := 1, polls := 0 } (.avgm chset n)
        (.frame (maskBytes chset)))) ∧
    (s.par.mroundMax = some 0 → exec (.avgm chset n) s =
      .next (raised { s with sum := cleared, cnt := 0, rnd := 0, polls := 0 } 3 none)))

/-- R222, R223: one poll of AVG, and of AVGM over a set with a member: the poll is counted, PHASE follows the snapshot,
and the loop ends when done is seen or the bound is reached; the result is then read in both cases. -/
def Obligations.PollLoopEndsAtDoneOrAtItsBound : Prop :=
  (∀ (s : State) c n a d u h, exec (.statusByte a d u h) { s with job := .avg c n } =
    .next { s with
      job := .avg c n, polls := s.polls + 1, phase := phaseAfterStatus s.phase (d == 1)
      pending := if d = 1 ∨ s.polls + 1 = s.par.pollMax then .frame (resultBytes (c.val + 1))
        else .frame statusBytes }) ∧
  (∀ (s : State) (chset : ChSet) n a d u h (c : Fin 20), chset.getLsbD c.val = true →
    (∀ m : Fin 20, m < c → chset.getLsbD m.val = false) →
    exec (.statusByte a d u h) { s with job := .avgm chset n } =
    .next { s with
      job := .avgm chset n, polls := s.polls + 1, phase := phaseAfterStatus s.phase (d == 1)
      pending := if d = 1 ∨ s.par.mpollMax = some (s.polls + 1) then .frame (resultBytes (c.val + 1))
        else .frame statusBytes })

/-- R220, R221, R224, R225, R226: the end of a round of AVG. Only a VALID reading is added and counted; then the
operation completes when CNT has reached `target`, ends with AverageUnattainable when `ROUND_MAX` rounds have begun,
and else begins a further round. -/
def Obligations.AvgRoundCountsOnlyValidReadings : Prop :=
  ∀ (s : State) (c : Fin 20) n err raw, n ≠ 0 →
    let s' : State := { s with job := .avg c n }
    let s'' : State := if err = 0x01 then
      { s' with sum := s'.sum.set c (BitVec.ofInt 40 (s'.sum[c].toInt + raw.toInt)), cnt := s'.cnt + 1 } else s'
    exec (.resultWord err raw) s' = .next (
      if n.toNat ≤ s''.cnt.toNat then
        ended s'' { Res.empty with
          sum := some s''.sum[c], cnt := some s''.cnt, meanF := some (rne32 s''.sum[c].toInt (1024 * n.toNat)) }
      else if s.rnd = s.par.roundMax then raised s'' 3 none
      else { s'' with rnd := s.rnd + 1, pending := .frame (startBytes (BitVec.ofNat 5 (c.val + 1))) })

/-- R230, R232: the results of a round of AVGM. At a member that is not the last its reading is kept, whatever its tag,
and the next member's result is read. At the last member the round is added for every member when every member's reading
is VALID, and for none otherwise; no other sum changes. (Where the readings are kept between steps is the model's:
assumption 18.) -/
def Obligations.AvgmRoundCountsForAllOrNone : Prop :=
  (∀ (s : State) (chset : ChSet) (c d : Fin 20) w n err raw, c < d → chset.getLsbD d.val = true →
    (∀ m : Fin 20, c < m → m < d → chset.getLsbD m.val = false) →
    exec (.resultWord err raw) { s with job := .avgm chset n, pending := .resultWord c w } = .next
      { s with
        job := .avgm chset n, readings := s.readings.set c { err := err, raw := raw }
        pending := .frame (resultBytes (d.val + 1)) }) ∧
  (∀ (s : State) (chset : ChSet) (c : Fin 20) w n err raw, n ≠ 0 → chset.getLsbD c.val = true →
    (∀ m : Fin 20, c < m → chset.getLsbD m.val = false) →
    let rd := s.readings.set c { err := err, raw := raw }
    let s' : State := { s with job := .avgm chset n, pending := .resultWord c w }
    let s'' : State := if ∀ m : Fin 20, chset.getLsbD m.val = true → rd[m].err = 0x01 then
      { s' with
        readings := rd, cnt := s.cnt + 1
        sum := Vector.ofFn fun m =>
          if chset.getLsbD m.val then BitVec.ofInt 40 (s.sum[m].toInt + rd[m].raw.toInt) else s.sum[m] }
      else { s' with readings := rd }
    exec (.resultWord err raw) s' = .next (
      if n.toNat ≤ s''.cnt.toNat then
        ended s'' { Res.empty with
          cnt := some s''.cnt
          msum := Vector.ofFn fun m => if chset.getLsbD m.val then some s''.sum[m] else none
          mmean := Vector.ofFn fun m =>
            if chset.getLsbD m.val then some (rne32 s''.sum[m].toInt (1024 * n.toNat)) else none }
      else if s.par.mroundMax = some s.rnd then raised s'' 3 none
      else { s'' with rnd := s.rnd + 1, pending := .frame (maskBytes chset) }))

/-- R231, R222, R223: AVGM on the empty set, at a poll. The poll is counted and PHASE follows the snapshot. Where done
is seen or `MPOLL_MAX` polls are made, no result is read and the round counts; else the status is read again. -/
def Obligations.AvgmEmptySetCountsEveryRound : Prop :=
  ∀ (s : State) n a d u h, n ≠ 0 → exec (.statusByte a d u h) { s with job := .avgm 0 n } =
    .next (
      let polled : State :=
        { s with job := .avgm 0 n, polls := s.polls + 1, phase := phaseAfterStatus s.phase (d == 1) }
      let counted : State := { polled with cnt := s.cnt + 1 }
      if d = 1 ∨ s.par.mpollMax = some (s.polls + 1) then
        if n.toNat ≤ counted.cnt.toNat then ended counted { Res.empty with cnt := some counted.cnt }
        else if s.par.mroundMax = some s.rnd then raised counted 3 none
        else { counted with rnd := s.rnd + 1, pending := .frame (maskBytes 0) }
      else { polled with pending := .frame statusBytes })

/-- R225, R226: on a script of rounds whose first poll shows done, of which exactly `target` are VALID, the last among
them, AVG consumes exactly these rounds and completes with the sum, the count and the mean of only the VALID values. -/
def Obligations.AvgConsumesExactlyTheRoundsNeeded : Prop :=
  ∀ (s : State) ch n (rounds : List Round) (last : Round) rest, 1 ≤ ch.toNat ∧ ch.toNat ≤ 20 →
    (∀ r ∈ rounds ++ [last], r.done = true) → last.err = 0x01 →
    (validRounds (rounds ++ [last])).length = n.toNat → rounds.length + 1 ≤ s.par.roundMax →
    ∃ t u, exec (.avg ch n) { s with answers := scriptAnswers (rounds ++ [last]) ++ rest } = .next t ∧
      Runs (5 * (rounds.length + 1)) t u ∧ u.busy = false ∧ u.answers = rest ∧ u.phase = 2 ∧ u.sel = ch ∧
      u.trace = s.trace ++ (List.replicate (rounds.length + 1) (roundFrames ch)).flatten ∧
      u.res = { Res.empty with
        code := some 0, cnt := some n
        sum := some (BitVec.ofInt 40 (sumOf (validRounds (rounds ++ [last]))))
        meanF := some (rne32 (sumOf (validRounds (rounds ++ [last]))) (1024 * n.toNat)) }

/-- R224, R243: on a script of exactly `ROUND_MAX` such rounds of which fewer than `target` are VALID, AVG ends with
AverageUnattainable after them and begins no further round. -/
def Obligations.AvgEndsUnattainableAtItsRoundBound : Prop :=
  ∀ (s : State) ch n (rounds : List Round) rest, 1 ≤ ch.toNat ∧ ch.toNat ≤ 20 → (∀ r ∈ rounds, r.done = true) →
    (validRounds rounds).length < n.toNat → rounds.length = s.par.roundMax →
    ∃ t u, exec (.avg ch n) { s with answers := scriptAnswers rounds ++ rest } = .next t ∧
      Runs (5 * rounds.length) t u ∧ u.busy = false ∧ u.answers = rest ∧
      u.trace = s.trace ++ (List.replicate rounds.length (roundFrames ch)).flatten ∧
      u.res = { Res.empty with code := some 3 }

/-- R233: AVG always ends once the transport has answered every call it can make: at most `ROUND_MAX` rounds of at most
`POLL_MAX + 2` transactions. The answers are free. -/
def Obligations.AvgAlwaysEnds : Prop :=
  ∀ (s : State) ch n, 1 ≤ s.par.pollMax → s.par.roundMax * (s.par.pollMax + 2) ≤ s.answers.length →
    ∃ t, exec (.avg ch n) s = .next t ∧ ∃ k u, Runs k t u ∧ u.busy = false ∧
      u.trace.length ≤ s.trace.length + s.par.roundMax * (s.par.pollMax + 2)

/-- R233, R284: with `MPOLL_MAX = INF`, AVGM at its poll loop never ends while no status read shows done: after any
number of steps BUSY is still 1. -/
def Obligations.AvgmPollsForEverWithoutDone : Prop :=
  ∀ (s : State) chset n, s.busy = true → s.job = .avgm chset n → s.pending = .frame statusBytes →
    s.par.mpollMax = none → (∀ a ∈ s.answers, ∃ rx, a = .ok rx ∧ rx.d0.getLsbD 6 = false) →
    ∀ k, ∃ t, Runs k s t ∧ t.busy = true

/-- R226, R13: the mean is a binary32 nearest the exact rational: no finite binary32 is nearer, and on a tie its
fraction is even; a zero sum gives plus zero. -/
def Obligations.MeanIsTheNearestFloat : Prop :=
  (∀ (p : Int) (d : Nat), 0 < d → p.natAbs ≤ 8192 * d →
    f32Finite (rne32 p d) = true ∧
    ∀ b, f32Finite b = true →
      |f32Val (rne32 p d) - (p : ℚ) / d| ≤ |f32Val b - (p : ℚ) / d| ∧
      (|f32Val (rne32 p d) - (p : ℚ) / d| = |f32Val b - (p : ℚ) / d| → f32Val b ≠ f32Val (rne32 p d) →
        (rne32 p d).getLsbD 0 = false)) ∧
  (∀ d, rne32 0 d = 0)

/-! ## The rows of the wire, of the data read, and of the configuration words -/

/-- R91, R92, R191 to R195: the two general frames, inside the WRREG or RDREG that sends them. -/
def Obligations.GeneralFramesAreOneTransaction : Prop :=
  (∀ (s : State) (addr : Addr) payload rx rest,
    exec (.wWrite addr payload) { s with job := .wrreg, answers := .ok rx :: rest } =
      .next (ended (called s (0x02 :: addr.extractLsb' 8 8 :: addr.extractLsb' 0 8 :: payload) rest) Res.empty)) ∧
  (∀ (s : State) (addr : Addr) (n : BitVec 3) rx rest, n.toNat ≤ 4 →
    let drop := 8 * (4 - n.toNat)
    let data : Word := rx.d0 ++ rx.d1 ++ rx.d2 ++ rx.d3
    exec (.wRead addr n) { s with job := .rdreg, answers := .ok rx :: rest } =
      .next (ended
        (called s (0x03 :: addr.extractLsb' 8 8 :: addr.extractLsb' 0 8 :: List.replicate n.toNat 0x00) rest)
        { Res.empty with rdata := some (data >>> drop <<< drop), rlen := some n }))

/-- R95, R98, R170, R202, R204: the write frames of the orchestrator and of a configuration write, each inside the
operations whose step it is: the state after the transport's `Ok`. -/
def Obligations.WriteFramesAdvanceTheirOperation : Prop :=
  (∀ (s : State) c rx rest, ∀ job ∈ [Job.start, .startm],
    exec (.fStart c) { s with job := job, answers := .ok rx :: rest } =
      .next (ended { called s (startBytes c) rest with phase := 1, sel := c } Res.empty)) ∧
  (∀ (s : State) c d chset n rx rest, ∀ job ∈ [Job.avg d n, .avgm chset n],
    exec (.fStart c) { s with job := job, answers := .ok rx :: rest } =
      .next { called s (startBytes c) rest with
        job := job, phase := 1, sel := c, polls := 0, pending := .frame statusBytes }) ∧
  (∀ (s : State) m chset n rx rest, ∀ job ∈ [Job.startm, .avgm chset n],
    exec (.fMask m) { s with job := job, answers := .ok rx :: rest } =
      .next { called s (maskBytes m) rest with job := job, pending := .frame (startBytes 0) }) ∧
  (∀ (s : State) (c : Fin 20) (a : BitVec 5) w rx rest, a.toNat ≤ 19 →
    exec (.fCfg a w) { s with job := .cfg c, answers := .ok rx :: rest } =
      .next (ended (called s (cfgBytes (a.toNat + 1) w) rest) { Res.empty with word := some w }))

/-- R206, R208: the read frames of the orchestrator, inside the operations whose step they are: what the transport
returned is the next thing decoded. -/
def Obligations.ReadFramesBringTheirData : Prop :=
  (∀ (s : State) d chset n rx rest, ∀ job ∈ [Job.status, .avg d n, .avgm chset n],
    exec .fStatusRd { s with job := job, answers := .ok rx :: rest } =
      .next { called s statusBytes rest with job := job, pending := .statusByte rx.d0 }) ∧
  (∀ (s : State) (a : BitVec 5) d chset n rx rest, 4 ≤ a.toNat ∧ a.toNat ≤ 23 →
    ∃ c : Fin 20, c.val + 4 = a.toNat ∧ ∀ job ∈ [Job.rdtemp, .rdtempm chset, .avg d n, .avgm chset n],
      exec (.fResultRd a) { s with job := job, answers := .ok rx :: rest } =
        .next { called s (resultBytes (a.toNat - 3)) rest with
          job := job, pending := .resultWord c (rx.d0 ++ rx.d1 ++ rx.d2 ++ rx.d3) })

/-- R96, R97, R206, R207, R210: the data rows inside STATUS and RDTEMP: bit 5 of the status byte is ignored, and the
result word is classified. -/
def Obligations.DataRowsAreDecoded : Prop :=
  (∀ (s : State) a d u h, exec (.statusByte a d u h) { s with job := .status } =
    .next (ended { s with phase := phaseAfterStatus s.phase (d == 1) }
      { Res.empty with stStart := some a, stDone := some d, stChsel := some h })) ∧
  (∀ (s : State) err raw,
    exec (.resultWord err raw) { s with job := .rdtemp } = .next (ended s (resultFormula err raw)))

/-- R161, R165, R167, R168, R170: every configuration word row, inside a CFG operation on a channel: the fields are
packed under the type identifier `TYPE_ID` gives the row and the frame that writes the word is the next step. Layouts as
in assumption 10. -/
def Obligations.ConfigurationRowsFrameTheirWord : Prop :=
  ∀ (s : State) (c : Fin 20) (tc : TcFields) (rtd : RtdFields) (dio : DiodeFields) (rq : BitVec 27),
    let ids := s.par.typeIds
    ∀ row ∈ [(Instr.cfgwordTcJ tc, tcFormula (ids.ofTc 0) tc), (.cfgwordTcK tc, tcFormula (ids.ofTc 1) tc),
        (.cfgwordTcE tc, tcFormula (ids.ofTc 2) tc), (.cfgwordTcN tc, tcFormula (ids.ofTc 3) tc),
        (.cfgwordTcR tc, tcFormula (ids.ofTc 4) tc), (.cfgwordTcS tc, tcFormula (ids.ofTc 5) tc),
        (.cfgwordTcT tc, tcFormula (ids.ofTc 6) tc), (.cfgwordTcB tc, tcFormula (ids.ofTc 7) tc),
        (.cfgwordRtdPt10 rtd, rtdFormula (ids.ofRtd 0) rtd), (.cfgwordRtdPt50 rtd, rtdFormula (ids.ofRtd 1) rtd),
        (.cfgwordRtdPt100 rtd, rtdFormula (ids.ofRtd 2) rtd), (.cfgwordRtdPt200 rtd, rtdFormula (ids.ofRtd 3) rtd),
        (.cfgwordRtdPt500 rtd, rtdFormula (ids.ofRtd 4) rtd), (.cfgwordRtdPt1000 rtd, rtdFormula (ids.ofRtd 5) rtd),
        (.cfgwordRtd1000Ohm rtd, rtdFormula (ids.ofRtd 6) rtd), (.cfgwordRtdNi120 rtd, rtdFormula (ids.ofRtd 7) rtd),
        (.cfgwordDiode dio, diodeFormula ids.diode dio), (.cfgwordSense rq, senseFormula ids.sense rq)],
      exec row.1 { s with job := .cfg c } =
        .next { s with job := .cfg c, pending := .frame (cfgBytes (c.val + 1) row.2) }
end

