-- ==== Sys2Proof/Laws/Encoding.lean ====
section
/-! SUPPORT. The field packer on the layouts the block uses (R90): a packed word is the concatenation of its fields,
most significant first, and the frame builders' bytes. -/

namespace Sys2Proof.Laws

/-- Concatenation adds: the number of `x ++ y` is that of `x` shifted over `y`. -/
theorem toNat_append_add {m n : Nat} (x : BitVec m) (y : BitVec n) :
    (x ++ y).toNat = x.toNat * 2 ^ n + y.toNat := by
  rw [BitVec.toNat_append, ← Nat.shiftLeft_add_eq_or_of_lt y.isLt, Nat.shiftLeft_eq]

/-- A field's value is already reduced to its width. -/
theorem toNat_mod_two_pow {n : Nat} (x : BitVec n) : x.toNat % 2 ^ n = x.toNat := Nat.mod_eq_of_lt x.isLt

/-- The thermocouple word of R161 as a concatenation. -/
theorem tcWord_eq_append (t : BitVec 5) (f : TcFields) :
    tcWord t f = t ++ f.cj ++ f.sgl ++ f.oc ++ 0#6 ++ f.cptr := by
  apply BitVec.eq_of_toNat_eq
  have h1 := t.isLt; have h2 := f.cj.isLt; have h3 := f.sgl.isLt; have h4 := f.oc.isLt; have h5 := f.cptr.isLt
  simp only [tcWord, packWord, packBits, List.foldl, toNat_mod_two_pow, toNat_append_add, BitVec.toNat_ofNat]
  omega

/-- The RTD word of R165 as a concatenation. -/
theorem rtdWord_eq_append (t : BitVec 5) (f : RtdFields) :
    rtdWord t f = t ++ f.rs ++ f.wires ++ f.exc ++ f.cur ++ f.curve ++ f.cptr := by
  apply BitVec.eq_of_toNat_eq
  have h1 := t.isLt; have h2 := f.rs.isLt; have h3 := f.wires.isLt; have h4 := f.exc.isLt; have h5 := f.cur.isLt
  have h6 := f.curve.isLt; have h7 := f.cptr.isLt
  simp only [rtdWord, packWord, packBits, List.foldl, toNat_mod_two_pow, toNat_append_add, BitVec.toNat_ofNat]
  omega

/-- The diode word of R167 as a concatenation. -/
theorem diodeWord_eq_append (t : BitVec 5) (f : DiodeFields) :
    diodeWord t f = t ++ f.sgl ++ f.rd3 ++ f.avg ++ f.dcur ++ f.idf := by
  apply BitVec.eq_of_toNat_eq
  have h1 := t.isLt; have h2 := f.sgl.isLt; have h3 := f.rd3.isLt; have h4 := f.avg.isLt; have h5 := f.dcur.isLt
  have h6 := f.idf.isLt
  simp only [diodeWord, packWord, packBits, List.foldl, toNat_mod_two_pow, toNat_append_add, BitVec.toNat_ofNat]
  omega

/-- The sense-resistor word of R168 as a concatenation. -/
theorem senseWord_eq_append (t : BitVec 5) (rq : BitVec 27) : senseWord t rq = t ++ rq := by
  apply BitVec.eq_of_toNat_eq
  have h1 := t.isLt; have h2 := rq.isLt
  simp only [senseWord, packWord, packBits, List.foldl, toNat_mod_two_pow, toNat_append_add, BitVec.toNat_ofNat]
  omega

/-- The start command's bytes (R95). -/
theorem startFrame_eq (c : BitVec 5) : startFrame c = [0x02, 0x00, 0x00, (4#3 ++ c : BitVec 8)] := by
  have h : BitVec.ofNat 8 (packBits [(4, 3), (c.toNat, 5)] / 2 ^ (8 - 8 * (0 + 1))) = (4#3 ++ c : BitVec 8) := by
    apply BitVec.eq_of_toNat_eq
    have h1 := c.isLt
    simp only [packBits, List.foldl, toNat_append_add, BitVec.toNat_ofNat]
    omega
  simp only [startFrame, writeFrame, packBytes, packWidth, List.map, List.sum_cons, List.sum_nil]
  change (_ :: _ ++ [BitVec.ofNat 8 (packBits [(4, 3), (c.toNat, 5)] / 2 ^ (8 - 8 * (0 + 1)))]) = _
  rw [h]; rfl

/-- A byte of a packed 32-bit value is its slice. -/
theorem packByte32 (w : Word) (n : Nat) :
    BitVec.ofNat 8 (packBits [(w.toNat, 32)] / 2 ^ n) = w.extractLsb' n 8 := by
  apply BitVec.eq_of_toNat_eq
  have h1 := w.isLt
  simp only [packBits, List.foldl, BitVec.toNat_ofNat, BitVec.extractLsb'_toNat, Nat.shiftRight_eq_div_pow]
  rw [Nat.zero_mul, Nat.zero_add, Nat.mod_eq_of_lt h1]

/-- The four bytes of a packed 32-bit value are its big-endian bytes (R11). -/
theorem packBytes32 (w : Word) : packBytes [(w.toNat, 32)] = be32 w := by
  have h : List.range (packWidth [(w.toNat, 32)] / 8) = [0, 1, 2, 3] := by
    simp [packWidth]; decide
  rw [packBytes, h]
  simp only [List.map_cons, List.map_nil, packByte32, be32]
  simp [packWidth]

/-- The mask write's bytes (R98). -/
theorem maskFrame_eq (w : Word) : maskFrame w = [0x02, 0x00, 0xF4] ++ be32 w := by
  rw [maskFrame, packBytes32]; rfl

end Sys2Proof.Laws
end

