-- ==== Sys2Proof/Laws/Operands.lean ====
section
/-! SUPPORT. The codec, the channel map, the operand checks and the configuration words: each operation against the
formula of its rule. -/

open Sys2Proof.Machine

namespace Sys2Proof.Laws

/-- The encoders' domain is the finite values that are not below 0 (R131). -/
theorem encDomain_iff (b : Word) : encDomain b = true ↔ f32Finite b = true ∧ 0 ≤ f32Val b := by
  unfold encDomain f32Val
  have hp : (0:ℚ) < (2 : ℚ) ^ ((max (f32Exp b) 1 : ℤ) - 150) := by positivity
  rw [Bool.and_eq_true]
  refine and_congr_right fun _ => ?_
  cases h : b.getLsbD 31 with
  | false => simp; positivity
  | true =>
    simp only [Bool.not_true, Bool.false_or, beq_iff_eq, if_true]
    constructor
    · intro h0; rw [h0]; simp
    · intro h0
      by_contra hne
      have : (0:ℚ) < f32Sig b := by exact_mod_cast Nat.pos_of_ne_zero hne
      have := mul_pos this hp
      linarith

/-- The integer the encoders compute is the nearest one, half away from zero (R131). -/
theorem encInt_eq_floor (b : Word) (k : Nat) (h : encDomain b = true) :
    ((encInt b k : ℕ) : ℤ) = ⌊f32Val b * 2 ^ k + 1 / 2⌋ := by
  have hv : f32Val b = (f32Sig b : ℚ) * (2 : ℚ) ^ ((max (f32Exp b) 1 : ℤ) - 150) := by
    unfold f32Val
    cases h' : b.getLsbD 31 with
    | false => simp
    | true =>
      have : f32Sig b = 0 := by
        simp [encDomain] at h; rw [BitVec.getLsbD, ← BitVec.getLsbD] at h'; simp_all
      simp [this]
  rw [hv]
  symm
  rw [Int.floor_eq_iff]
  unfold encInt
  have hm : (max (f32Exp b) 1 : ℤ) = ((max (f32Exp b) 1 : ℕ) : ℤ) := by push_cast; rfl
  rw [hm]
  generalize max (f32Exp b) 1 = e
  generalize f32Sig b = m
  dsimp only
  have key : (m:ℚ) * 2 ^ ((e:ℤ) - 150) * 2 ^ k = m * 2 ^ (((e + k : ℕ):ℤ) - 150) := by
    rw [mul_assoc, ← zpow_natCast (2:ℚ) k, ← zpow_add₀ (by norm_num)]
    congr 2; push_cast; ring
  rw [key]
  split
  · rename_i hs
    have : (((e + k : ℕ):ℤ) - 150) = ((e + k - 150 : ℕ) : ℤ) := by omega
    rw [this, zpow_natCast]
    push_cast
    constructor <;> linarith
  · rename_i hs
    have : (((e + k : ℕ):ℤ) - 150) = -((150 - (e + k) : ℕ) : ℤ) := by omega
    rw [this, zpow_neg, zpow_natCast]
    obtain ⟨n, hn⟩ : ∃ n, 150 - (e + k) = n + 1 := ⟨150 - (e+k) - 1, by omega⟩
    rw [hn]
    simp only [Nat.add_sub_cancel]
    have hd := Nat.div_add_mod (m + 2 ^ n) (2 ^ (n+1))
    have hl := Nat.mod_lt (m + 2 ^ n) (show 0 < 2 ^ (n+1) by positivity)
    generalize (m + 2 ^ n) / 2 ^ (n+1) = q at *
    generalize (m + 2 ^ n) % 2 ^ (n+1) = r at *
    have hd' : ((2:ℚ) ^ (n+1)) * q + r = m + 2 ^ n := by exact_mod_cast hd
    have hl' : (r:ℚ) < 2 ^ (n+1) := by exact_mod_cast hl
    have hr0 : (0:ℚ) ≤ r := by positivity
    have hp : (0:ℚ) < 2 ^ (n+1) := by positivity
    have h2 : (1:ℚ) / 2 = 2 ^ n * (2 ^ (n+1))⁻¹ := by rw [pow_succ]; field_simp
    have : (m:ℚ) * (2 ^ (n+1))⁻¹ + 1/2 = q + r * (2 ^ (n+1))⁻¹ := by
      rw [h2]; field_simp; linarith
    rw [this]
    have h3 : (r:ℚ) * (2 ^ (n+1))⁻¹ < 1 := by rw [← div_eq_mul_inv, div_lt_one hp]; exact hl'
    have h4 : (0:ℚ) ≤ r * (2 ^ (n+1))⁻¹ := by positivity
    push_cast
    constructor <;> linarith

/-- Everything the encoding of one field can do: the encoded value, or a draw that is counted (R131 to R133). -/
theorem State.encField_eq (s : State) (b : Word) (k W : Nat) :
    s.encField b k W = ((fieldFormula s.draws b k W).1, { s with draws := (fieldFormula s.draws b k W).2 }) := by
  unfold State.encField encQ fieldFormula
  by_cases h : encDomain b = true
  · rw [if_pos h, if_pos ((encDomain_iff b).1 h), ← encInt_eq_floor b k h]; simp
  · rw [if_neg h, if_neg (fun h' => h ((encDomain_iff b).2 h'))]; rfl

/-- The ideality field of R167, with or without a factor. -/
theorem State.encIdf_eq (s : State) (p) :
    s.encIdf p = ((idfFormula s.draws p).1, { s with draws := (idfFormula s.draws p).2 }) := by
  unfold State.encIdf idfFormula
  split
  · exact State.encField_eq _ _ _ _
  · rfl

/-- The thermocouple word is the formula of R161. -/
theorem tcWord_eq_formula (t : BitVec 5) (f) : tcWord t f = tcFormula t f := by
  rw [tcWord_eq_append, tcFormula]
  apply BitVec.eq_of_getLsbD_eq
  intro i hi
  simp only [BitVec.getLsbD_append, BitVec.getLsbD_or, BitVec.getLsbD_shiftLeft, BitVec.getLsbD_setWidth]
  interval_cases i <;> simp

/-- The RTD word is the formula of R165. -/
theorem rtdWord_eq_formula (t : BitVec 5) (f) : rtdWord t f = rtdFormula t f := by
  rw [rtdWord_eq_append, rtdFormula]
  apply BitVec.eq_of_getLsbD_eq
  intro i hi
  simp only [BitVec.getLsbD_append, BitVec.getLsbD_or, BitVec.getLsbD_shiftLeft, BitVec.getLsbD_setWidth]
  interval_cases i <;> simp

/-- The diode word is the formula of R167. -/
theorem diodeWord_eq_formula (t : BitVec 5) (f) : diodeWord t f = diodeFormula t f := by
  rw [diodeWord_eq_append, diodeFormula]
  apply BitVec.eq_of_getLsbD_eq
  intro i hi
  simp only [BitVec.getLsbD_append, BitVec.getLsbD_or, BitVec.getLsbD_shiftLeft, BitVec.getLsbD_setWidth]
  interval_cases i <;> simp

/-- The sense-resistor word is the formula of R168. -/
theorem senseWord_eq_formula (t : BitVec 5) (f) : senseWord t f = senseFormula t f := by
  rw [senseWord_eq_append, senseFormula]
  apply BitVec.eq_of_getLsbD_eq
  intro i hi
  simp only [BitVec.getLsbD_append, BitVec.getLsbD_or, BitVec.getLsbD_shiftLeft, BitVec.getLsbD_setWidth]
  interval_cases i <;> simp

/-- EncTC is the formula of R161. -/
theorem encTc_eq_formula (par sub p) : encTc par sub p = tcFormula (par.typeIds.ofTc sub) p := tcWord_eq_formula _ _

/-- EncRTD is the formula of R165. -/
theorem encRtd_eq_formula (par sub p) :
    encRtd par sub p = rtdFormula (par.typeIds.ofRtd sub) (rtdTableFields par p) := rtdWord_eq_formula _ _

/-- EncDIO is the formula of R167. -/
theorem encDiode_eq_formula (par p idf) :
    encDiode par p idf = diodeFormula par.typeIds.diode (diodeFields p idf) := diodeWord_eq_formula _ _

/-- EncRS is the formula of R168. -/
theorem encSense_eq_formula (par rq) : encSense par rq = senseFormula par.typeIds.sense rq := senseWord_eq_formula _ _

/-- The checks of ENCTC are the legal sets of R26. -/
theorem tcLegal_iff (p : TcFields) : tcLegal p = true ↔ p.cj.toNat ≤ 20 ∧ (p.oc = 0 ∨ 4 ≤ p.oc.toNat) := by
  unfold tcLegal
  have : ∀ oc : BitVec 3, (!(oc == 1 || oc == 2 || oc == 3)) = true ↔ (oc = 0 ∨ 4 ≤ oc.toNat) := by decide
  rw [Bool.and_eq_true, decide_eq_true_iff, this]

/-- The checks of ENCRTD are the legal sets of R26. -/
theorem rtdLegal_iff (p : RtdOperands) :
    rtdLegal p = true ↔ (2 ≤ p.rs.toNat ∧ p.rs.toNat ≤ 20) ∧ (1 ≤ p.cur.toNat ∧ p.cur.toNat ≤ 8) := by
  unfold rtdLegal
  have h1 : ∀ rs : BitVec 5, (!(rs == 1) && !(rs == 0 || decide (20 < rs.toNat))) = true ↔ (2 ≤ rs.toNat ∧
    rs.toNat ≤ 20) := by decide
  have h2 : ∀ rs : BitVec 4, (!(rs == 0 || decide (8 < rs.toNat))) = true ↔ (1 ≤ rs.toNat ∧ rs.toNat ≤ 8) := by decide
  rw [Bool.and_eq_true, h1, h2]

/-- The tag is the one of the three cases of R140. -/
theorem classifyErr_eq_tagFormula (err : Byte) : classifyErr err = tagFormula err := by
  unfold classifyErr tagFormula tagValid tagInvalid tagSuspect
  by_cases h : err &&& 0x0E = 0 <;> simp

/-- The result fields of a reading (R141, R209). -/
theorem Reading.res_eq_formula (err raw) : (readingOf err raw).res = resultFormula err raw := by
  unfold resultFormula Reading.res readingOf Reading.q? Reading.f? Reading.tag; dsimp only
  have : (classifyErr err = tagInvalid) ↔ ¬ (err &&& 0x0E = 0) := by
    rw [classifyErr_eq_tagFormula]; unfold tagFormula tagInvalid
    by_cases h : err = 0x01
    · subst h; decide
    · simp only [h, if_false]; by_cases h0 : err &&& 0x0E = 0 <;> simp
  by_cases h : err &&& 0x0E = 0
  · rw [if_neg (by rw [this]; simpa using h), if_neg (by rw [this]; simpa using h), if_pos h, if_pos h];
    simp [classifyErr_eq_tagFormula, sext24]
  · rw [if_pos (by rw [this]; exact h), if_pos (by rw [this]; exact h), if_neg h, if_neg h];
    simp [classifyErr_eq_tagFormula]

/-- A reading is VALID exactly at error byte 0x01 (R140). -/
theorem readingOf_tag_valid_iff (e : Byte) : (readingOf e r).tag = tagValid ↔ e = 0x01 := by
  show classifyErr e = 1 ↔ e = 0x01
  rw [classifyErr_eq_tagFormula]; unfold tagFormula; by_cases h : e = 0x01
  · simp [h]
  · simp only [h, if_false]; split_ifs <;> simp

/-- A legal port code names its channel (R26). -/
theorem channelOfPort_of_legal (ch : BitVec 5) (h : 1 ≤ ch.toNat ∧ ch.toNat ≤ 20) :
    channelOfPort ch = some ⟨ch.toNat - 1, by omega⟩ := by simp [channelOfPort, h]

/-- An illegal port code names none (R27). -/
theorem channelOfPort_of_illegal (ch : BitVec 5) (h : ch = 0 ∨ 21 ≤ ch.toNat) : channelOfPort ch = none := by
  unfold channelOfPort; rw [dif_neg]; rcases h with rfl | h
  · simp
  · omega

/-- The channel of a legal port code has that number. -/
theorem channelNumber_of_port (ch : BitVec 5) (h : 1 ≤ ch.toNat ∧ ch.toNat ≤ 20) :
    channelNumber ⟨ch.toNat - 1, by omega⟩ = ch := by
  unfold channelNumber; dsimp only; rw [Nat.sub_add_cancel h.1]; simp

/-- The bits of an OR of selection bits. -/
theorem foldl_selBit_getLsbD (l : List Channel) (m : Word) (i : Nat) (hi : i < 32) :
    (l.foldl (fun m c => m ||| selBit c) m).getLsbD i = (m.getLsbD i || l.any (fun c => c.val == i)) := by
  induction l generalizing m with
  | nil => simp
  | cons c l ih =>
    rw [List.foldl_cons, ih, BitVec.getLsbD_or, List.any_cons]
    have : (selBit c).getLsbD i = (c.val == i) := by
      unfold selBit
      rw [BitVec.getLsbD_shiftLeft]
      rw [BitVec.getLsbD_one, Bool.eq_iff_iff]
      simp; omega
    rw [this, Bool.or_assoc]

/-- The mask of a set is its membership vector (R153). -/
theorem maskOf_eq_setWidth (chset : ChSet) : maskOf chset = chset.setWidth 32 := by
  apply BitVec.eq_of_getLsbD_eq
  intro i hi
  unfold maskOf
  rw [foldl_selBit_getLsbD _ _ _ hi, BitVec.getLsbD_setWidth]
  rw [show BitVec.getLsbD (0 : Word) i = false from BitVec.getLsbD_zero]; simp only [Bool.false_or, hi,
    decide_true, Bool.true_and]
  rw [Bool.eq_iff_iff, List.any_eq_true]
  simp only [members, List.mem_filter, List.mem_finRange, true_and, isMember, beq_iff_eq]
  constructor
  · rintro ⟨c, h1, rfl⟩; exact h1
  · intro h; exact ⟨⟨i, BitVec.lt_of_getLsbD h⟩, h, rfl⟩

/-- The members are in ascending order (R303). -/
theorem members_pairwise_lt (cs : ChSet) : (members cs).Pairwise (· < ·) := by
  unfold members
  exact (List.pairwise_lt_finRange 20).filter _

/-- The next member of a split member list. -/
theorem nextMember_of_split (cs : ChSet) (pre post : List Channel) (c : Channel) (h : members cs = pre ++ c :: post) :
    nextMember cs c = post.head? := by
  have hs := members_pairwise_lt cs
  rw [h] at hs
  unfold nextMember
  rw [h, List.find?_append, List.find?_cons]
  have h1 : pre.find? (fun d => decide (c < d)) = none := by
    rw [List.find?_eq_none]; intro x hx
    have := (List.pairwise_append.1 hs).2.2 x hx c (by simp)
    simp; exact le_of_lt this
  rw [h1]
  simp only [lt_irrefl, decide_false, Option.none_or]
  cases post with
  | nil => rfl
  | cons d post =>
    have : c < d := ((List.pairwise_cons.1 (List.pairwise_append.1 hs).2.1).1 d (by simp))
    rw [List.find?_cons]; simp [this]

/-- The next member is a member. -/
theorem nextMember_isMember (cs : ChSet) (c d) (h : nextMember cs c = some d) : isMember cs d = true := by
  unfold nextMember at h
  have := List.mem_of_find?_eq_some h
  simpa [members] using this

/-- The first member is a member. -/
theorem firstMember_isMember (cs : ChSet) (d) (h : firstMember cs = some d) : isMember cs d = true := by
  unfold firstMember at h
  have := List.mem_of_head? h
  simpa [members] using this

/-- The first index of a filtered range. -/
theorem finRange_filter_head (p : Fin 20 → Bool) (c : Fin 20) (h : p c = true) (hm : ∀ m < c, p m = false) :
    ((List.finRange 20).filter p).head? = some c := by
  rw [List.head?_filter, List.find?_eq_some_iff_getElem]
  refine ⟨h, c.val, by simp, by simp, ?_⟩
  intro j hj; rw [Bool.not_eq_true']; apply hm; rw [List.getElem_finRange]; simp; exact hj

/-- The first member is the lowest one. -/
theorem firstMember_eq (cs : ChSet) (c : Channel) (h : cs.getLsbD c.val = true)
    (hm : ∀ m : Fin 20, m < c → cs.getLsbD m.val = false) : firstMember cs = some c :=
  finRange_filter_head _ c h hm

/-- Above the highest member there is none. -/
theorem nextMember_eq_none (cs : ChSet) (c : Channel) (hm : ∀ m : Fin 20, c < m → cs.getLsbD m.val = false) :
    nextMember cs c = none := by
  unfold nextMember
  rw [List.find?_eq_none]
  intro d hd
  simp only [members, List.mem_filter, isMember] at hd
  simp only [decide_eq_true_iff]
  intro h; rw [hm d h] at hd; simp at hd

/-- One value per member, none outside the set. -/
theorem perMember_eq_ofFn {α} (cs : ChSet) (v : Channel → Option α) :
    perMember cs v = Vector.ofFn fun c => if cs.getLsbD c.val then v c else none := rfl

/-- Left-aligned placement as a shift (R195). -/
theorem placeRead_eq_shift (rx : Rx) (len : BitVec 3) (h : len.toNat ≤ 4) :
    placeRead rx.data len.toNat = (rx.d0 ++ rx.d1 ++ rx.d2 ++
      rx.d3 : Word) >>> (8 * (4 - len.toNat)) <<< (8 * (4 - len.toNat)) := by
  unfold placeRead Rx.data wordOfBytes
  generalize len.toNat = n at *
  apply BitVec.eq_of_getLsbD_eq; intro i hi
  simp only [BitVec.getLsbD_shiftLeft, BitVec.getLsbD_ushiftRight, BitVec.getLsbD_append]
  interval_cases n <;> interval_cases i <;> simp

/-- A sum within its bound is not narrowed (R23). -/
theorem toInt_ofInt_40 (x : Int) (h : x.natAbs ≤ 65535 * 2^23) : (BitVec.ofInt 40 x).toInt = x := by
  rw [BitVec.toInt_ofInt, Int.bmod_def]; split <;> omega

/-- The magnitude of a raw value (R135). -/
theorem sext24_natAbs_le (r : BitVec 24) : (sext24 r).natAbs ≤ 2^23 := by
  unfold sext24; have := @BitVec.toInt_lt 24 r; have := @BitVec.le_toInt 24 r; norm_num at *; omega

/-- One reading more keeps a sum within its bound (R23, R221). -/
theorem addReading_natAbs_le (v : BitVec 40) (r : BitVec 24) (n : Nat) (hn : n < 65535)
    (h : v.toInt.natAbs ≤ n * 2^23) : (addReading v r).toInt.natAbs ≤ (n+1) * 2^23 := by
  have hr := sext24_natAbs_le r
  unfold addReading
  rw [toInt_ofInt_40 _ (by omega)]; omega

end Sys2Proof.Laws
end

