-- ==== Sys2Proof/Laws/Frames.lean ====
section
/-! SUPPORT. The frames as bytes, and how the frames and words the block builds decode. -/

open Sys2Proof.Machine

namespace Sys2Proof.Laws

/-- The start command's byte (R95). -/
theorem startByte_eq (c : BitVec 5) : (4#3 ++ c : BitVec 8) = 0x80 ||| c.setWidth 8 := by revert c; decide

/-- The start command's bytes (R95). -/
theorem startFrame_eq_bytes (c : BitVec 5) : startFrame c = startBytes c := by
  rw [startFrame_eq, startBytes, startByte_eq]

/-- The status read's bytes (R206). -/
theorem statusFrame_eq_bytes : statusFrame = statusBytes := rfl

/-- The mask write's bytes (R98). -/
theorem maskFrame_eq_bytes (c : ChSet) : maskFrame (c.setWidth 32) = maskBytes c := by
  rw [maskFrame_eq, maskBytes, be32]
  simp only [List.cons_append, List.nil_append, List.cons.injEq, and_true, true_and]
  refine ⟨?_, ?_, ?_, ?_⟩ <;> apply BitVec.eq_of_getLsbD_eq <;> intro i hi <;> interval_cases i <;> simp

/-- The mask write's bytes for a set (R98, R153). -/
theorem maskFrame_maskOf_eq_bytes (c : ChSet) :
    maskFrame (maskOf c) = maskBytes c := by rw [maskOf_eq_setWidth, maskFrame_eq_bytes]

/-- A configuration write's bytes (R170). -/
theorem configFrame_eq_bytes (c : Channel) (w) : configFrame c w = cfgBytes (c.val + 1) w := by
  have : ∀ c : Channel, (0x02#8 :: be16 (configAddr c)) = [0x02, 0x02,
    BitVec.ofNat 8 (4 * (c.val + 1 - 1))] := by decide
  exact congrArg (· ++ be32 w) (this c)

/-- A result read's bytes (R208). -/
theorem resultFrame_eq_bytes (c : Channel) : resultFrame c = resultBytes (c.val + 1) := by
  revert c; decide

/-- The bytes of the row F_CFG. -/
theorem cfgFieldFrame_eq_bytes (a : BitVec 5) (h : a.toNat ≤ 19) (w) :
    writeFrame (cfgFieldAddr a) (be32 w) = cfgBytes (a.toNat + 1) w := by
  have : ∀ a : BitVec 5, a.toNat ≤ 19 → (0x02#8 :: be16 (cfgFieldAddr a)) = [0x02, 0x02,
    BitVec.ofNat 8 (4 * (a.toNat + 1 - 1))] := by decide
  exact congrArg (· ++ be32 w) (this a h)

/-- The bytes of the row F_RESULT_RD. -/
theorem resultFieldFrame_eq_bytes (a : BitVec 5) (h : 4 ≤ a.toNat ∧ a.toNat ≤ 23) :
    readFrame (resultFieldAddr a) 4 = resultBytes (a.toNat - 3) := by
  revert a; decide

/-- An address is its two bytes (R11). -/
theorem addr_of_bytes (a : Addr) : (a.extractLsb' 8 8 ++ a.extractLsb' 0 8 : BitVec 16) = a := by
  apply BitVec.eq_of_getLsbD_eq; intro i hi
  rw [BitVec.getLsbD_append]; interval_cases i <;> simp

/-- A word is its four bytes (R11). -/
theorem wordOfBytes_of_slices (w : Word) :
    wordOfBytes (w.extractLsb' 24 8) (w.extractLsb' 16 8) (w.extractLsb' 8 8) (w.extractLsb' 0 8) = w := by
  unfold wordOfBytes
  apply BitVec.eq_of_getLsbD_eq; intro i hi
  simp only [BitVec.getLsbD_append]; interval_cases i <;> simp

/-- The bytes of a word put together from bytes. -/
theorem be32_wordOfBytes (b3 b2 b1 b0 : Byte) : be32 (wordOfBytes b3 b2 b1 b0) = [b3,b2,b1,b0] := by
  unfold wordOfBytes be32
  simp only [List.cons.injEq, and_true]
  refine ⟨?_, ?_, ?_, ?_⟩ <;> apply BitVec.eq_of_getLsbD_eq <;> intro i hi <;>
   simp only [BitVec.getLsbD_extractLsb', BitVec.getLsbD_append] <;> interval_cases i <;> simp

/-- The bytes of an address put together from bytes. -/
theorem be16_append (hi lo : Byte) : be16 (hi ++ lo : BitVec 16) = [hi, lo] := by
  unfold be16
  simp only [List.cons.injEq, and_true]
  refine ⟨?_, ?_⟩ <;> apply BitVec.eq_of_getLsbD_eq <;> intro i hi <;>
   simp only [BitVec.getLsbD_extractLsb', BitVec.getLsbD_append] <;> interval_cases i <;> simp

/-- A write frame is decoded by its address and payload (R91). -/
theorem decodeWire_writeFrame (addr payload) (h : payload.length ≤ 4) :
    decodeWire (writeFrame addr payload) = .ok (decodeWrite addr payload) := by
  simp only [writeFrame, be16, List.cons_append, List.nil_append, decodeWire, addr_of_bytes]
  rw [if_neg (by omega), if_pos trivial]

/-- A read frame is decoded by its address and length (R92). -/
theorem decodeWire_readFrame (addr n) (h : n ≤ 4) : decodeWire (readFrame addr n) = .ok (decodeRead addr n) := by
  simp only [readFrame, be16, List.cons_append, List.nil_append, decodeWire, addr_of_bytes, List.length_replicate]
  rw [if_neg (by omega), if_neg (by decide), if_pos trivial, if_pos (by simp)]

/-- The start command decodes to its row. -/
theorem decodeWire_startFrame (c) : decodeWire (startFrame c) = .ok (.fStart c) := by
  rw [startFrame_eq_bytes]; revert c; decide

/-- The status read decodes to its row. -/
theorem decodeWire_statusFrame : decodeWire statusFrame = .ok .fStatusRd := by decide

/-- A channel's result read decodes to its row. -/
theorem decodeWire_resultFrame (c : Channel) :
    decodeWire (resultFrame c) = .ok (.fResultRd (BitVec.ofNat 5 (c.val + 4))) := by
  revert c; decide

/-- The frame of the row F_RESULT_RD decodes to it. -/
theorem decodeWire_resultField (a : BitVec 5) (h : 4 ≤ a.toNat ∧ a.toNat ≤ 23) :
    decodeWire (readFrame (resultFieldAddr a) 4) = .ok (.fResultRd a) := by
  revert a; decide

/-- The mask write decodes to its row. -/
theorem decodeWire_maskFrame (m : ChSet) : decodeWire (maskFrame (m.setWidth 32)) = .ok (.fMask m) := by
  rw [maskFrame, decodeWire_writeFrame _ _ (by rw [packBytes32]; simp [be32]), packBytes32]
  simp only [be32, decodeWrite, wordOfBytes_of_slices]
  rw [if_pos]
  · simp
  · refine ⟨trivial, ?_, ?_⟩ <;> apply BitVec.eq_of_getLsbD_eq <;> intro i hi <;> interval_cases i <;> simp

/-- A configuration address meets the mask of its row and no other row's. -/
theorem cfgFieldAddr_cases (a : BitVec 5) (h : a.toNat ≤ 19) :
    cfgFieldAddr a ≠ 0x00F4 ∧ cfgFieldAddr a &&& 0xFF83 = 0x0200 ∧ (cfgFieldAddr a).extractLsb' 2 5 = a := by
  revert a; decide

/-- The frame of the row F_CFG decodes to it. -/
theorem decodeWire_cfgField (a : BitVec 5) (h : a.toNat ≤ 19) (w) :
    decodeWire (writeFrame (cfgFieldAddr a) (be32 w)) = .ok (.fCfg a w) := by
  obtain ⟨h1, h2, h3⟩ := cfgFieldAddr_cases a h
  rw [decodeWire_writeFrame _ _ (by simp [be32])]
  simp only [be32, decodeWrite, wordOfBytes_of_slices]
  rw [if_neg (fun h => h1 h.1), if_pos h2, h3]

/-- A write that no special row describes is a W_WRITE. -/
theorem decodeWrite_of_not_special (addr : Addr) (payload : List Byte)
    (h : WellFormed.specialWrite addr payload = false) : decodeWrite addr payload = .wWrite addr payload := by
  match payload, h with
  | [], _ => rfl
  | [b], h =>
    simp only [WellFormed.specialWrite, Bool.and_eq_false_iff, beq_eq_false_iff_ne] at h
    exact if_neg (by tauto)
  | [_, _], _ => rfl
  | [_, _, _], _ => rfl
  | [b3, b2, b1, b0], h =>
    simp only [WellFormed.specialWrite, Bool.or_eq_false_iff, Bool.and_eq_false_iff, beq_eq_false_iff_ne] at h
    exact (if_neg (by tauto)).trans (if_neg (by tauto))
  | _ :: _ :: _ :: _ :: _ :: _, _ => rfl

/-- A read that no special row describes is a W_READ. -/
theorem decodeRead_of_not_special (addr) (n : BitVec 3) (h : WellFormed.specialRead addr n = false) :
    decodeRead addr n.toNat = .wRead addr n := by
  simp only [WellFormed.specialRead, Bool.or_eq_false_iff, Bool.and_eq_false_iff, beq_eq_false_iff_ne] at h
  unfold decodeRead
  have h1 : ∀ n : BitVec 3, n.toNat = 1 → n = 1 := by decide
  have h4 : ∀ n : BitVec 3, n.toNat = 4 → n = 4 := by decide
  rw [if_neg (fun h' => by have := h1 n h'.1; tauto), if_neg (fun h' => by have := h4 n h'.1; tauto)]; simp

/-- Slicing a thermocouple word gives its fields back (R176). -/
theorem slices_of_tcWord (t : BitVec 5) (f) :
    (tcWord t f).extractLsb' 27 5 = t ∧ (tcWord t f).extractLsb' 12 6 = 0#6 ∧ tcFieldsOf (tcWord t f) = f := by
  rw [tcWord_eq_append]
  rcases f with ⟨a,b,c,d⟩
  simp only [tcFieldsOf, TcFields.mk.injEq]
  refine ⟨?_, ?_, ?_, ?_, ?_, ?_⟩ <;> apply BitVec.eq_of_getLsbD_eq <;> intro i hi <;>
    simp only [BitVec.getLsbD_append, BitVec.getLsbD_extractLsb'] <;> interval_cases i <;> simp

/-- Slicing an RTD word gives its fields back (R176). -/
theorem slices_of_rtdWord (t : BitVec 5) (f) :
    (rtdWord t f).extractLsb' 27 5 = t ∧ rtdFieldsOf (rtdWord t f) = f := by
  rw [rtdWord_eq_append]
  rcases f with ⟨a,b,c,d⟩
  simp only [rtdFieldsOf, RtdFields.mk.injEq]
  refine ⟨?_, ?_, ?_, ?_, ?_, ?_, ?_⟩ <;> apply BitVec.eq_of_getLsbD_eq <;> intro i hi <;>
    simp only [BitVec.getLsbD_append, BitVec.getLsbD_extractLsb'] <;> interval_cases i <;> simp

/-- Slicing a diode word gives its fields back (R176). -/
theorem slices_of_diodeWord (t : BitVec 5) (f) :
    (diodeWord t f).extractLsb' 27 5 = t ∧ diodeFieldsOf (diodeWord t f) = f := by
  rw [diodeWord_eq_append]
  rcases f with ⟨a,b,c,d⟩
  simp only [diodeFieldsOf, DiodeFields.mk.injEq]
  refine ⟨?_, ?_, ?_, ?_, ?_, ?_⟩ <;> apply BitVec.eq_of_getLsbD_eq <;> intro i hi <;>
    simp only [BitVec.getLsbD_append, BitVec.getLsbD_extractLsb'] <;> interval_cases i <;> simp

/-- Slicing a sense-resistor word gives its fields back (R176). -/
theorem slices_of_senseWord (t : BitVec 5) (f) :
    (senseWord t f).extractLsb' 27 5 = t ∧ (senseWord t f).extractLsb' 0 27 = f := by
  rw [senseWord_eq_append]
  refine ⟨?_, ?_⟩ <;> apply BitVec.eq_of_getLsbD_eq <;> intro i hi <;> simp only [BitVec.getLsbD_append,
    BitVec.getLsbD_extractLsb'] <;> interval_cases i <;> simp

/-- A word whose reserved bits are 0 is packed from its thermocouple slices. -/
theorem tcWord_of_slices (w : Word) (h : w.extractLsb' 12 6 = 0#6) :
    tcWord (w.extractLsb' 27 5) (tcFieldsOf w) = w := by
  rw [tcWord_eq_append, ← h]
  apply BitVec.eq_of_getLsbD_eq; intro i hi
  simp only [tcFieldsOf, BitVec.getLsbD_append, BitVec.getLsbD_extractLsb']; interval_cases i <;> simp

/-- A word is packed from its RTD slices. -/
theorem rtdWord_of_slices (w : Word) : rtdWord (w.extractLsb' 27 5) (rtdFieldsOf w) = w := by
  rw [rtdWord_eq_append]
  apply BitVec.eq_of_getLsbD_eq; intro i hi
  simp only [rtdFieldsOf, BitVec.getLsbD_append, BitVec.getLsbD_extractLsb']; interval_cases i <;> simp

/-- A word is packed from its diode slices. -/
theorem diodeWord_of_slices (w : Word) : diodeWord (w.extractLsb' 27 5) (diodeFieldsOf w) = w := by
  rw [diodeWord_eq_append]
  apply BitVec.eq_of_getLsbD_eq; intro i hi
  simp only [diodeFieldsOf, BitVec.getLsbD_append, BitVec.getLsbD_extractLsb']; interval_cases i <;> simp

/-- A word is packed from its sense-resistor slices. -/
theorem senseWord_of_slices (w : Word) : senseWord (w.extractLsb' 27 5) (w.extractLsb' 0 27) = w := by
  rw [senseWord_eq_append]
  apply BitVec.eq_of_getLsbD_eq; intro i hi
  simp only [BitVec.getLsbD_append, BitVec.getLsbD_extractLsb']; interval_cases i <;> simp

/-- The subtypes are all the 3-bit codes. -/
theorem mem_subtypes (sub : BitVec 3) : sub ∈ subtypes := by revert sub; decide

/-- What is proved of every listed subtype holds of every 3-bit code. -/
theorem subtype_cases {P : BitVec 3 → Prop} (h : P 0 ∧ P 1 ∧ P 2 ∧ P 3 ∧ P 4 ∧ P 5 ∧ P 6 ∧ P 7) (sub : BitVec 3) :
    P sub := by
  have hm := mem_subtypes sub
  simp only [subtypes, List.mem_cons, List.not_mem_nil, or_false] at hm
  obtain ⟨h0, h1, h2, h3, h4, h5, h6, h7⟩ := h
  rcases hm with rfl | rfl | rfl | rfl | rfl | rfl | rfl | rfl <;> assumption

/-- The encoding of a thermocouple row. -/
theorem encode_tcRow (ids : TypeIds) (sub : BitVec 3) (f) :
    encode ids (tcRow sub f) = .cfgWord (tcWord (ids.ofTc sub) f) :=
  subtype_cases (P := fun sub => encode ids (tcRow sub f) = .cfgWord (tcWord (ids.ofTc sub) f))
    ⟨rfl, rfl, rfl, rfl, rfl, rfl, rfl, rfl⟩ sub

/-- The encoding of an RTD row. -/
theorem encode_rtdRow (ids : TypeIds) (sub : BitVec 3) (f) :
    encode ids (rtdRow sub f) = .cfgWord (rtdWord (ids.ofRtd sub) f) :=
  subtype_cases (P := fun sub => encode ids (rtdRow sub f) = .cfgWord (rtdWord (ids.ofRtd sub) f))
    ⟨rfl, rfl, rfl, rfl, rfl, rfl, rfl, rfl⟩ sub

/-- What the decoder of the other types reads encodes to the word again. -/
theorem encode_of_decodeOtherWord {ids w i} (h : decodeOtherWord ids w = .ok i) : encode ids i = .cfgWord w := by
  unfold decodeOtherWord at h
  cases hf : subtypes.find? fun sub => ids.ofRtd sub == w.extractLsb' 27 5 with
  | some sub =>
    rw [hf] at h; cases h
    have he : ids.ofRtd sub = w.extractLsb' 27 5 := by simpa using List.find?_some hf
    rw [encode_rtdRow, he, rtdWord_of_slices]
  | none =>
    rw [hf] at h
    by_cases hd : w.extractLsb' 27 5 = ids.diode
    · simp only [hd, if_true] at h; cases h
      simp only [encode]; rw [← hd, diodeWord_of_slices]
    · by_cases hs : w.extractLsb' 27 5 = ids.sense
      · simp only [if_neg hd, if_pos hs] at h; cases h
        simp only [encode]; rw [← hs, senseWord_of_slices]
      · simp only [if_neg hd, if_neg hs] at h; cases h

/-- What the configuration word decoder reads encodes to the word again, for every table of type identifiers. -/
theorem encode_of_decodeCfgWord {ids w i} (h : decodeCfgWord ids w = .ok i) : encode ids i = .cfgWord w := by
  unfold decodeCfgWord at h
  cases hf : subtypes.find? fun sub => ids.ofTc sub == w.extractLsb' 27 5 with
  | some sub =>
    rw [hf] at h
    by_cases hr : w.extractLsb' 12 6 = 0#6
    · simp only [hr, if_true] at h; cases h
      have he : ids.ofTc sub = w.extractLsb' 27 5 := by simpa using List.find?_some hf
      rw [encode_tcRow, he, tcWord_of_slices w hr]
    · simp only [if_neg hr] at h
      cases ho : decodeOtherWord ids w with
      | ok j => rw [ho] at h; cases h; exact encode_of_decodeOtherWord ho
      | error e => rw [ho] at h; cases h
  | none => rw [hf] at h; exact encode_of_decodeOtherWord h

/-- A word whose identifier is that of an RTD, the diode or the sense resistor decodes. -/
theorem decodeOtherWord_total (ids : TypeIds) (w : Word)
    (h : (∃ sub, ids.ofRtd sub = w.extractLsb' 27 5) ∨ w.extractLsb' 27 5 = ids.diode ∨
      w.extractLsb' 27 5 = ids.sense) : ∃ i, decodeOtherWord ids w = .ok i := by
  unfold decodeOtherWord
  cases hf : subtypes.find? fun sub => ids.ofRtd sub == w.extractLsb' 27 5 with
  | some sub => exact ⟨_, rfl⟩
  | none =>
    rw [List.find?_eq_none] at hf
    rcases h with ⟨sub, hs⟩ | hd | hs
    · exact absurd (beq_iff_eq.2 hs) (hf sub (mem_subtypes sub))
    · exact ⟨_, if_pos hd⟩
    · by_cases hd : w.extractLsb' 27 5 = ids.diode
      · exact ⟨_, if_pos hd⟩
      · exact ⟨_, (if_neg hd).trans (if_pos hs)⟩

/-- A word whose identifier is in the table decodes, whatever else the table holds; a thermocouple's with its reserved
bits 0. -/
theorem decodeCfgWord_total (ids : TypeIds) (w : Word)
    (h : ((∃ sub, ids.ofTc sub = w.extractLsb' 27 5) ∧ w.extractLsb' 12 6 = 0#6) ∨
      (∃ sub, ids.ofRtd sub = w.extractLsb' 27 5) ∨ w.extractLsb' 27 5 = ids.diode ∨ w.extractLsb' 27 5 = ids.sense) :
    ∃ i, decodeCfgWord ids w = .ok i := by
  unfold decodeCfgWord
  cases hf : subtypes.find? fun sub => ids.ofTc sub == w.extractLsb' 27 5 with
  | some sub =>
    by_cases hr : w.extractLsb' 12 6 = 0#6
    · exact ⟨_, if_pos hr⟩
    · obtain ⟨i, hi⟩ := decodeOtherWord_total ids w (h.resolve_left fun h => hr h.2)
      exact ⟨i, (if_neg hr).trans (by rw [hi])⟩
  | none =>
    rw [List.find?_eq_none] at hf
    rcases h with ⟨⟨sub, hs⟩, _⟩ | h
    · exact absurd (beq_iff_eq.2 hs) (hf sub (mem_subtypes sub))
    · exact decodeOtherWord_total ids w h

/-- Every word ENCTC builds decodes, for every table of type identifiers. -/
theorem decodeCfgWord_encTc (par sub p) : ∃ i, decodeCfgWord par.typeIds (encTc par sub p) = .ok i :=
  have h := slices_of_tcWord (par.typeIds.ofTc sub) p
  decodeCfgWord_total _ _ (.inl ⟨⟨sub, h.1.symm⟩, h.2.1⟩)

/-- Every word ENCRTD builds decodes. -/
theorem decodeCfgWord_encRtd (par sub p) : ∃ i, decodeCfgWord par.typeIds (encRtd par sub p) = .ok i :=
  decodeCfgWord_total _ _ (.inr (.inl ⟨sub, (slices_of_rtdWord (par.typeIds.ofRtd sub) _).1.symm⟩))

/-- Every word ENCDIO builds decodes. -/
theorem decodeCfgWord_encDiode (par p idf) : ∃ i, decodeCfgWord par.typeIds (encDiode par p idf) = .ok i :=
  decodeCfgWord_total _ _ (.inr (.inr (.inl (slices_of_diodeWord par.typeIds.diode _).1)))

/-- Every word ENCRS builds decodes. -/
theorem decodeCfgWord_encSense (par rq) : ∃ i, decodeCfgWord par.typeIds (encSense par rq) = .ok i :=
  decodeCfgWord_total _ _ (.inr (.inr (.inr (slices_of_senseWord par.typeIds.sense rq).1)))

/-- What a configuration word decodes to frames that word (R170). -/
theorem exec_of_decodeCfgWord {s : State} {w i} (h : decodeCfgWord s.par.typeIds w = .ok i) :
    exec i s = .next (s.frameConfig w) := by
  have he := encode_of_decodeCfgWord h
  cases i <;> simp only [encode, Item.cfgWord.injEq, reduceCtorEq] at he <;> subst he <;> rfl

/-- The result word's fields from the bytes received (R97). -/
theorem decodeResultWord_of_rx (rx : Rx) : decodeResultWord rx.word = .resultWord rx.d0 (rawOf rx) := by
  unfold decodeResultWord Rx.word wordOfBytes rawOf
  congr 1 <;> apply BitVec.eq_of_getLsbD_eq <;> intro i hi <;> simp only [BitVec.getLsbD_append,
    BitVec.getLsbD_extractLsb'] <;> interval_cases i <;> simp

/-- A channel's result frame and its row's field agree. -/
theorem resultField_of_channel (c : Channel) :
    channelOfResultField (BitVec.ofNat 5 (c.val + 4)) = some c ∧
      readFrame (resultFieldAddr (BitVec.ofNat 5 (c.val + 4))) 4 = resultFrame c := by
  revert c; decide

end Sys2Proof.Laws
end

