-- ==== Sys2Proof/Laws/Ops.lean ====
section
/-! SUPPORT. What each shared operation of the machine can do, what a step can be, and runs. -/

open Sys2Proof.Machine

namespace Sys2Proof.Laws

/-- A transaction answered `Ok` (R64). -/
theorem transact_of_ok {f s k rx rest} (h : s.answers = .ok rx :: rest) :
    transact f s k = .next (k rx (called s f rest)) := by
  unfold transact; rw [h]; rfl

/-- A transaction answered `Err` (R66). -/
theorem transact_of_err {f s k e rest} (h : s.answers = .err e :: rest) :
    transact f s k = .next (raised (called s f rest) 1 (some (e % 2 ^ s.par.terrW))) := by
  unfold transact; rw [h]; rfl

/-- Everything one transaction can do: wait, end the operation, or go on. -/
theorem transact_cases {f s k t} (h : transact f s k = .next t) :
   (s.answers = [] ∧ t = s) ∨
   (∃ e rest, s.answers = .err e :: rest ∧ t = raised (called s f rest) 1 (some (e % 2 ^ s.par.terrW))) ∨
   (∃ rx rest, s.answers = .ok rx :: rest ∧ t = k rx (called s f rest)) := by
  unfold transact at h
  split at h
  · left; cases h; exact ⟨‹_›, rfl⟩
  · right; left; cases h; exact ⟨_, _, ‹_›, rfl⟩
  · right; right; cases h; exact ⟨_, _, ‹_›, rfl⟩

/-- The phase machine on a snapshot (R201). -/
theorem State.statusPhase_eq (s : State) (d : BitVec 1) :
    s.statusPhase d = { s with phase := phaseAfterStatus s.phase (d == 1) } := by
  unfold State.statusPhase phaseAfterStatus phaseConverting phaseDone
  simp only [beq_iff_eq]; split <;> rfl

/-- The done flag is bit 6 (R96). -/
theorem doneBit_eq (b : Byte) : (b.extractLsb' 6 1 == 1#1) = b.getLsbD 6 := by
  have : ∀ b : Byte, (b.extractLsb' 6 1 == 1#1) = b.getLsbD 6 := by decide
  exact this b

/-- Everything the top of AVG's round loop can do (R224, R225, R226). -/
theorem State.avgRound_eq (s : State) (c : Fin 20) (n : BitVec 16) (hn : n ≠ 0) :
  s.avgRound c n = if n.toNat ≤ s.cnt.toNat then
        ended s { Res.empty with
          sum := some s.sum[c], cnt := some s.cnt, meanF := some (rne32 s.sum[c].toInt (1024 * n.toNat)) }
      else if s.rnd = s.par.roundMax then raised s 3 none
      else { s with rnd := s.rnd + 1, pending := .frame (startBytes (BitVec.ofNat 5 (c.val + 1))) } := by
  unfold State.avgRound State.completeAvg
  rw [if_neg hn]
  by_cases h : s.cnt.toNat < n.toNat
  · rw [if_pos h, if_neg (show ¬ n.toNat ≤ s.cnt.toNat by omega), startFrame_eq_bytes]; rfl
  · rw [if_neg h, if_pos (show n.toNat ≤ s.cnt.toNat by omega)]; rfl

/-- Everything the top of AVGM's round loop can do (R224, R230). -/
theorem State.avgmRound_eq (s : State) (cs : ChSet) (n : BitVec 16) (hn : n ≠ 0) :
  s.avgmRound cs n = if n.toNat ≤ s.cnt.toNat then
        ended s { Res.empty with
          cnt := some s.cnt
          msum := Vector.ofFn fun m => if cs.getLsbD m.val then some s.sum[m] else none
          mmean := Vector.ofFn fun m =>
            if cs.getLsbD m.val then some (rne32 s.sum[m].toInt (1024 * n.toNat)) else none }
      else if s.par.mroundMax = some s.rnd then raised s 3 none
      else { s with rnd := s.rnd + 1, pending := .frame (maskBytes cs) } := by
  unfold State.avgmRound State.completeAvgm
  rw [if_neg hn]
  by_cases h : s.cnt.toNat < n.toNat
  · rw [if_pos h, if_neg (show ¬ n.toNat ≤ s.cnt.toNat by omega), maskFrame_maskOf_eq_bytes]; rfl
  · rw [if_neg h, if_pos (show n.toNat ≤ s.cnt.toNat by omega)]; rfl

/-- With no rounds wanted AVG is over. -/
theorem State.avgRound_zero (s : State) c : s.avgRound c 0 = s.completeAvg c 0 := by
  unfold State.avgRound; rw [if_neg (by simp)]

/-- With no rounds wanted AVGM is over. -/
theorem State.avgmRound_zero (s : State) c : s.avgmRound c 0 = s.completeAvgm c 0 := by
  unfold State.avgmRound; rw [if_neg (by simp)]

/-- The end of AVG with no rounds wanted (R227). -/
theorem State.completeAvg_zero (s : State) c :
    s.completeAvg c 0 = ended { s with draws := s.draws + 1 }
      { Res.empty with sum := some s.sum[c], cnt := some s.cnt, meanF := some (Config.draw s.draws) } := by
  unfold State.completeAvg; rw [if_pos rfl]
  simp only [State.drawBits, BitVec.setWidth_eq]; rfl

/-- The end of AVGM with no rounds wanted (R227). -/
theorem State.completeAvgm_zero (s : State) cs :
    s.completeAvgm cs 0 = ended { s with draws := s.draws + 20 } { Res.empty with
        msum := Vector.ofFn fun c => if cs.getLsbD c.val then some s.sum[c] else none
        mmean := Vector.ofFn fun c => if cs.getLsbD c.val then some (Config.draw (s.draws + c.val)) else none
        cnt := some s.cnt } := by
  unfold State.completeAvgm; rw [if_pos rfl]; rfl

/-- A round is valid when every member's error byte is 0x01 (R230). -/
theorem State.allValid_iff (s : State) (cs : ChSet) :
    s.allValid cs = true ↔ ∀ m : Fin 20, cs.getLsbD m.val = true → s.readings[m].err = 0x01 := by
  unfold State.allValid members isMember
  rw [List.all_eq_true]
  constructor
  · intro h m hm
    have := h m (by simp [hm])
    rw [beq_iff_eq] at this
    exact (readingOf_tag_valid_iff (r := s.readings[m].raw) _).1 this
  · intro h m hm
    simp only [List.mem_filter, List.mem_finRange, true_and] at hm
    rw [beq_iff_eq]
    exact (readingOf_tag_valid_iff (r := s.readings[m].raw) _).2 (h m hm)

/-- Everything one step that goes on can be: a step of the operation in progress, waiting for the host, the reset, an
operation accepted or ended as illegal (R20, R24, R123, R270, R271). -/
theorem step_cases (s t : State) (h : step s = .next t) :
    (s.busy = true ∧ ∃ it i, s.pendingItem = some it ∧ decode s.par.typeIds it = .ok i ∧ exec i s = .next t) ∨
    (s.busy = false ∧ s.host = [] ∧ t = s) ∨
    (s.busy = false ∧ ∃ rest, s.host = .reset :: rest ∧ t = { s with host := rest }.resetBlock) ∨
    (s.busy = false ∧ ∃ o rest, s.host = .present o :: rest ∧
      ((∃ i, decodeOp o = .ok i ∧ exec i (s.present o rest) = .next t) ∨ t =
        illegalOperation (s.present o rest))) := by
  unfold step at h
  cases hb : s.busy with
  | true =>
    left; refine ⟨rfl, ?_⟩
    rw [if_pos hb] at h
    split at h
    · cases h
    · split at h
      · exact ⟨_, _, ‹_›, ‹_›, h⟩
      · cases h
  | false =>
    right
    rw [if_neg (by simp [hb])] at h
    split at h
    · cases h; left; exact ⟨rfl, ‹_›, rfl⟩
    · cases h; right; left; exact ⟨rfl, _, ‹_›, rfl⟩
    · right; right; refine ⟨rfl, _, _, ‹_›, ?_⟩
      split at h
      · left; exact ⟨_, ‹_›, h⟩
      · cases h; right; rfl

/-- The empty run. -/
theorem runs_zero (s : State) : Runs 0 s s := rfl

/-- One step in front of a run. -/
theorem runs_succ {s : State} (t : State) {u : State} {k} (h : step s = .next t) (h' : Runs k t u) :
    Runs (k+1) s u := by
  have e := Host.Core.run.eq_2 Sys2Proof.core s k
  rw [show Sys2Proof.core.step s = .next t from h] at e
  exact e.trans h'

/-- A run of one step more is a step and a run. -/
theorem runs_succ_iff (s u : State) (k) : Runs (k+1) s u ↔ ∃ t, step s = .next t ∧ Runs k t u := by
  constructor
  · intro h
    have e := Host.Core.run.eq_2 Sys2Proof.core s k
    unfold Runs at h
    cases hs : step s with
    | next t => exact ⟨t, rfl, by rw [show Sys2Proof.core.step s = .next t from hs] at e; exact e.symm.trans h⟩
    | fault r => rw [show Sys2Proof.core.step s = .fault r from hs] at e; rw [e] at h; cases h
    | refused r => rw [show Sys2Proof.core.step s = .refused r from hs] at e; rw [e] at h; cases h
  · rintro ⟨t, h, h'⟩; exact runs_succ t h h'

/-- Runs compose. -/
theorem runs_trans {k m s t u} (h : Runs k s t) (h' : Runs m t u) : Runs (k+m) s u := by
  induction k generalizing s with
  | zero => cases h; simpa using h'
  | succ k ih =>
    obtain ⟨v, hv, hr⟩ := (runs_succ_iff _ _ _).1 h
    rw [show k + 1 + m = (k + m) + 1 by omega]
    exact runs_succ v hv (ih hr)

end Sys2Proof.Laws
end

