-- ==== Sys2Proof/Laws/PerInstr.lean ====
section
/-! SUPPORT. The family of per-instruction statements `FixedBits`: the encoding of every instruction has the fixed bits
of its row of spec/opcode_table.json. -/

namespace Sys2Proof.Laws

/-- The number of an instruction's encoding, as its row numbers it, under the default type identifiers: the operation
code, the first `n` bytes of the frame with the first in time most significant, the register content. -/
def FixedBits.number (n : Nat) (i : Instr) : Nat :=
  match encode Config.defaultTypeIds i with
  | .port o => o.op.toNat
  | .wire bytes => (bytes.take n).foldl (fun acc b => acc * 256 + b.toNat) 0
  | .statusByte b => b.toNat
  | .resultWord w => w.toNat
  | .cfgWord w => w.toNat

/-- The number of bytes of an instruction's row, and the row's fixed bits as fields (lowest bit, width, value). -/
def FixedBits.row : Instr → Nat × List (Nat × Nat × Nat)
  | .encq _ _ => (1, [(0, 8, 0x01)])
  | .encidf _ => (1, [(0, 8, 0x02)])
  | .decq _ => (1, [(0, 8, 0x03)])
  | .classify _ _ => (1, [(0, 8, 0x04)])
  | .chmap _ => (1, [(0, 8, 0x05)])
  | .mkmask _ => (1, [(0, 8, 0x06)])
  | .enctc _ _ => (1, [(0, 8, 0x07)])
  | .encrtd _ _ => (1, [(0, 8, 0x08)])
  | .encdio _ => (1, [(0, 8, 0x09)])
  | .encrs _ => (1, [(0, 8, 0x0A)])
  | .cfgtc _ _ _ => (1, [(0, 8, 0x0B)])
  | .cfgrtd _ _ _ => (1, [(0, 8, 0x0C)])
  | .cfgdio _ _ => (1, [(0, 8, 0x0D)])
  | .cfgrs _ _ => (1, [(0, 8, 0x0E)])
  | .wrreg _ _ _ => (1, [(0, 8, 0x0F)])
  | .rdreg _ _ => (1, [(0, 8, 0x10)])
  | .start _ => (1, [(0, 8, 0x11)])
  | .startm _ => (1, [(0, 8, 0x12)])
  | .status => (1, [(0, 8, 0x13)])
  | .rdtemp _ => (1, [(0, 8, 0x14)])
  | .rdtempm _ => (1, [(0, 8, 0x15)])
  | .avg _ _ => (1, [(0, 8, 0x16)])
  | .avgm _ _ => (1, [(0, 8, 0x17)])
  | .wWrite _ _ => (3, [(16, 8, 0x02)])
  | .wRead _ _ => (3, [(16, 8, 0x03)])
  | .fStart _ => (4, [(5, 27, 0x0100004)])
  | .fMask _ => (7, [(20, 36, 0x0200F4000)])
  | .fCfg _ _ => (7, [(39, 17, 0x00404), (32, 2, 0)])
  | .fStatusRd => (4, [(0, 32, 0x03000000)])
  | .fResultRd _ => (7, [(39, 17, 0x00600), (0, 34, 0)])
  | .statusByte _ _ _ _ => (1, [])
  | .resultWord _ _ => (4, [])
  | .cfgwordTcJ _ => (4, [(27, 5, 1), (12, 6, 0)])
  | .cfgwordTcK _ => (4, [(27, 5, 2), (12, 6, 0)])
  | .cfgwordTcE _ => (4, [(27, 5, 3), (12, 6, 0)])
  | .cfgwordTcN _ => (4, [(27, 5, 4), (12, 6, 0)])
  | .cfgwordTcR _ => (4, [(27, 5, 5), (12, 6, 0)])
  | .cfgwordTcS _ => (4, [(27, 5, 6), (12, 6, 0)])
  | .cfgwordTcT _ => (4, [(27, 5, 7), (12, 6, 0)])
  | .cfgwordTcB _ => (4, [(27, 5, 8), (12, 6, 0)])
  | .cfgwordRtdPt10 _ => (4, [(27, 5, 10)])
  | .cfgwordRtdPt50 _ => (4, [(27, 5, 11)])
  | .cfgwordRtdPt100 _ => (4, [(27, 5, 12)])
  | .cfgwordRtdPt200 _ => (4, [(27, 5, 13)])
  | .cfgwordRtdPt500 _ => (4, [(27, 5, 14)])
  | .cfgwordRtdPt1000 _ => (4, [(27, 5, 15)])
  | .cfgwordRtd1000Ohm _ => (4, [(27, 5, 16)])
  | .cfgwordRtdNi120 _ => (4, [(27, 5, 17)])
  | .cfgwordDiode _ => (4, [(27, 5, 28)])
  | .cfgwordSense _ => (4, [(27, 5, 29)])

/-- Every fixed field of the row has its value in the encoding. -/
def FixedBits.Statement (i : Instr) : Prop :=
  ∀ f ∈ (FixedBits.row i).2, FixedBits.number (FixedBits.row i).1 i / 2 ^ f.1 % 2 ^ f.2.1 = f.2.2

/-- One fixed field. -/
theorem FixedBits.one {i : Instr} {n lo w v : Nat} (h : FixedBits.row i = (n, [(lo, w, v)]))
    (hv : FixedBits.number n i / 2 ^ lo % 2 ^ w = v) : FixedBits.Statement i := by
  intro f hf
  rw [h] at hf ⊢
  rw [List.mem_singleton.1 hf]
  exact hv

/-- Two fixed fields. -/
theorem FixedBits.two {i : Instr} {n lo w v lo' w' v' : Nat} (h : FixedBits.row i = (n, [(lo, w, v), (lo', w', v')]))
    (hv : FixedBits.number n i / 2 ^ lo % 2 ^ w = v ∧ FixedBits.number n i / 2 ^ lo' % 2 ^ w' = v') :
    FixedBits.Statement i := by
  intro f hf
  rw [h] at hf ⊢
  rcases List.mem_cons.1 hf with rfl | hf
  · exact hv.1
  · rw [List.mem_singleton.1 hf]; exact hv.2

/-- A thermocouple word has its type identifier and its reserved bits (R101, R102). -/
theorem FixedBits.thermocouple (t : BitVec 5) (f : TcFields) :
    (tcWord t f).toNat / 2 ^ 27 % 2 ^ 5 = t.toNat ∧ (tcWord t f).toNat / 2 ^ 12 % 2 ^ 6 = 0 := by
  have h1 := t.isLt; have h2 := f.cj.isLt; have h3 := f.sgl.isLt; have h4 := f.oc.isLt; have h5 := f.cptr.isLt
  simp only [tcWord_eq_append, toNat_append_add, BitVec.toNat_ofNat]
  omega

/-- An RTD word has its type identifier (R101, R104). -/
theorem FixedBits.resistor (t : BitVec 5) (f : RtdFields) : (rtdWord t f).toNat / 2 ^ 27 % 2 ^ 5 = t.toNat := by
  have h1 := t.isLt; have h2 := f.rs.isLt; have h3 := f.wires.isLt; have h4 := f.exc.isLt; have h5 := f.cur.isLt
  have h6 := f.curve.isLt; have h7 := f.cptr.isLt
  simp only [rtdWord_eq_append, toNat_append_add]
  omega

/-- The three bytes of a header as a number (R91, R92). -/
theorem FixedBits.header (a : Addr) : (a.extractLsb' 8 8).toNat < 256 ∧ (a.extractLsb' 0 8).toNat < 256 :=
  ⟨(a.extractLsb' 8 8).isLt, (a.extractLsb' 0 8).isLt⟩

theorem FixedBits.encq (fval : Word) (k : BitVec 5) : FixedBits.Statement (.encq fval k) := by
  refine FixedBits.one rfl ?_
  simp [FixedBits.number, encode, Opr.ofOp]

theorem FixedBits.encidf (fval : Word) : FixedBits.Statement (.encidf fval) := by
  refine FixedBits.one rfl ?_
  simp [FixedBits.number, encode, Opr.ofOp]

theorem FixedBits.decq (raw : BitVec 24) : FixedBits.Statement (.decq raw) := by
  refine FixedBits.one rfl ?_
  simp [FixedBits.number, encode, Opr.ofOp]

theorem FixedBits.classify (err : Byte) (raw : BitVec 24) : FixedBits.Statement (.classify err raw) := by
  refine FixedBits.one rfl ?_
  simp [FixedBits.number, encode, Opr.ofOp]

theorem FixedBits.chmap (ch : BitVec 5) : FixedBits.Statement (.chmap ch) := by
  refine FixedBits.one rfl ?_
  simp [FixedBits.number, encode, Opr.ofOp]

theorem FixedBits.mkmask (chset : ChSet) : FixedBits.Statement (.mkmask chset) := by
  refine FixedBits.one rfl ?_
  simp [FixedBits.number, encode, Opr.ofOp]

theorem FixedBits.enctc (sub : BitVec 3) (p : TcFields) : FixedBits.Statement (.enctc sub p) := by
  refine FixedBits.one rfl ?_
  simp [FixedBits.number, encode, Opr.ofOp, Opr.withTc]

theorem FixedBits.encrtd (sub : BitVec 3) (p : RtdOperands) : FixedBits.Statement (.encrtd sub p) := by
  refine FixedBits.one rfl ?_
  simp [FixedBits.number, encode, Opr.ofOp, Opr.withRtd]

theorem FixedBits.encdio (p : DiodeOperands) : FixedBits.Statement (.encdio p) := by
  refine FixedBits.one rfl ?_
  simp [FixedBits.number, encode, Opr.ofOp, Opr.withDiode]

theorem FixedBits.encrs (fval : Word) : FixedBits.Statement (.encrs fval) := by
  refine FixedBits.one rfl ?_
  simp [FixedBits.number, encode, Opr.ofOp]

theorem FixedBits.cfgtc (ch : BitVec 5) (sub : BitVec 3) (p : TcFields) : FixedBits.Statement (.cfgtc ch sub p) := by
  refine FixedBits.one rfl ?_
  simp [FixedBits.number, encode, Opr.ofOp, Opr.withTc]

theorem FixedBits.cfgrtd (ch : BitVec 5) (sub : BitVec 3) (p : RtdOperands) :
    FixedBits.Statement (.cfgrtd ch sub p) := by
  refine FixedBits.one rfl ?_
  simp [FixedBits.number, encode, Opr.ofOp, Opr.withRtd]

theorem FixedBits.cfgdio (ch : BitVec 5) (p : DiodeOperands) : FixedBits.Statement (.cfgdio ch p) := by
  refine FixedBits.one rfl ?_
  simp [FixedBits.number, encode, Opr.ofOp, Opr.withDiode]

theorem FixedBits.cfgrs (ch : BitVec 5) (fval : Word) : FixedBits.Statement (.cfgrs ch fval) := by
  refine FixedBits.one rfl ?_
  simp [FixedBits.number, encode, Opr.ofOp]

theorem FixedBits.wrreg (addr : Addr) (len : BitVec 3) (wdata : Word) :
    FixedBits.Statement (.wrreg addr len wdata) := by
  refine FixedBits.one rfl ?_
  simp [FixedBits.number, encode, Opr.ofOp]

theorem FixedBits.rdreg (addr : Addr) (len : BitVec 3) : FixedBits.Statement (.rdreg addr len) := by
  refine FixedBits.one rfl ?_
  simp [FixedBits.number, encode, Opr.ofOp]

theorem FixedBits.start (ch : BitVec 5) : FixedBits.Statement (.start ch) := by
  refine FixedBits.one rfl ?_
  simp [FixedBits.number, encode, Opr.ofOp]

theorem FixedBits.startm (chset : ChSet) : FixedBits.Statement (.startm chset) := by
  refine FixedBits.one rfl ?_
  simp [FixedBits.number, encode, Opr.ofOp]

theorem FixedBits.status : FixedBits.Statement (.status) := by
  refine FixedBits.one rfl ?_
  simp [FixedBits.number, encode, Opr.ofOp]

theorem FixedBits.rdtemp (ch : BitVec 5) : FixedBits.Statement (.rdtemp ch) := by
  refine FixedBits.one rfl ?_
  simp [FixedBits.number, encode, Opr.ofOp]

theorem FixedBits.rdtempm (chset : ChSet) : FixedBits.Statement (.rdtempm chset) := by
  refine FixedBits.one rfl ?_
  simp [FixedBits.number, encode, Opr.ofOp]

theorem FixedBits.avg (ch : BitVec 5) (target : BitVec 16) : FixedBits.Statement (.avg ch target) := by
  refine FixedBits.one rfl ?_
  simp [FixedBits.number, encode, Opr.ofOp]

theorem FixedBits.avgm (chset : ChSet) (target : BitVec 16) : FixedBits.Statement (.avgm chset target) := by
  refine FixedBits.one rfl ?_
  simp [FixedBits.number, encode, Opr.ofOp]

theorem FixedBits.wWrite (addr : Addr) (payload : List Byte) : FixedBits.Statement (.wWrite addr payload) := by
  refine FixedBits.one rfl ?_
  have h := FixedBits.header addr
  simp only [FixedBits.number, encode, writeFrame, be16, List.cons_append, List.take_succ_cons, List.take_zero,
    List.foldl, BitVec.ofNat_eq_ofNat, BitVec.toNat_ofNat]
  omega

theorem FixedBits.wRead (addr : Addr) (n : BitVec 3) : FixedBits.Statement (.wRead addr n) := by
  refine FixedBits.one rfl ?_
  have h := FixedBits.header addr
  simp only [FixedBits.number, encode, readFrame, be16, List.cons_append, List.take_succ_cons, List.take_zero,
    List.foldl, BitVec.ofNat_eq_ofNat, BitVec.toNat_ofNat]
  omega

theorem FixedBits.fStart (c : BitVec 5) : FixedBits.Statement (.fStart c) := by
  refine FixedBits.one rfl ?_
  have h := c.isLt
  simp only [FixedBits.number, encode, startFrame_eq, List.take_succ_cons, List.take_zero, List.foldl,
    toNat_append_add, BitVec.ofNat_eq_ofNat, BitVec.toNat_ofNat]
  omega

theorem FixedBits.fMask (m : ChSet) : FixedBits.Statement (.fMask m) := by
  refine FixedBits.one rfl ?_
  have h := m.isLt
  simp only [FixedBits.number, encode, maskFrame_eq, be32, List.cons_append, List.nil_append, List.take_succ_cons,
    List.take_zero, List.foldl, BitVec.extractLsb'_toNat, BitVec.toNat_setWidth, BitVec.ofNat_eq_ofNat,
    BitVec.toNat_ofNat, Nat.shiftRight_eq_div_pow]
  omega

theorem FixedBits.fCfg (a : BitVec 5) (w : Word) : FixedBits.Statement (.fCfg a w) := by
  refine FixedBits.two rfl ?_
  have h := a.isLt; have h' := w.isLt
  simp only [FixedBits.number, encode, writeFrame, cfgFieldAddr, be16, be32, List.cons_append, List.nil_append,
    List.take_succ_cons, List.take_zero, List.foldl, BitVec.extractLsb'_toNat, BitVec.toNat_add, BitVec.toNat_mul,
    BitVec.toNat_setWidth, BitVec.ofNat_eq_ofNat, BitVec.toNat_ofNat, Nat.shiftRight_eq_div_pow]
  omega

theorem FixedBits.fStatusRd : FixedBits.Statement .fStatusRd :=
  FixedBits.one rfl (by decide)

theorem FixedBits.fResultRd (a : BitVec 5) : FixedBits.Statement (.fResultRd a) := by
  refine FixedBits.two rfl ?_
  revert a; decide

theorem FixedBits.statusByte (start done unused : BitVec 1) (chsel : BitVec 5) :
    FixedBits.Statement (.statusByte start done unused chsel) := fun _ hf => absurd hf List.not_mem_nil

theorem FixedBits.resultWord (err : Byte) (raw : BitVec 24) : FixedBits.Statement (.resultWord err raw) :=
  fun _ hf => absurd hf List.not_mem_nil

theorem FixedBits.cfgwordTcJ (f : TcFields) : FixedBits.Statement (.cfgwordTcJ f) :=
  FixedBits.two rfl (FixedBits.thermocouple _ f)

theorem FixedBits.cfgwordTcK (f : TcFields) : FixedBits.Statement (.cfgwordTcK f) :=
  FixedBits.two rfl (FixedBits.thermocouple _ f)

theorem FixedBits.cfgwordTcE (f : TcFields) : FixedBits.Statement (.cfgwordTcE f) :=
  FixedBits.two rfl (FixedBits.thermocouple _ f)

theorem FixedBits.cfgwordTcN (f : TcFields) : FixedBits.Statement (.cfgwordTcN f) :=
  FixedBits.two rfl (FixedBits.thermocouple _ f)

theorem FixedBits.cfgwordTcR (f : TcFields) : FixedBits.Statement (.cfgwordTcR f) :=
  FixedBits.two rfl (FixedBits.thermocouple _ f)

theorem FixedBits.cfgwordTcS (f : TcFields) : FixedBits.Statement (.cfgwordTcS f) :=
  FixedBits.two rfl (FixedBits.thermocouple _ f)

theorem FixedBits.cfgwordTcT (f : TcFields) : FixedBits.Statement (.cfgwordTcT f) :=
  FixedBits.two rfl (FixedBits.thermocouple _ f)

theorem FixedBits.cfgwordTcB (f : TcFields) : FixedBits.Statement (.cfgwordTcB f) :=
  FixedBits.two rfl (FixedBits.thermocouple _ f)

theorem FixedBits.cfgwordRtdPt10 (f : RtdFields) : FixedBits.Statement (.cfgwordRtdPt10 f) :=
  FixedBits.one rfl (FixedBits.resistor _ f)

theorem FixedBits.cfgwordRtdPt50 (f : RtdFields) : FixedBits.Statement (.cfgwordRtdPt50 f) :=
  FixedBits.one rfl (FixedBits.resistor _ f)

theorem FixedBits.cfgwordRtdPt100 (f : RtdFields) : FixedBits.Statement (.cfgwordRtdPt100 f) :=
  FixedBits.one rfl (FixedBits.resistor _ f)

theorem FixedBits.cfgwordRtdPt200 (f : RtdFields) : FixedBits.Statement (.cfgwordRtdPt200 f) :=
  FixedBits.one rfl (FixedBits.resistor _ f)

theorem FixedBits.cfgwordRtdPt500 (f : RtdFields) : FixedBits.Statement (.cfgwordRtdPt500 f) :=
  FixedBits.one rfl (FixedBits.resistor _ f)

theorem FixedBits.cfgwordRtdPt1000 (f : RtdFields) : FixedBits.Statement (.cfgwordRtdPt1000 f) :=
  FixedBits.one rfl (FixedBits.resistor _ f)

theorem FixedBits.cfgwordRtd1000Ohm (f : RtdFields) : FixedBits.Statement (.cfgwordRtd1000Ohm f) :=
  FixedBits.one rfl (FixedBits.resistor _ f)

theorem FixedBits.cfgwordRtdNi120 (f : RtdFields) : FixedBits.Statement (.cfgwordRtdNi120 f) :=
  FixedBits.one rfl (FixedBits.resistor _ f)

theorem FixedBits.cfgwordDiode (f : DiodeFields) : FixedBits.Statement (.cfgwordDiode f) := by
  refine FixedBits.one rfl ?_
  have h2 := f.sgl.isLt; have h3 := f.rd3.isLt; have h4 := f.avg.isLt; have h5 := f.dcur.isLt; have h6 := f.idf.isLt
  simp only [FixedBits.number, encode, diodeWord_eq_append, toNat_append_add, Config.defaultTypeIds,
    BitVec.ofNat_eq_ofNat, BitVec.toNat_ofNat]
  omega

theorem FixedBits.cfgwordSense (rq : BitVec 27) : FixedBits.Statement (.cfgwordSense rq) := by
  refine FixedBits.one rfl ?_
  have h2 := rq.isLt
  simp only [FixedBits.number, encode, senseWord_eq_append, toNat_append_add, Config.defaultTypeIds,
    BitVec.ofNat_eq_ofNat, BitVec.toNat_ofNat]
  omega

end Sys2Proof.Laws
end

