-- ==== Sys2Proof/Laws/State.lean ====
section
/-! SUPPORT. The small lemmas of the state: for each shared update, what each field is after it. All true by rfl. -/

namespace Sys2Proof.Machine

@[simp] theorem State.release_phase (s : State) :
    s.release.phase = s.phase := rfl
@[simp] theorem State.release_sel (s : State) :
    s.release.sel = s.sel := rfl
@[simp] theorem State.release_busy (s : State) :
    s.release.busy = false := rfl
@[simp] theorem State.release_sum (s : State) :
    s.release.sum = s.sum := rfl
@[simp] theorem State.release_cnt (s : State) :
    s.release.cnt = s.cnt := rfl
@[simp] theorem State.release_rnd (s : State) :
    s.release.rnd = s.rnd := rfl
@[simp] theorem State.release_polls (s : State) :
    s.release.polls = s.polls := rfl
@[simp] theorem State.release_readings (s : State) :
    s.release.readings = s.readings := rfl
@[simp] theorem State.release_job (s : State) :
    s.release.job = .none := rfl
@[simp] theorem State.release_pending (s : State) :
    s.release.pending = .none := rfl
@[simp] theorem State.release_opr (s : State) :
    s.release.opr = s.opr := rfl
@[simp] theorem State.release_res (s : State) :
    s.release.res = s.res := rfl
@[simp] theorem State.release_par (s : State) :
    s.release.par = s.par := rfl
@[simp] theorem State.release_host (s : State) :
    s.release.host = s.host := rfl
@[simp] theorem State.release_answers (s : State) :
    s.release.answers = s.answers := rfl
@[simp] theorem State.release_trace (s : State) :
    s.release.trace = s.trace := rfl
@[simp] theorem State.release_draws (s : State) :
    s.release.draws = s.draws := rfl

@[simp] theorem State.complete_phase (s : State) (r : Res) :
    (s.complete r).phase = s.phase := rfl
@[simp] theorem State.complete_sel (s : State) (r : Res) :
    (s.complete r).sel = s.sel := rfl
@[simp] theorem State.complete_busy (s : State) (r : Res) :
    (s.complete r).busy = false := rfl
@[simp] theorem State.complete_sum (s : State) (r : Res) :
    (s.complete r).sum = s.sum := rfl
@[simp] theorem State.complete_cnt (s : State) (r : Res) :
    (s.complete r).cnt = s.cnt := rfl
@[simp] theorem State.complete_rnd (s : State) (r : Res) :
    (s.complete r).rnd = s.rnd := rfl
@[simp] theorem State.complete_polls (s : State) (r : Res) :
    (s.complete r).polls = s.polls := rfl
@[simp] theorem State.complete_readings (s : State) (r : Res) :
    (s.complete r).readings = s.readings := rfl
@[simp] theorem State.complete_job (s : State) (r : Res) :
    (s.complete r).job = .none := rfl
@[simp] theorem State.complete_pending (s : State) (r : Res) :
    (s.complete r).pending = .none := rfl
@[simp] theorem State.complete_opr (s : State) (r : Res) :
    (s.complete r).opr = s.opr := rfl
@[simp] theorem State.complete_res (s : State) (r : Res) :
    (s.complete r).res = { r with code := some codeOk } := rfl
@[simp] theorem State.complete_par (s : State) (r : Res) :
    (s.complete r).par = s.par := rfl
@[simp] theorem State.complete_host (s : State) (r : Res) :
    (s.complete r).host = s.host := rfl
@[simp] theorem State.complete_answers (s : State) (r : Res) :
    (s.complete r).answers = s.answers := rfl
@[simp] theorem State.complete_trace (s : State) (r : Res) :
    (s.complete r).trace = s.trace := rfl
@[simp] theorem State.complete_draws (s : State) (r : Res) :
    (s.complete r).draws = s.draws := rfl

@[simp] theorem raiseCode_phase (code : BitVec 3) (info : Option Nat) (s : State) :
    (raiseCode code info s).phase = s.phase := rfl
@[simp] theorem raiseCode_sel (code : BitVec 3) (info : Option Nat) (s : State) :
    (raiseCode code info s).sel = s.sel := rfl
@[simp] theorem raiseCode_busy (code : BitVec 3) (info : Option Nat) (s : State) :
    (raiseCode code info s).busy = false := rfl
@[simp] theorem raiseCode_sum (code : BitVec 3) (info : Option Nat) (s : State) :
    (raiseCode code info s).sum = s.sum := rfl
@[simp] theorem raiseCode_cnt (code : BitVec 3) (info : Option Nat) (s : State) :
    (raiseCode code info s).cnt = s.cnt := rfl
@[simp] theorem raiseCode_rnd (code : BitVec 3) (info : Option Nat) (s : State) :
    (raiseCode code info s).rnd = s.rnd := rfl
@[simp] theorem raiseCode_polls (code : BitVec 3) (info : Option Nat) (s : State) :
    (raiseCode code info s).polls = s.polls := rfl
@[simp] theorem raiseCode_readings (code : BitVec 3) (info : Option Nat) (s : State) :
    (raiseCode code info s).readings = s.readings := rfl
@[simp] theorem raiseCode_job (code : BitVec 3) (info : Option Nat) (s : State) :
    (raiseCode code info s).job = .none := rfl
@[simp] theorem raiseCode_pending (code : BitVec 3) (info : Option Nat) (s : State) :
    (raiseCode code info s).pending = .none := rfl
@[simp] theorem raiseCode_opr (code : BitVec 3) (info : Option Nat) (s : State) :
    (raiseCode code info s).opr = s.opr := rfl
@[simp] theorem raiseCode_res (code : BitVec 3) (info : Option Nat) (s : State) :
    (raiseCode code info s).res = { Res.empty with code := some code, info := info } := rfl
@[simp] theorem raiseCode_par (code : BitVec 3) (info : Option Nat) (s : State) :
    (raiseCode code info s).par = s.par := rfl
@[simp] theorem raiseCode_host (code : BitVec 3) (info : Option Nat) (s : State) :
    (raiseCode code info s).host = s.host := rfl
@[simp] theorem raiseCode_answers (code : BitVec 3) (info : Option Nat) (s : State) :
    (raiseCode code info s).answers = s.answers := rfl
@[simp] theorem raiseCode_trace (code : BitVec 3) (info : Option Nat) (s : State) :
    (raiseCode code info s).trace = s.trace := rfl
@[simp] theorem raiseCode_draws (code : BitVec 3) (info : Option Nat) (s : State) :
    (raiseCode code info s).draws = s.draws := rfl

@[simp] theorem State.beginJob_phase (s : State) (j : Job) (p : Pending) :
    (s.beginJob j p).phase = s.phase := rfl
@[simp] theorem State.beginJob_sel (s : State) (j : Job) (p : Pending) :
    (s.beginJob j p).sel = s.sel := rfl
@[simp] theorem State.beginJob_busy (s : State) (j : Job) (p : Pending) :
    (s.beginJob j p).busy = true := rfl
@[simp] theorem State.beginJob_sum (s : State) (j : Job) (p : Pending) :
    (s.beginJob j p).sum = s.sum := rfl
@[simp] theorem State.beginJob_cnt (s : State) (j : Job) (p : Pending) :
    (s.beginJob j p).cnt = s.cnt := rfl
@[simp] theorem State.beginJob_rnd (s : State) (j : Job) (p : Pending) :
    (s.beginJob j p).rnd = s.rnd := rfl
@[simp] theorem State.beginJob_polls (s : State) (j : Job) (p : Pending) :
    (s.beginJob j p).polls = s.polls := rfl
@[simp] theorem State.beginJob_readings (s : State) (j : Job) (p : Pending) :
    (s.beginJob j p).readings = s.readings := rfl
@[simp] theorem State.beginJob_job (s : State) (j : Job) (p : Pending) :
    (s.beginJob j p).job = j := rfl
@[simp] theorem State.beginJob_pending (s : State) (j : Job) (p : Pending) :
    (s.beginJob j p).pending = p := rfl
@[simp] theorem State.beginJob_opr (s : State) (j : Job) (p : Pending) :
    (s.beginJob j p).opr = s.opr := rfl
@[simp] theorem State.beginJob_res (s : State) (j : Job) (p : Pending) :
    (s.beginJob j p).res = Res.empty := rfl
@[simp] theorem State.beginJob_par (s : State) (j : Job) (p : Pending) :
    (s.beginJob j p).par = s.par := rfl
@[simp] theorem State.beginJob_host (s : State) (j : Job) (p : Pending) :
    (s.beginJob j p).host = s.host := rfl
@[simp] theorem State.beginJob_answers (s : State) (j : Job) (p : Pending) :
    (s.beginJob j p).answers = s.answers := rfl
@[simp] theorem State.beginJob_trace (s : State) (j : Job) (p : Pending) :
    (s.beginJob j p).trace = s.trace := rfl
@[simp] theorem State.beginJob_draws (s : State) (j : Job) (p : Pending) :
    (s.beginJob j p).draws = s.draws := rfl

@[simp] theorem State.send_phase (s : State) (frame : List Byte) :
    (s.send frame).phase = s.phase := rfl
@[simp] theorem State.send_sel (s : State) (frame : List Byte) :
    (s.send frame).sel = s.sel := rfl
@[simp] theorem State.send_busy (s : State) (frame : List Byte) :
    (s.send frame).busy = s.busy := rfl
@[simp] theorem State.send_sum (s : State) (frame : List Byte) :
    (s.send frame).sum = s.sum := rfl
@[simp] theorem State.send_cnt (s : State) (frame : List Byte) :
    (s.send frame).cnt = s.cnt := rfl
@[simp] theorem State.send_rnd (s : State) (frame : List Byte) :
    (s.send frame).rnd = s.rnd := rfl
@[simp] theorem State.send_polls (s : State) (frame : List Byte) :
    (s.send frame).polls = s.polls := rfl
@[simp] theorem State.send_readings (s : State) (frame : List Byte) :
    (s.send frame).readings = s.readings := rfl
@[simp] theorem State.send_job (s : State) (frame : List Byte) :
    (s.send frame).job = s.job := rfl
@[simp] theorem State.send_pending (s : State) (frame : List Byte) :
    (s.send frame).pending = .frame frame := rfl
@[simp] theorem State.send_opr (s : State) (frame : List Byte) :
    (s.send frame).opr = s.opr := rfl
@[simp] theorem State.send_res (s : State) (frame : List Byte) :
    (s.send frame).res = s.res := rfl
@[simp] theorem State.send_par (s : State) (frame : List Byte) :
    (s.send frame).par = s.par := rfl
@[simp] theorem State.send_host (s : State) (frame : List Byte) :
    (s.send frame).host = s.host := rfl
@[simp] theorem State.send_answers (s : State) (frame : List Byte) :
    (s.send frame).answers = s.answers := rfl
@[simp] theorem State.send_trace (s : State) (frame : List Byte) :
    (s.send frame).trace = s.trace := rfl
@[simp] theorem State.send_draws (s : State) (frame : List Byte) :
    (s.send frame).draws = s.draws := rfl

@[simp] theorem State.startPhase_phase (s : State) (c : BitVec 5) :
    (s.startPhase c).phase = phaseConverting := rfl
@[simp] theorem State.startPhase_sel (s : State) (c : BitVec 5) :
    (s.startPhase c).sel = c := rfl
@[simp] theorem State.startPhase_busy (s : State) (c : BitVec 5) :
    (s.startPhase c).busy = s.busy := rfl
@[simp] theorem State.startPhase_sum (s : State) (c : BitVec 5) :
    (s.startPhase c).sum = s.sum := rfl
@[simp] theorem State.startPhase_cnt (s : State) (c : BitVec 5) :
    (s.startPhase c).cnt = s.cnt := rfl
@[simp] theorem State.startPhase_rnd (s : State) (c : BitVec 5) :
    (s.startPhase c).rnd = s.rnd := rfl
@[simp] theorem State.startPhase_polls (s : State) (c : BitVec 5) :
    (s.startPhase c).polls = s.polls := rfl
@[simp] theorem State.startPhase_readings (s : State) (c : BitVec 5) :
    (s.startPhase c).readings = s.readings := rfl
@[simp] theorem State.startPhase_job (s : State) (c : BitVec 5) :
    (s.startPhase c).job = s.job := rfl
@[simp] theorem State.startPhase_pending (s : State) (c : BitVec 5) :
    (s.startPhase c).pending = s.pending := rfl
@[simp] theorem State.startPhase_opr (s : State) (c : BitVec 5) :
    (s.startPhase c).opr = s.opr := rfl
@[simp] theorem State.startPhase_res (s : State) (c : BitVec 5) :
    (s.startPhase c).res = s.res := rfl
@[simp] theorem State.startPhase_par (s : State) (c : BitVec 5) :
    (s.startPhase c).par = s.par := rfl
@[simp] theorem State.startPhase_host (s : State) (c : BitVec 5) :
    (s.startPhase c).host = s.host := rfl
@[simp] theorem State.startPhase_answers (s : State) (c : BitVec 5) :
    (s.startPhase c).answers = s.answers := rfl
@[simp] theorem State.startPhase_trace (s : State) (c : BitVec 5) :
    (s.startPhase c).trace = s.trace := rfl
@[simp] theorem State.startPhase_draws (s : State) (c : BitVec 5) :
    (s.startPhase c).draws = s.draws := rfl

@[simp] theorem State.drawn_phase (s : State) :
    s.drawn.phase = s.phase := rfl
@[simp] theorem State.drawn_sel (s : State) :
    s.drawn.sel = s.sel := rfl
@[simp] theorem State.drawn_busy (s : State) :
    s.drawn.busy = s.busy := rfl
@[simp] theorem State.drawn_sum (s : State) :
    s.drawn.sum = s.sum := rfl
@[simp] theorem State.drawn_cnt (s : State) :
    s.drawn.cnt = s.cnt := rfl
@[simp] theorem State.drawn_rnd (s : State) :
    s.drawn.rnd = s.rnd := rfl
@[simp] theorem State.drawn_polls (s : State) :
    s.drawn.polls = s.polls := rfl
@[simp] theorem State.drawn_readings (s : State) :
    s.drawn.readings = s.readings := rfl
@[simp] theorem State.drawn_job (s : State) :
    s.drawn.job = s.job := rfl
@[simp] theorem State.drawn_pending (s : State) :
    s.drawn.pending = s.pending := rfl
@[simp] theorem State.drawn_opr (s : State) :
    s.drawn.opr = s.opr := rfl
@[simp] theorem State.drawn_res (s : State) :
    s.drawn.res = s.res := rfl
@[simp] theorem State.drawn_par (s : State) :
    s.drawn.par = s.par := rfl
@[simp] theorem State.drawn_host (s : State) :
    s.drawn.host = s.host := rfl
@[simp] theorem State.drawn_answers (s : State) :
    s.drawn.answers = s.answers := rfl
@[simp] theorem State.drawn_trace (s : State) :
    s.drawn.trace = s.trace := rfl
@[simp] theorem State.drawn_draws (s : State) :
    s.drawn.draws = s.draws + 1 := rfl

@[simp] theorem State.keepReading_phase (s : State) (c : Channel) (r : Reading) :
    (s.keepReading c r).phase = s.phase := rfl
@[simp] theorem State.keepReading_sel (s : State) (c : Channel) (r : Reading) :
    (s.keepReading c r).sel = s.sel := rfl
@[simp] theorem State.keepReading_busy (s : State) (c : Channel) (r : Reading) :
    (s.keepReading c r).busy = s.busy := rfl
@[simp] theorem State.keepReading_sum (s : State) (c : Channel) (r : Reading) :
    (s.keepReading c r).sum = s.sum := rfl
@[simp] theorem State.keepReading_cnt (s : State) (c : Channel) (r : Reading) :
    (s.keepReading c r).cnt = s.cnt := rfl
@[simp] theorem State.keepReading_rnd (s : State) (c : Channel) (r : Reading) :
    (s.keepReading c r).rnd = s.rnd := rfl
@[simp] theorem State.keepReading_polls (s : State) (c : Channel) (r : Reading) :
    (s.keepReading c r).polls = s.polls := rfl
@[simp] theorem State.keepReading_readings (s : State) (c : Channel) (r : Reading) :
    (s.keepReading c r).readings = s.readings.set c r := rfl
@[simp] theorem State.keepReading_job (s : State) (c : Channel) (r : Reading) :
    (s.keepReading c r).job = s.job := rfl
@[simp] theorem State.keepReading_pending (s : State) (c : Channel) (r : Reading) :
    (s.keepReading c r).pending = s.pending := rfl
@[simp] theorem State.keepReading_opr (s : State) (c : Channel) (r : Reading) :
    (s.keepReading c r).opr = s.opr := rfl
@[simp] theorem State.keepReading_res (s : State) (c : Channel) (r : Reading) :
    (s.keepReading c r).res = s.res := rfl
@[simp] theorem State.keepReading_par (s : State) (c : Channel) (r : Reading) :
    (s.keepReading c r).par = s.par := rfl
@[simp] theorem State.keepReading_host (s : State) (c : Channel) (r : Reading) :
    (s.keepReading c r).host = s.host := rfl
@[simp] theorem State.keepReading_answers (s : State) (c : Channel) (r : Reading) :
    (s.keepReading c r).answers = s.answers := rfl
@[simp] theorem State.keepReading_trace (s : State) (c : Channel) (r : Reading) :
    (s.keepReading c r).trace = s.trace := rfl
@[simp] theorem State.keepReading_draws (s : State) (c : Channel) (r : Reading) :
    (s.keepReading c r).draws = s.draws := rfl

@[simp] theorem State.beginPolls_phase (s : State) :
    s.beginPolls.phase = s.phase := rfl
@[simp] theorem State.beginPolls_sel (s : State) :
    s.beginPolls.sel = s.sel := rfl
@[simp] theorem State.beginPolls_busy (s : State) :
    s.beginPolls.busy = s.busy := rfl
@[simp] theorem State.beginPolls_sum (s : State) :
    s.beginPolls.sum = s.sum := rfl
@[simp] theorem State.beginPolls_cnt (s : State) :
    s.beginPolls.cnt = s.cnt := rfl
@[simp] theorem State.beginPolls_rnd (s : State) :
    s.beginPolls.rnd = s.rnd := rfl
@[simp] theorem State.beginPolls_polls (s : State) :
    s.beginPolls.polls = 0 := rfl
@[simp] theorem State.beginPolls_readings (s : State) :
    s.beginPolls.readings = s.readings := rfl
@[simp] theorem State.beginPolls_job (s : State) :
    s.beginPolls.job = s.job := rfl
@[simp] theorem State.beginPolls_pending (s : State) :
    s.beginPolls.pending = .frame statusFrame := rfl
@[simp] theorem State.beginPolls_opr (s : State) :
    s.beginPolls.opr = s.opr := rfl
@[simp] theorem State.beginPolls_res (s : State) :
    s.beginPolls.res = s.res := rfl
@[simp] theorem State.beginPolls_par (s : State) :
    s.beginPolls.par = s.par := rfl
@[simp] theorem State.beginPolls_host (s : State) :
    s.beginPolls.host = s.host := rfl
@[simp] theorem State.beginPolls_answers (s : State) :
    s.beginPolls.answers = s.answers := rfl
@[simp] theorem State.beginPolls_trace (s : State) :
    s.beginPolls.trace = s.trace := rfl
@[simp] theorem State.beginPolls_draws (s : State) :
    s.beginPolls.draws = s.draws := rfl

@[simp] theorem State.present_phase (s : State) (o : Opr) (rest : List HostAction) :
    (s.present o rest).phase = s.phase := rfl
@[simp] theorem State.present_sel (s : State) (o : Opr) (rest : List HostAction) :
    (s.present o rest).sel = s.sel := rfl
@[simp] theorem State.present_busy (s : State) (o : Opr) (rest : List HostAction) :
    (s.present o rest).busy = s.busy := rfl
@[simp] theorem State.present_sum (s : State) (o : Opr) (rest : List HostAction) :
    (s.present o rest).sum = s.sum := rfl
@[simp] theorem State.present_cnt (s : State) (o : Opr) (rest : List HostAction) :
    (s.present o rest).cnt = s.cnt := rfl
@[simp] theorem State.present_rnd (s : State) (o : Opr) (rest : List HostAction) :
    (s.present o rest).rnd = s.rnd := rfl
@[simp] theorem State.present_polls (s : State) (o : Opr) (rest : List HostAction) :
    (s.present o rest).polls = s.polls := rfl
@[simp] theorem State.present_readings (s : State) (o : Opr) (rest : List HostAction) :
    (s.present o rest).readings = s.readings := rfl
@[simp] theorem State.present_job (s : State) (o : Opr) (rest : List HostAction) :
    (s.present o rest).job = s.job := rfl
@[simp] theorem State.present_pending (s : State) (o : Opr) (rest : List HostAction) :
    (s.present o rest).pending = s.pending := rfl
@[simp] theorem State.present_opr (s : State) (o : Opr) (rest : List HostAction) :
    (s.present o rest).opr = o := rfl
@[simp] theorem State.present_res (s : State) (o : Opr) (rest : List HostAction) :
    (s.present o rest).res = s.res := rfl
@[simp] theorem State.present_par (s : State) (o : Opr) (rest : List HostAction) :
    (s.present o rest).par = s.par := rfl
@[simp] theorem State.present_host (s : State) (o : Opr) (rest : List HostAction) :
    (s.present o rest).host = rest := rfl
@[simp] theorem State.present_answers (s : State) (o : Opr) (rest : List HostAction) :
    (s.present o rest).answers = s.answers := rfl
@[simp] theorem State.present_trace (s : State) (o : Opr) (rest : List HostAction) :
    (s.present o rest).trace = s.trace := rfl
@[simp] theorem State.present_draws (s : State) (o : Opr) (rest : List HostAction) :
    (s.present o rest).draws = s.draws := rfl

@[simp] theorem State.completeRead_phase (s : State) (len : BitVec 3) (rx : Rx) :
    (s.completeRead len rx).phase = s.phase := rfl
@[simp] theorem State.completeRead_sel (s : State) (len : BitVec 3) (rx : Rx) :
    (s.completeRead len rx).sel = s.sel := rfl
@[simp] theorem State.completeRead_busy (s : State) (len : BitVec 3) (rx : Rx) :
    (s.completeRead len rx).busy = false := rfl
@[simp] theorem State.completeRead_sum (s : State) (len : BitVec 3) (rx : Rx) :
    (s.completeRead len rx).sum = s.sum := rfl
@[simp] theorem State.completeRead_cnt (s : State) (len : BitVec 3) (rx : Rx) :
    (s.completeRead len rx).cnt = s.cnt := rfl
@[simp] theorem State.completeRead_rnd (s : State) (len : BitVec 3) (rx : Rx) :
    (s.completeRead len rx).rnd = s.rnd := rfl
@[simp] theorem State.completeRead_polls (s : State) (len : BitVec 3) (rx : Rx) :
    (s.completeRead len rx).polls = s.polls := rfl
@[simp] theorem State.completeRead_readings (s : State) (len : BitVec 3) (rx : Rx) :
    (s.completeRead len rx).readings = s.readings := rfl
@[simp] theorem State.completeRead_job (s : State) (len : BitVec 3) (rx : Rx) :
    (s.completeRead len rx).job = .none := rfl
@[simp] theorem State.completeRead_pending (s : State) (len : BitVec 3) (rx : Rx) :
    (s.completeRead len rx).pending = .none := rfl
@[simp] theorem State.completeRead_opr (s : State) (len : BitVec 3) (rx : Rx) :
    (s.completeRead len rx).opr = s.opr := rfl
@[simp] theorem State.completeRead_res (s : State) (len : BitVec 3) (rx : Rx) :
    (s.completeRead len rx).res =
      { Res.empty with rdata := some (placeRead rx.data len.toNat), rlen := some len, code := some codeOk } := rfl
@[simp] theorem State.completeRead_par (s : State) (len : BitVec 3) (rx : Rx) :
    (s.completeRead len rx).par = s.par := rfl
@[simp] theorem State.completeRead_host (s : State) (len : BitVec 3) (rx : Rx) :
    (s.completeRead len rx).host = s.host := rfl
@[simp] theorem State.completeRead_answers (s : State) (len : BitVec 3) (rx : Rx) :
    (s.completeRead len rx).answers = s.answers := rfl
@[simp] theorem State.completeRead_trace (s : State) (len : BitVec 3) (rx : Rx) :
    (s.completeRead len rx).trace = s.trace := rfl
@[simp] theorem State.completeRead_draws (s : State) (len : BitVec 3) (rx : Rx) :
    (s.completeRead len rx).draws = s.draws := rfl

@[simp] theorem State.statusPhase_sel (s : State) (done : BitVec 1) : (s.statusPhase done).sel = s.sel := by
  unfold State.statusPhase; split <;> rfl
@[simp] theorem State.statusPhase_busy (s : State) (done : BitVec 1) : (s.statusPhase done).busy = s.busy := by
  unfold State.statusPhase; split <;> rfl
@[simp] theorem State.statusPhase_sum (s : State) (done : BitVec 1) : (s.statusPhase done).sum = s.sum := by
  unfold State.statusPhase; split <;> rfl
@[simp] theorem State.statusPhase_cnt (s : State) (done : BitVec 1) : (s.statusPhase done).cnt = s.cnt := by
  unfold State.statusPhase; split <;> rfl
@[simp] theorem State.statusPhase_rnd (s : State) (done : BitVec 1) : (s.statusPhase done).rnd = s.rnd := by
  unfold State.statusPhase; split <;> rfl
@[simp] theorem State.statusPhase_polls (s : State) (done : BitVec 1) : (s.statusPhase done).polls = s.polls := by
  unfold State.statusPhase; split <;> rfl
@[simp] theorem State.statusPhase_readings (s : State) (done : BitVec 1) :
    (s.statusPhase done).readings = s.readings := by
  unfold State.statusPhase; split <;> rfl
@[simp] theorem State.statusPhase_job (s : State) (done : BitVec 1) : (s.statusPhase done).job = s.job := by
  unfold State.statusPhase; split <;> rfl
@[simp] theorem State.statusPhase_pending (s : State) (done : BitVec 1) : (s.statusPhase done).pending = s.pending := by
  unfold State.statusPhase; split <;> rfl
@[simp] theorem State.statusPhase_opr (s : State) (done : BitVec 1) : (s.statusPhase done).opr = s.opr := by
  unfold State.statusPhase; split <;> rfl
@[simp] theorem State.statusPhase_res (s : State) (done : BitVec 1) : (s.statusPhase done).res = s.res := by
  unfold State.statusPhase; split <;> rfl
@[simp] theorem State.statusPhase_par (s : State) (done : BitVec 1) : (s.statusPhase done).par = s.par := by
  unfold State.statusPhase; split <;> rfl
@[simp] theorem State.statusPhase_host (s : State) (done : BitVec 1) : (s.statusPhase done).host = s.host := by
  unfold State.statusPhase; split <;> rfl
@[simp] theorem State.statusPhase_answers (s : State) (done : BitVec 1) : (s.statusPhase done).answers = s.answers := by
  unfold State.statusPhase; split <;> rfl
@[simp] theorem State.statusPhase_trace (s : State) (done : BitVec 1) : (s.statusPhase done).trace = s.trace := by
  unfold State.statusPhase; split <;> rfl
@[simp] theorem State.statusPhase_draws (s : State) (done : BitVec 1) : (s.statusPhase done).draws = s.draws := by
  unfold State.statusPhase; split <;> rfl
@[simp] theorem State.statusPhase_phase (s : State) (done : BitVec 1) :
    (s.statusPhase done).phase = if s.phase = phaseConverting ∧ done = 1 then phaseDone else s.phase := by
  unfold State.statusPhase; split <;> rfl

end Sys2Proof.Machine
end

