-- ==== Sys2Proof/Tests/Slice0.lean ====
section
/-! SUPPORT. The author's own tests. Expected values come from spec/95_test_vectors.md (written TV below, with its part)
and from the encodings of spec/30_encoding.md; each meaning is tested by one step on a small state. -/

open Sys2Proof Sys2Proof.Machine

namespace Sys2Proof.Tests

/-! ## Helpers -/

/-- The state an outcome carries, or the reset state where it carries none. -/
def after : Out → State
  | .next s => s
  | _ => State.reset

/-- The default type identifiers (R101). -/
def ids : TypeIds := Config.defaultTypeIds

/-- Small parameters for the tests. -/
def par : Params :=
  { pollMax := 3, roundMax := 4, mpollMax := none, mroundMax := none, pollDelay := 0
    rtdExc := Config.defaultRtdExc 0, terrW := 32, typeIds := ids }

/-- Another instance: payloads of 8 bits, finite bounds on the multi-channel path, other type identifiers, two of them
the same. -/
def otherPar : Params :=
  { par with
    mpollMax := some 2, mroundMax := some 0, terrW := 8, rtdExc := Config.defaultRtdExc 1
    typeIds := { ids with tc := ids.tc.set 1 30, rtd := ids.rtd.set 0 30, diode := 31 } }

/-- An idle block with small parameters. -/
def idle : State := { State.reset with par := par }

/-- What a transfer of seven bytes receives: three discarded bytes and four data bytes. -/
def rx (d0 d1 d2 d3 : Byte) : Rx := { f0 := 0xAA, f1 := 0xBB, f2 := 0xCC, d0 := d0, d1 := d1, d2 := d2, d3 := d3 }

/-- A block inside an operation, with one answer of the transport waiting. -/
def inside (job : Job) (p : Pending) (a : Answer) : State :=
  { idle with busy := true, job := job, pending := p, answers := [a] }

/-- The channel set of some channel numbers. -/
def chset (l : List Nat) : ChSet := l.foldl (fun m n => m ||| 1#20 <<< (n - 1)) 0

/-- An operand record in which every field is different. -/
def fullOpr : Opr :=
  { op := 0, ch := 3, chset := 0x80005, fval := 0x3F800001, k := 10, raw := 0x006400, err := 0x81, addr := 0x1234, len := 2,
    wdata := 0xAABBCCDD, sub := 5, cj := 7, sgl := 1, oc := 6, cptr := 0x123, rs := 9, wires := 2, ext := 1, rot := 0,
    cur := 4, curve := 3, rd3 := 1, avg := 0, dcur := 2, idfEn := 1, target := 0x0102 }

/-- Thermocouple operands of `fullOpr`. -/
def fullTc : TcFields := { cj := 7, sgl := 1, oc := 6, cptr := 0x123 }

/-- RTD operands of `fullOpr`. -/
def fullRtd : RtdOperands := { rs := 9, wires := 2, ext := 1, rot := 0, cur := 4, curve := 3, cptr := 0x123 }

/-- Diode operands of `fullOpr`. -/
def fullDiode : DiodeOperands := { sgl := 1, rd3 := 1, avg := 0, dcur := 2, idfEn := 1, fval := 0x3F800001 }

/-- Legal thermocouple operands, at the ends of their ranges. -/
def tcMax : TcFields := { cj := 20, sgl := 1, oc := 7, cptr := 0xFFF }

/-- Legal RTD operands, at the ends of their ranges (TV 2.5, PT1000). -/
def rtdMax : RtdOperands := { rs := 20, wires := 3, ext := 1, rot := 1, cur := 8, curve := 3, cptr := 0xFFF }

/-- Legal RTD operands, at the low ends of their ranges (TV 2.5, PT10). -/
def rtdMin : RtdOperands := { rs := 2, wires := 0, ext := 0, rot := 0, cur := 1, curve := 0, cptr := 0 }

/-! ## Well-formedness: each check refuses an ill-formed term -/

theorem test_illFormed_ch_0 : WellFormed (.start 0) = false := by decide
theorem test_illFormed_ch_21 : WellFormed (.rdtemp 21) = false := by decide
theorem test_illFormed_chmap_ch : WellFormed (.chmap 0) = false := by decide
theorem test_illFormed_avg_ch : WellFormed (.avg 31 1) = false := by decide
theorem test_illFormed_cj_21 : WellFormed (.enctc 0 { cj := 21, sgl := 0, oc := 0, cptr := 0 }) = false := by decide
theorem test_illFormed_oc_3 : WellFormed (.enctc 0 { cj := 0, sgl := 0, oc := 3, cptr := 0 }) = false := by decide
theorem test_illFormed_rs_1 : WellFormed (.encrtd 2 { rtdMin with rs := 1 }) = false := by decide
theorem test_illFormed_rs_21 : WellFormed (.encrtd 2 { rtdMin with rs := 21 }) = false := by decide
theorem test_illFormed_cur_0 : WellFormed (.encrtd 2 { rtdMin with cur := 0 }) = false := by decide
theorem test_illFormed_cur_9 : WellFormed (.encrtd 2 { rtdMin with cur := 9 }) = false := by decide
theorem test_illFormed_cfgtc_ch : WellFormed (.cfgtc 0 0 tcMax) = false := by decide
theorem test_illFormed_cfgrtd_rs : WellFormed (.cfgrtd 4 2 { rtdMin with rs := 1 }) = false := by decide
theorem test_illFormed_cfgdio_ch : WellFormed (.cfgdio 21 fullDiode) = false := by decide
theorem test_illFormed_cfgrs_ch : WellFormed (.cfgrs 0 0) = false := by decide
theorem test_illFormed_wrreg_len : WellFormed (.wrreg 0 5 0) = false := by decide
theorem test_illFormed_rdreg_len : WellFormed (.rdreg 0x10 7) = false := by decide
theorem test_illFormed_wWrite_five_bytes : WellFormed (.wWrite 0x1234 [1, 2, 3, 4, 5]) = false := by decide
theorem test_illFormed_wWrite_is_start : WellFormed (.wWrite 0 [0x84]) = false := by decide
theorem test_illFormed_wWrite_is_mask : WellFormed (.wWrite 0x00F4 [0x00, 0x08, 0x00, 0x05]) = false := by decide
theorem test_illFormed_wWrite_is_cfg : WellFormed (.wWrite 0x0210 [0x10, 0xB4, 0x00, 0x00]) = false := by decide
theorem test_illFormed_wRead_len : WellFormed (.wRead 0x1234 5) = false := by decide
theorem test_illFormed_wRead_is_status : WellFormed (.wRead 0 1) = false := by decide
theorem test_illFormed_wRead_is_result : WellFormed (.wRead 0x0018 4) = false := by decide
theorem test_illFormed_fStart_21 : WellFormed (.fStart 21) = false := by decide
theorem test_illFormed_fCfg_20 : WellFormed (.fCfg 20 0) = false := by decide
theorem test_illFormed_fResultRd_3 : WellFormed (.fResultRd 3) = false := by decide
theorem test_illFormed_fResultRd_24 : WellFormed (.fResultRd 24) = false := by decide
theorem test_illFormed_tcWord_oc : WellFormed (.cfgwordTcK { cj := 0, sgl := 0, oc := 1, cptr := 0 }) = false := by decide
theorem test_illFormed_tcWord_cj : WellFormed (.cfgwordTcB { cj := 31, sgl := 0, oc := 0, cptr := 0 }) = false := by decide
theorem test_illFormed_rtdWord_rs : WellFormed (.cfgwordRtdPt100 { rs := 0, wires := 0, exc := 0, cur := 1, curve := 0, cptr := 0 }) = false := by decide
theorem test_illFormed_rtdWord_cur : WellFormed (.cfgwordRtdNi120 { rs := 2, wires := 0, exc := 0, cur := 15, curve := 0, cptr := 0 }) = false := by decide

/-- The ends of the legal ranges are well formed (R26). -/
theorem test_wellFormed_bounds :
    WellFormed (.cfgtc 20 7 tcMax) = true ∧ WellFormed (.cfgrtd 1 5 rtdMax) = true ∧ WellFormed (.encrtd 0 rtdMin) = true ∧
      WellFormed (.fStart 20) = true ∧ WellFormed (.fCfg 19 0) = true ∧ WellFormed (.fResultRd 23) = true ∧
      WellFormed (.wRead 0xFFFF 4) = true ∧ WellFormed (.wWrite 0 [0xA4]) = true := by decide

/-! ## Decoding: every row, from a word written out by its encoding -/

theorem test_decode_encq : decode ids (.port { fullOpr with op := 0x01 }) = .ok (.encq 0x3F800001 10) := by decide
theorem test_decode_encidf : decode ids (.port { fullOpr with op := 0x02 }) = .ok (.encidf 0x3F800001) := by decide
theorem test_decode_decq : decode ids (.port { fullOpr with op := 0x03 }) = .ok (.decq 0x006400) := by decide
theorem test_decode_classify : decode ids (.port { fullOpr with op := 0x04 }) = .ok (.classify 0x81 0x006400) := by decide
theorem test_decode_chmap : decode ids (.port { fullOpr with op := 0x05 }) = .ok (.chmap 3) := by decide
theorem test_decode_mkmask : decode ids (.port { fullOpr with op := 0x06 }) = .ok (.mkmask 0x80005) := by decide
theorem test_decode_enctc : decode ids (.port { fullOpr with op := 0x07 }) = .ok (.enctc 5 fullTc) := by decide
theorem test_decode_encrtd : decode ids (.port { fullOpr with op := 0x08 }) = .ok (.encrtd 5 fullRtd) := by decide
theorem test_decode_encdio : decode ids (.port { fullOpr with op := 0x09 }) = .ok (.encdio fullDiode) := by decide
theorem test_decode_encrs : decode ids (.port { fullOpr with op := 0x0A }) = .ok (.encrs 0x3F800001) := by decide
theorem test_decode_cfgtc : decode ids (.port { fullOpr with op := 0x0B }) = .ok (.cfgtc 3 5 fullTc) := by decide
theorem test_decode_cfgrtd : decode ids (.port { fullOpr with op := 0x0C }) = .ok (.cfgrtd 3 5 fullRtd) := by decide
theorem test_decode_cfgdio : decode ids (.port { fullOpr with op := 0x0D }) = .ok (.cfgdio 3 fullDiode) := by decide
theorem test_decode_cfgrs : decode ids (.port { fullOpr with op := 0x0E }) = .ok (.cfgrs 3 0x3F800001) := by decide
theorem test_decode_wrreg : decode ids (.port { fullOpr with op := 0x0F }) = .ok (.wrreg 0x1234 2 0xAABBCCDD) := by decide
theorem test_decode_rdreg : decode ids (.port { fullOpr with op := 0x10 }) = .ok (.rdreg 0x1234 2) := by decide
theorem test_decode_start : decode ids (.port { fullOpr with op := 0x11 }) = .ok (.start 3) := by decide
theorem test_decode_startm : decode ids (.port { fullOpr with op := 0x12 }) = .ok (.startm 0x80005) := by decide
theorem test_decode_status : decode ids (.port { fullOpr with op := 0x13 }) = .ok (.status) := by decide
theorem test_decode_rdtemp : decode ids (.port { fullOpr with op := 0x14 }) = .ok (.rdtemp 3) := by decide
theorem test_decode_rdtempm : decode ids (.port { fullOpr with op := 0x15 }) = .ok (.rdtempm 0x80005) := by decide
theorem test_decode_avg : decode ids (.port { fullOpr with op := 0x16 }) = .ok (.avg 3 0x0102) := by decide
theorem test_decode_avgm : decode ids (.port { fullOpr with op := 0x17 }) = .ok (.avgm 0x80005 0x0102) := by decide

theorem test_decode_wWrite : decodeTableWord 24 0x021234 = some (.wWrite 0x1234 []) := by decide
theorem test_decode_wRead : decodeTableWord 24 0x031234 = some (.wRead 0x1234 0) := by decide
theorem test_decode_fStart : decodeTableWord 32 0x02000084 = some (.fStart 4) := by decide
theorem test_decode_fMask : decodeTableWord 56 0x0200F400080005 = some (.fMask 0x80005) := by decide
theorem test_decode_fCfg : decodeTableWord 56 0x02021010B40000 = some (.fCfg 4 0x10B40000) := by decide
theorem test_decode_fStatusRd : decodeTableWord 32 0x03000000 = some (.fStatusRd) := by decide
theorem test_decode_fResultRd : decodeTableWord 56 0x03001800000000 = some (.fResultRd 6) := by decide
theorem test_decode_statusByte : decodeTableWord 8 0xE5 = some (.statusByte 1 1 1 5) := by decide
theorem test_decode_resultWord : decodeTableWord 32 0x01006400 = some (.resultWord 0x01 0x006400) := by decide
theorem test_decode_cfgwordTcJ : decodeTableWord 32 0x08000000 = some (.cfgwordTcJ { cj := 0, sgl := 0, oc := 0, cptr := 0 }) := by decide
theorem test_decode_cfgwordTcK : decodeTableWord 32 0x10B40000 = some (.cfgwordTcK { cj := 2, sgl := 1, oc := 5, cptr := 0 }) := by decide
theorem test_decode_cfgwordTcE : decodeTableWord 32 0x18200000 = some (.cfgwordTcE { cj := 0, sgl := 1, oc := 0, cptr := 0 }) := by decide
theorem test_decode_cfgwordTcN : decodeTableWord 32 0x20580000 = some (.cfgwordTcN { cj := 1, sgl := 0, oc := 6, cptr := 0 }) := by decide
theorem test_decode_cfgwordTcR : decodeTableWord 32 0x2AB00800 = some (.cfgwordTcR { cj := 10, sgl := 1, oc := 4, cptr := 0x800 }) := by decide
theorem test_decode_cfgwordTcS : decodeTableWord 32 0x35000001 = some (.cfgwordTcS { cj := 20, sgl := 0, oc := 0, cptr := 1 }) := by decide
theorem test_decode_cfgwordTcT : decodeTableWord 32 0x39100041 = some (.cfgwordTcT { cj := 4, sgl := 0, oc := 4, cptr := 0x041 }) := by decide
theorem test_decode_cfgwordTcB : decodeTableWord 32 0x453C0FFF = some (.cfgwordTcB { cj := 20, sgl := 1, oc := 7, cptr := 0xFFF }) := by decide
theorem test_decode_cfgwordRtdPt10 : decodeTableWord 32 0x50804000 = some (.cfgwordRtdPt10 { rs := 2, wires := 0, exc := 0, cur := 1, curve := 0, cptr := 0 }) := by decide
theorem test_decode_cfgwordRtdPt50 : decodeTableWord 32 0x58F49123 = some (.cfgwordRtdPt50 { rs := 3, wires := 3, exc := 1, cur := 2, curve := 1, cptr := 0x123 }) := by decide
theorem test_decode_cfgwordRtdPt100 : decodeTableWord 32 0x60A14000 = some (.cfgwordRtdPt100 { rs := 2, wires := 2, exc := 0, cur := 5, curve := 0, cptr := 0 }) := by decide
theorem test_decode_cfgwordRtdPt200 : decodeTableWord 32 0x6884C000 = some (.cfgwordRtdPt200 { rs := 2, wires := 0, exc := 1, cur := 3, curve := 0, cptr := 0 }) := by decide
theorem test_decode_cfgwordRtdPt500 : decodeTableWord 32 0x74E9B000 = some (.cfgwordRtdPt500 { rs := 19, wires := 2, exc := 2, cur := 6, curve := 3, cptr := 0 }) := by decide
theorem test_decode_cfgwordRtdPt1000 : decodeTableWord 32 0x7D3E3FFF = some (.cfgwordRtdPt1000 { rs := 20, wires := 3, exc := 3, cur := 8, curve := 3, cptr := 0xFFF }) := by decide
theorem test_decode_cfgwordRtd1000Ohm : decodeTableWord 32 0x8155E000 = some (.cfgwordRtd1000Ohm { rs := 5, wires := 1, exc := 1, cur := 7, curve := 2, cptr := 0 }) := by decide
theorem test_decode_cfgwordRtdNi120 : decodeTableWord 32 0x89A92000 = some (.cfgwordRtdNi120 { rs := 6, wires := 2, exc := 2, cur := 4, curve := 2, cptr := 0 }) := by decide
theorem test_decode_cfgwordDiode : decodeTableWord 32 0xE7500C4A = some (.cfgwordDiode { sgl := 1, rd3 := 1, avg := 1, dcur := 1, idf := 0x100C4A }) := by decide
theorem test_decode_cfgwordSense : decodeTableWord 32 0xE80FA000 = some (.cfgwordSense 0x00FA000) := by decide

/-- A write of four data bytes, a read of two, and frames of the special rows' addresses with other contents. -/
theorem test_decode_general_frames :
    decodeWire [0x02, 0x02, 0x01, 0xAA, 0xBB, 0xCC] = .ok (.wWrite 0x0201 [0xAA, 0xBB, 0xCC]) ∧
      decodeWire [0x03, 0xFF, 0xFF, 0x00, 0x00] = .ok (.wRead 0xFFFF 2) ∧
      decodeWire [0x02, 0x00, 0x00, 0xA4] = .ok (.wWrite 0 [0xA4]) ∧
      decodeWire [0x02, 0x00, 0xF4, 0x00, 0x10, 0x00, 0x00] = .ok (.wWrite 0x00F4 [0x00, 0x10, 0x00, 0x00]) := by decide

/-- What is no row is rejected by name (R93, R120, R122, R123, R124). -/
theorem test_decode_rejects :
    decode ids (.port fullOpr) = .error (.illegalOperation 0x00) ∧
      decode ids (.port { fullOpr with op := 0x18 }) = .error (.illegalOperation 0x18) ∧
      decodeWire [0x02, 0x00] = .error .shortFrame ∧ decodeWire [0x04, 0x00, 0x00] = .error (.notAFrame 0x04) ∧
      decodeWire [0x02, 0, 0, 1, 2, 3, 4, 5] = .error .longFrame ∧
      decodeWire [0x03, 0x00, 0x10, 0x01] = .error .nonzeroFiller ∧
      decode ids (.cfgWord 0x48000000) = .error (.reservedType 9) ∧ decode ids (.cfgWord 0x10001000) = .error .reservedBits := by
  decide

/-! ## Host operations: one step each -/

/-- TV 2.1: a tie rounds up; the wrap modulo `2^32` is silent. -/
theorem test_encq_tie_and_wrap :
    (after (exec (.encq 0x40200000 0) idle)).res.word = some 3 ∧
      (after (exec (.encq 0x501502F9 10) idle)).res.word = some 0x2F900000 := by decide

/-- TV 2.1: a NaN takes a draw, minus zero does not. -/
theorem test_encq_nan_is_a_draw :
    (after (exec (.encq 0x7FC00000 10) idle)).draws = 1 ∧
      (after (exec (.encq 0x80000000 10) idle)).draws = 0 := by decide

/-- TV 2.1. -/
theorem test_encidf_rounds_and_aliases :
    (after (exec (.encidf 0x3F80624E) idle)).res.word = some 0x100C4A ∧
      (after (exec (.encidf 0x40B00000) idle)).res.word = some 0x180000 := by decide

/-- TV 1.1, 2.2. -/
theorem test_decq :
    (after (exec (.decq 0xFBBB67) idle)).res.f = some 0xC3889320 ∧
      (after (exec (.decq 0x800000) idle)).res.f = some 0xC6000000 ∧ (after (exec (.decq 0x000001) idle)).res.f = some 0x3A800000 := by decide

/-- TV 2.2: bit 1 set, although bit 0 is set. -/
theorem test_classify_invalid :
    (after (exec (.classify 0x03 0x006400) idle)).res.tag = some 3 ∧
      (after (exec (.classify 0x03 0x006400) idle)).res.q = none := by decide

/-- TV 2.2. -/
theorem test_classify_suspect :
    (after (exec (.classify 0x81 0xFFFFFF) idle)).res.tag = some 2 ∧
      (after (exec (.classify 0x81 0xFFFFFF) idle)).res.f = some 0xBA800000 := by decide

/-- TV 1.2. -/
theorem test_chmap :
    (after (exec (.chmap 20) idle)).res.caddr = some 0x024C ∧
      (after (exec (.chmap 20) idle)).res.raddr = some 0x005C ∧ (after (exec (.chmap 20) idle)).res.selbit = some 0x00080000 := by decide

/-- TV 2.3. -/
theorem test_chmap_rejects :
    (after (exec (.chmap 21) idle)).res.code = some 4 ∧ (after (exec (.chmap 0) idle)).res.caddr = none := by decide

/-- TV 1.3. -/
theorem test_mkmask :
    (after (exec (.mkmask (chset [1, 3, 20])) idle)).res.word = some 0x00080005 := by decide

/-- TV 2.4, type R. -/
theorem test_enctc :
    (after (exec (.enctc 4 { cj := 10, sgl := 1, oc := 4, cptr := 0x800 }) idle)).res.word = some 0x2AB00800 := by decide

/-- TV 2.4. -/
theorem test_enctc_rejects :
    (after (exec (.enctc 1 { cj := 2, sgl := 1, oc := 3, cptr := 0 }) idle)).res.code = some 4 := by decide

/-- TV 2.5: NI120 keeps `rot` in a four-wire mode, PT100 drops it in three-wire. -/
theorem test_encrtd :
    (after (exec (.encrtd 7 { rs := 6, wires := 2, ext := 0, rot := 1, cur := 4, curve := 2, cptr := 0 }) idle)).res.word = some 0x89A92000 ∧
      (after (exec (.encrtd 2 { rs := 4, wires := 1, ext := 0, rot := 1, cur := 8, curve := 1, cptr := 0 }) idle)).res.word = some 0x61121000 := by decide

/-- TV 1.5. -/
theorem test_encrtd_rejects :
    (after (exec (.encrtd 2 { rs := 1, wires := 2, ext := 0, rot := 0, cur := 5, curve := 0, cptr := 0 }) idle)).res.code = some 4 := by decide

/-- TV 2.6: the factor aliases 1.5, the current is untouched. -/
theorem test_encdio :
    (after (exec (.encdio { sgl := 1, rd3 := 0, avg := 0, dcur := 3, idfEn := 1, fval := 0x40B00000 }) idle)).res.word = some 0xE4D80000 := by decide

/-- TV 2.6: `fval` is ignored. -/
theorem test_encdio_no_factor :
    (after (exec (.encdio { sgl := 0, rd3 := 0, avg := 1, dcur := 0, idfEn := 0, fval := 0x7FC00000 }) idle)).res.word = some 0xE1000000 ∧
      (after (exec (.encdio { sgl := 0, rd3 := 0, avg := 1, dcur := 0, idfEn := 0, fval := 0x7FC00000 }) idle)).draws = 0 := by decide

/-- TV 2.7. -/
theorem test_encrs :
    (after (exec (.encrs 0x48000040) idle)).res.word = some 0xE8000400 ∧
      (after (exec (.encrs 0x47FFFFFF) idle)).res.word = some 0xEFFFFFF8 := by decide

/-- TV 2.4. -/
theorem test_cfgtc :
    (after (exec (.cfgtc 5 1 { cj := 2, sgl := 1, oc := 5, cptr := 0 }) idle)).pending = .cfgWord 0x10B40000 ∧
      (after (exec (.cfgtc 5 1 { cj := 2, sgl := 1, oc := 5, cptr := 0 }) idle)).job = .cfg 4 := by decide

theorem test_cfgtc_rejects :
    (after (exec (.cfgtc 21 1 { cj := 2, sgl := 1, oc := 5, cptr := 0 }) idle)).res.code = some 4 ∧
      (after (exec (.cfgtc 5 1 { cj := 21, sgl := 1, oc := 5, cptr := 0 }) idle)).busy = false := by decide

/-- TV 2.5: channel 1 may be configured, not referred to. -/
theorem test_cfgrtd :
    (after (exec (.cfgrtd 1 2 { rs := 2, wires := 2, ext := 0, rot := 0, cur := 5, curve := 0, cptr := 0 }) idle)).pending = .cfgWord 0x60A14000 ∧
      (after (exec (.cfgrtd 4 2 { rs := 1, wires := 2, ext := 0, rot := 0, cur := 5, curve := 0, cptr := 0 }) idle)).res.code = some 4 := by decide

/-- TV 2.6. -/
theorem test_cfgdio :
    (after (exec (.cfgdio 8 { sgl := 1, rd3 := 1, avg := 1, dcur := 1, idfEn := 1, fval := 0x3F80624E }) idle)).pending = .cfgWord 0xE7500C4A := by decide

/-- TV 2.7. -/
theorem test_cfgrs :
    (after (exec (.cfgrs 2 0x447A0000) idle)).pending = .cfgWord 0xE80FA000 ∧
      (after (exec (.cfgrs 0 0x447A0000) idle)).res.code = some 4 := by decide

/-- TV 2.8. -/
theorem test_wrreg :
    (after (exec (.wrreg 0x0201 3 0xAABBCCDD) idle)).pending = .frame [0x02, 0x02, 0x01, 0xAA, 0xBB, 0xCC] ∧
      (after (exec (.wrreg 0x1234 0 0xFFFFFFFF) idle)).pending = .frame [0x02, 0x12, 0x34] := by decide

/-- TV 2.8. -/
theorem test_wrreg_rejects :
    (after (exec (.wrreg 0x0200 5 0) idle)).res.code = some 4 ∧ (after (exec (.rdreg 0x0010 7) idle)).res.code = some 4 := by decide

/-- TV 2.8. -/
theorem test_rdreg :
    (after (exec (.rdreg 0xFFFF 2) idle)).pending = .frame [0x03, 0xFF, 0xFF, 0x00, 0x00] := by decide

/-- TV 2.9: nothing is written before the frame has returned. -/
theorem test_start :
    (after (exec (.start 20) idle)).pending = .frame [0x02, 0x00, 0x00, 0x94] ∧ (after (exec (.start 20) idle)).phase = 0 ∧
      (after (exec (.start 0) idle)).res.code = some 4 := by decide

/-- TV 2.9. -/
theorem test_startm :
    (after (exec (.startm (chset [2, 4])) idle)).pending = .frame [0x02, 0x00, 0xF4, 0x00, 0x00, 0x00, 0x0A] := by decide

/-- TV 2.9. -/
theorem test_status :
    (after (exec (.status) idle)).pending = .frame [0x03, 0x00, 0x00, 0x00] := by decide

/-- TV 2.9. -/
theorem test_rdtemp :
    (after (exec (.rdtemp 20) idle)).pending = .frame [0x03, 0x00, 0x5C, 0x00, 0x00, 0x00, 0x00] := by decide

/-- TV 2.9. -/
theorem test_rdtempm :
    (after (exec (.rdtempm (chset [1, 3])) idle)).pending = .frame [0x03, 0x00, 0x10, 0x00, 0x00, 0x00, 0x00] ∧
      (after (exec (.rdtempm 0) idle)).res.code = some 0 := by decide

/-- TV P3. -/
theorem test_avg :
    (after (exec (.avg 3 2) idle)).pending = .frame [0x02, 0x00, 0x00, 0x83] ∧ (after (exec (.avg 3 2) idle)).rnd = 1 := by decide

/-- TV 2.10. -/
theorem test_avg_zero :
    (after (exec (.avg 3 0) idle)).res.sum = some 0 ∧ (after (exec (.avg 3 0) idle)).busy = false ∧
      (after (exec (.avg 0 1) idle)).res.code = some 4 := by decide

/-- TV P6. -/
theorem test_avgm :
    (after (exec (.avgm (chset [1, 2]) 2) idle)).pending = .frame [0x02, 0x00, 0xF4, 0x00, 0x00, 0x00, 0x03] := by decide

/-! ## Frames and data: one step each, inside the operation whose step it is -/

/-- TV 2.8: the transport's error is reported. -/
theorem test_wWrite_err :
    (after (exec (.wWrite 0x1234 []) (inside .wrreg .none (.err 0x2A)))).res.code = some 1 ∧
      (after (exec (.wWrite 0x1234 []) (inside .wrreg .none (.err 0x2A)))).res.info = some 0x2A := by decide

/-- TV 2.8. -/
theorem test_wRead :
    (after (exec (.wRead 0xFFFF 2) (inside .rdreg .none (.ok (rx 0x12 0x34 0x56 0x78))))).res.rdata = some 0x12340000 ∧
      (after (exec (.wRead 0x0010 0) (inside .rdreg .none (.ok (rx 0x12 0x34 0x56 0x78))))).res.rdata = some 0 := by decide

/-- TV 2.9. -/
theorem test_fStart :
    (after (exec (.fStart 20) (inside .start .none (.ok (rx 0 0 0 0))))).phase = 1 ∧
      (after (exec (.fStart 20) (inside .start .none (.ok (rx 0 0 0 0))))).sel = 20 ∧
      (after (exec (.fStart 20) (inside .start .none (.err 1)))).phase = 0 := by decide

/-- TV 2.8: a WRREG of the same bytes changes neither PHASE nor SEL. -/
theorem test_fStart_of_wrreg :
    (after (exec (.fStart 4) (inside .wrreg .none (.ok (rx 0 0 0 0))))).phase = 0 ∧
      (after (exec (.fStart 4) (inside .wrreg .none (.ok (rx 0 0 0 0))))).sel = 0 := by decide

/-- TV 2.9. -/
theorem test_fMask :
    (after (exec (.fMask (chset [1, 3, 20])) (inside .startm .none (.ok (rx 0 0 0 0))))).pending = .frame [0x02, 0x00, 0x00, 0x80] ∧
      (after (exec (.fMask (chset [1, 3, 20])) (inside .startm .none (.ok (rx 0 0 0 0))))).trace = [[0x02, 0x00, 0xF4, 0x00, 0x08, 0x00, 0x05]] := by decide

/-- TV 2.4. -/
theorem test_fCfg :
    (after (exec (.fCfg 4 0x10B40000) (inside (.cfg 4) .none (.ok (rx 0 0 0 0))))).res.word = some 0x10B40000 ∧
      (after (exec (.fCfg 4 0x10B40000) (inside (.cfg 4) .none (.ok (rx 0 0 0 0))))).trace = [[0x02, 0x02, 0x10, 0x10, 0xB4, 0x00, 0x00]] := by decide

/-- TV 2.9, 2.8. -/
theorem test_fStatusRd :
    (after (exec (.fStatusRd) (inside .status .none (.ok (rx 0xE5 0 0 0))))).pending = .statusByte 0xE5 ∧
      (after (exec (.fStatusRd) (inside .rdreg .none (.ok (rx 0x44 0x12 0 0))))).res.rdata = some 0x44000000 := by decide

/-- TV 2.9, 2.8: channel 3. -/
theorem test_fResultRd :
    (after (exec (.fResultRd 6) (inside .rdtemp .none (.ok (rx 0x01 0x00 0x64 0x00))))).pending = .resultWord 2 0x01006400 ∧
      (after (exec (.fResultRd 6) (inside .rdreg .none (.ok (rx 0x01 0x00 0x64 0x00))))).res.rdata = some 0x01006400 := by decide

/-- TV 2.9: bit 5 is ignored. -/
theorem test_statusByte :
    (after (exec (.statusByte 1 1 1 5) { idle with busy := true, job := .status, phase := 1 })).phase = 2 ∧
      (after (exec (.statusByte 1 1 1 5) { idle with busy := true, job := .status, phase := 1 })).res.stChsel = some 5 := by decide

/-- TV 2.9: no transition from IDLE. -/
theorem test_statusByte_from_idle :
    (after (exec (.statusByte 0 1 0 0) { idle with busy := true, job := .status })).phase = 0 := by decide

/-- TV 2.9. -/
theorem test_resultWord_rdtemp :
    (after (exec (.resultWord 0x10 0xFBBB67) { idle with busy := true, job := .rdtemp })).res.tag = some 2 ∧
      (after (exec (.resultWord 0x10 0xFBBB67) { idle with busy := true, job := .rdtemp })).res.f = some 0xC3889320 := by decide

/-- TV P3: the last round, and a round discarded. -/
theorem test_resultWord_avg :
    (after (exec (.resultWord 0x01 0x006C00) { idle with busy := true, job := .avg 2 2, cnt := 1, rnd := 3, sum := idle.sum.set 2 25600 })).res.meanF =
      some 0x41D00000 ∧
    (after (exec (.resultWord 0x00 0x006C00) { idle with busy := true, job := .avg 2 2, cnt := 1, rnd := 3, sum := idle.sum.set 2 25600 })).rnd = 4 := by decide

/-! ## Configuration words: the step inside a CFG operation frames the word (TV 2.4 to 2.7) -/

theorem test_cfgwordTcJ : (after (exec (.cfgwordTcJ { cj := 0, sgl := 0, oc := 0, cptr := 0 })
    { idle with busy := true, job := .cfg 7 })).pending =
      .frame [0x02, 0x02, 0x1C, 0x08, 0x00, 0x00, 0x00] := by decide

theorem test_cfgwordTcK : (after (exec (.cfgwordTcK { cj := 2, sgl := 1, oc := 5, cptr := 0 })
    { idle with busy := true, job := .cfg 7 })).pending =
      .frame [0x02, 0x02, 0x1C, 0x10, 0xB4, 0x00, 0x00] := by decide

theorem test_cfgwordTcE : (after (exec (.cfgwordTcE { cj := 0, sgl := 1, oc := 0, cptr := 0 })
    { idle with busy := true, job := .cfg 7 })).pending =
      .frame [0x02, 0x02, 0x1C, 0x18, 0x20, 0x00, 0x00] := by decide

theorem test_cfgwordTcN : (after (exec (.cfgwordTcN { cj := 1, sgl := 0, oc := 6, cptr := 0 })
    { idle with busy := true, job := .cfg 7 })).pending =
      .frame [0x02, 0x02, 0x1C, 0x20, 0x58, 0x00, 0x00] := by decide

theorem test_cfgwordTcR : (after (exec (.cfgwordTcR { cj := 10, sgl := 1, oc := 4, cptr := 0x800 })
    { idle with busy := true, job := .cfg 7 })).pending =
      .frame [0x02, 0x02, 0x1C, 0x2A, 0xB0, 0x08, 0x00] := by decide

theorem test_cfgwordTcS : (after (exec (.cfgwordTcS { cj := 20, sgl := 0, oc := 0, cptr := 1 })
    { idle with busy := true, job := .cfg 7 })).pending =
      .frame [0x02, 0x02, 0x1C, 0x35, 0x00, 0x00, 0x01] := by decide

theorem test_cfgwordTcT : (after (exec (.cfgwordTcT { cj := 4, sgl := 0, oc := 4, cptr := 0x041 })
    { idle with busy := true, job := .cfg 7 })).pending =
      .frame [0x02, 0x02, 0x1C, 0x39, 0x10, 0x00, 0x41] := by decide

theorem test_cfgwordTcB : (after (exec (.cfgwordTcB { cj := 20, sgl := 1, oc := 7, cptr := 0xFFF })
    { idle with busy := true, job := .cfg 7 })).pending =
      .frame [0x02, 0x02, 0x1C, 0x45, 0x3C, 0x0F, 0xFF] := by decide

theorem test_cfgwordRtdPt10 : (after (exec (.cfgwordRtdPt10 { rs := 2, wires := 0, exc := 0, cur := 1, curve := 0, cptr := 0 })
    { idle with busy := true, job := .cfg 7 })).pending =
      .frame [0x02, 0x02, 0x1C, 0x50, 0x80, 0x40, 0x00] := by decide

theorem test_cfgwordRtdPt50 : (after (exec (.cfgwordRtdPt50 { rs := 3, wires := 3, exc := 1, cur := 2, curve := 1, cptr := 0x123 })
    { idle with busy := true, job := .cfg 7 })).pending =
      .frame [0x02, 0x02, 0x1C, 0x58, 0xF4, 0x91, 0x23] := by decide

theorem test_cfgwordRtdPt100 : (after (exec (.cfgwordRtdPt100 { rs := 2, wires := 2, exc := 0, cur := 5, curve := 0, cptr := 0 })
    { idle with busy := true, job := .cfg 7 })).pending =
      .frame [0x02, 0x02, 0x1C, 0x60, 0xA1, 0x40, 0x00] := by decide

theorem test_cfgwordRtdPt200 : (after (exec (.cfgwordRtdPt200 { rs := 2, wires := 0, exc := 1, cur := 3, curve := 0, cptr := 0 })
    { idle with busy := true, job := .cfg 7 })).pending =
      .frame [0x02, 0x02, 0x1C, 0x68, 0x84, 0xC0, 0x00] := by decide

theorem test_cfgwordRtdPt500 : (after (exec (.cfgwordRtdPt500 { rs := 19, wires := 2, exc := 2, cur := 6, curve := 3, cptr := 0 })
    { idle with busy := true, job := .cfg 7 })).pending =
      .frame [0x02, 0x02, 0x1C, 0x74, 0xE9, 0xB0, 0x00] := by decide

theorem test_cfgwordRtdPt1000 : (after (exec (.cfgwordRtdPt1000 { rs := 20, wires := 3, exc := 3, cur := 8, curve := 3, cptr := 0xFFF })
    { idle with busy := true, job := .cfg 7 })).pending =
      .frame [0x02, 0x02, 0x1C, 0x7D, 0x3E, 0x3F, 0xFF] := by decide

theorem test_cfgwordRtd1000Ohm : (after (exec (.cfgwordRtd1000Ohm { rs := 5, wires := 1, exc := 1, cur := 7, curve := 2, cptr := 0 })
    { idle with busy := true, job := .cfg 7 })).pending =
      .frame [0x02, 0x02, 0x1C, 0x81, 0x55, 0xE0, 0x00] := by decide

theorem test_cfgwordRtdNi120 : (after (exec (.cfgwordRtdNi120 { rs := 6, wires := 2, exc := 2, cur := 4, curve := 2, cptr := 0 })
    { idle with busy := true, job := .cfg 7 })).pending =
      .frame [0x02, 0x02, 0x1C, 0x89, 0xA9, 0x20, 0x00] := by decide

theorem test_cfgwordDiode : (after (exec (.cfgwordDiode { sgl := 1, rd3 := 1, avg := 1, dcur := 1, idf := 0x100C4A })
    { idle with busy := true, job := .cfg 7 })).pending =
      .frame [0x02, 0x02, 0x1C, 0xE7, 0x50, 0x0C, 0x4A] := by decide

theorem test_cfgwordSense : (after (exec (.cfgwordSense 0x00FA000)
    { idle with busy := true, job := .cfg 7 })).pending =
      .frame [0x02, 0x02, 0x1C, 0xE8, 0x0F, 0xA0, 0x00] := by decide

/-! ## The step -/

/-- The host's record is put on the port and run; an unassigned code ends illegal (TV P5); reset is taken when idle. -/
theorem test_step_accepts :
    (after (step { idle with host := [.present { fullOpr with op := 0x11 }] })).pending = .frame [0x02, 0x00, 0x00, 0x83] ∧
      (after (step { idle with host := [.present { fullOpr with op := 0xFF }] })).res.code = some 5 ∧
      (after (step { idle with phase := 2, sel := 4, host := [.reset] })).sel = 0 := by decide

/-- The parameters are arguments (R8): another instance packs and reads its own type identifiers, and receives a payload
of its own width. -/
theorem test_other_instance :
    (after (exec (.encdio { fullDiode with idfEn := 0 }) { idle with par := otherPar })).res.word = some 0xFE800000 ∧
      decode otherPar.typeIds (.cfgWord 0xF0B40000) = .ok (.cfgwordTcK { cj := 2, sgl := 1, oc := 5, cptr := 0 }) ∧
      decode otherPar.typeIds (.cfgWord 0xF0804000) =
        .ok (.cfgwordRtdPt10 { rs := 2, wires := 0, exc := 0, cur := 1, curve := 0, cptr := 0 }) ∧
      decode otherPar.typeIds (.cfgWord 0x10B40000) = .error (.reservedType 2) ∧
      (after (step { inside .status (.frame statusBytes) (.err 0x12A) with par := otherPar })).res.info = some 0x2A := by
  decide

/-- A placed row is what the next step runs. -/
theorem test_withFetchWord :
    (after (step (idle.withFetchWord 32 0x02000084))).trace = [[0x02, 0x00, 0x00, 0x84]] ∧
      (after (step (idle.withFetchWord 8 0x13))).pending = .frame [0x03, 0x00, 0x00, 0x00] := by decide

/-! ## Witnesses: a state and operands that meet the hypotheses of each statement, at the ends of their ranges -/

/-- A block with the start frame of channel 20 handed to the transport. -/
def starting (answers : List Answer) : State :=
  { idle with busy := true, job := .start, pending := .frame [0x02, 0x00, 0x00, 0x94], answers := answers }

theorem witness_StepRunsTheDecodedInstruction :
    (idle.busy = false ∧ { idle with host := [.present { fullOpr with op := 0x17 }] }.host =
        .present { fullOpr with op := 0x17 } :: [] ∧
      decode ids (.port { fullOpr with op := 0x17 }) = .ok (.avgm 0x80005 0x0102)) ∧
    ((starting []).busy = true ∧ (starting []).pendingItem = some (.wire [0x02, 0x00, 0x00, 0x94]) ∧
      decode ids (.wire [0x02, 0x00, 0x00, 0x94]) = .ok (.fStart 20)) := by decide

theorem witness_UnassignedCodesEndIllegal :
    idle.busy = false ∧ { idle with host := [.present fullOpr] }.host = .present fullOpr :: [] ∧
      (fullOpr.op = 0 ∨ 0x18 ≤ fullOpr.op.toNat) ∧
      ({ fullOpr with op := 0x18 }.op = 0 ∨ 0x18 ≤ { fullOpr with op := 0x18 }.op.toNat) ∧
      ({ fullOpr with op := 0xFF }.op = 0 ∨ 0x18 ≤ { fullOpr with op := 0xFF }.op.toNat) := by decide

theorem witness_WaitingChangesNothing :
    ((starting []).busy = true ∧ (starting []).pending = .frame [0x02, 0x00, 0x00, 0x94] ∧
      decodeWire [0x02, 0x00, 0x00, 0x94] = .ok (.fStart 20) ∧ (starting []).answers = []) ∧
    (State.reset.busy = false ∧ State.reset.host = []) := by decide

theorem witness_TransportErrorEndsTheOperation :
    (starting [.err 0xFFFFFFFF]).busy = true ∧ (starting [.err 0xFFFFFFFF]).pending = .frame [0x02, 0x00, 0x00, 0x94] ∧
      decodeWire [0x02, 0x00, 0x00, 0x94] = .ok (.fStart 20) ∧
      (starting [.err 0xFFFFFFFF]).answers = .err 0xFFFFFFFF :: [] ∧
      0xFFFFFFFF < 2 ^ (starting [.err 0xFFFFFFFF]).par.terrW := by
  decide

/-- The steps of the statements over every step that goes on: one that ends an operation and adds a frame. -/
theorem witness_HostHasNoStepWhileBusy :
    (starting [.ok (rx 0 0 0 0)]).busy = true ∧
      step (starting [.ok (rx 0 0 0 0)]) = .next (after (step (starting [.ok (rx 0 0 0 0)]))) := ⟨rfl, rfl⟩

theorem witness_HistoryGrowsByOneWholeFrame :
    step (starting [.ok (rx 0 0 0 0)]) = .next (after (step (starting [.ok (rx 0 0 0 0)]))) ∧
      (after (step (starting [.ok (rx 0 0 0 0)]))).trace = (starting []).trace ++ [[0x02, 0x00, 0x00, 0x94]] :=
  ⟨rfl, by decide⟩

theorem witness_ParametersAreConstant :
    step (starting [.ok (rx 0 0 0 0)]) = .next (after (step (starting [.ok (rx 0 0 0 0)]))) := rfl

/-- A block that accepts an AVG with SUM, CNT and RND not zero. -/
def accepting : State :=
  { idle with host := [.present { fullOpr with op := 0x16 }], sum := idle.sum.set 2 5, cnt := 7, rnd := 9 }

theorem witness_WorkingRegistersBelongToAveraging :
    step accepting = .next (after (step accepting)) ∧ (after (step accepting)).cnt ≠ accepting.cnt :=
  ⟨rfl, by decide⟩

theorem witness_ResetInputGivesTheResetState :
    ({ idle with host := [.reset], phase := 2 }.busy = false ∧ { idle with host := [.reset], phase := 2 }.host = .reset :: []) ∧
    { starting [] with host := [.reset] }.busy = true ∧ { starting [] with host := [.reset] }.host = .reset :: [] ∧
    step { starting [] with host := [.reset] } = .next { starting [] with host := [.reset] } :=
  ⟨⟨rfl, rfl⟩, rfl, rfl, rfl⟩

/-- A block in the middle of a round of AVGM over channels 1 and 20, one round accumulated. -/
def averaging : State :=
  { idle with
    phase := 2, sel := 20, busy := true, job := .avgm 0x80001 2, pending := .frame (resultFrame 19)
    cnt := 1, rnd := 2, sum := (idle.sum.set 0 (BitVec.ofInt 40 (-8388608))).set 19 8388607
    answers := [.ok (rx 0x01 0x00 0x64 0x00)] }

theorem witness_InvariantKeptAndNoStop : ControlInv averaging :=
  ⟨by decide, by decide, by decide, .inr (.inr (.inr (.inr ⟨19, by decide, .inl rfl⟩)))⟩

theorem witness_SumsStayWithinTheirBound :
    LoopInv averaging ∧ step averaging = .next (after (step averaging)) :=
  ⟨⟨by decide, fun c _ => by revert c; unfold SumWithin; decide⟩, rfl⟩

theorem witness_ResultRecordStaysLegal :
    ResLegal par { Res.empty with code := some 5, tag := some 3, info := some 0xFFFFFFFF } ∧
      step { idle with res := { Res.empty with code := some 5, tag := some 3, info := some 0xFFFFFFFF } } =
        .next { idle with res := { Res.empty with code := some 5, tag := some 3, info := some 0xFFFFFFFF } } :=
  ⟨⟨by decide, by rintro x ⟨⟩; decide, by decide, by decide⟩, rfl⟩

theorem witness_PhaseAndSelFollowTheTable :
    step (starting [.ok (rx 0 0 0 0)]) = .next (after (step (starting [.ok (rx 0 0 0 0)]))) ∧
      (after (step (starting [.ok (rx 0 0 0 0)]))).phase = 1 ∧ (after (step (starting [.ok (rx 0 0 0 0)]))).sel = 20 :=
  ⟨rfl, by decide, by decide⟩

theorem witness_DecodeInvertsEncode :
    Config.defaultTypeIds.all.Nodup ∧ WellFormed (.fMask 0xFFFFF) = true ∧ WellFormed (.wWrite 0xFFFF [0xFF, 0xFF, 0xFF, 0xFF]) = true ∧
      WellFormed (.cfgwordRtdNi120 { rs := 20, wires := 3, exc := 3, cur := 8, curve := 3, cptr := 0xFFF }) = true := by
  decide

theorem witness_EncodeInvertsDecode :
    decode ids (.wire [0x02, 0x00, 0x00, 0x9F]) = .ok (.fStart 31) ∧
      decode ids (.wire [0x02, 0xFF, 0xFF]) = .ok (.wWrite 0xFFFF []) ∧
      decode ids (.cfgWord 0xEFFFFFFF) = .ok (.cfgwordSense 0x7FFFFFF) ∧
      ∀ o : Opr, Item.cfgWord 0xEFFFFFFF ≠ .port o :=
  ⟨by decide, by decide, by decide, fun _ => Item.noConfusion⟩

/-- The legal channels, both ends; the statements about an operation on a legal channel share it. -/
theorem witness_ChmapMapsEveryChannel :
    (1 ≤ (1#5).toNat ∧ (1#5).toNat ≤ 20) ∧ 1 ≤ (20#5).toNat ∧ (20#5).toNat ≤ 20 := by decide

theorem witness_EnctcWritesTheThermocoupleWord :
    (tcMax.cj.toNat ≤ 20 ∧ (tcMax.oc = 0 ∨ 4 ≤ tcMax.oc.toNat)) ∧
      ({ tcMax with oc := 4 }.cj.toNat ≤ 20 ∧ ({ tcMax with oc := 4 }.oc = 0 ∨ 4 ≤ { tcMax with oc := 4 }.oc.toNat)) ∧
      ({ tcMax with oc := 0 }.oc = 0 ∨ 4 ≤ { tcMax with oc := 0 }.oc.toNat) := by decide

theorem witness_EncrtdWritesTheRtdWord :
    ((2 ≤ rtdMin.rs.toNat ∧ rtdMin.rs.toNat ≤ 20) ∧ 1 ≤ rtdMin.cur.toNat ∧ rtdMin.cur.toNat ≤ 8) ∧
      ((2 ≤ rtdMax.rs.toNat ∧ rtdMax.rs.toNat ≤ 20) ∧ 1 ≤ rtdMax.cur.toNat ∧ rtdMax.cur.toNat ≤ 8) ∧
      par.rtdExc = Config.defaultRtdExc 0 ∧ otherPar.rtdExc = Config.defaultRtdExc 1 := by decide

theorem witness_IllegalOperandsAreRejected :
    ((0#5 = 0 ∨ 21 ≤ (0#5).toNat) ∧ (21#5 = 0 ∨ 21 ≤ (21#5).toNat) ∧ ((31#5 = 0) ∨ 21 ≤ (31#5).toNat)) ∧
      (21 ≤ (21#5).toNat ∨ 0#3 = 1 ∨ 0#3 = 2 ∨ 0#3 = 3) ∧ (21 ≤ (20#5).toNat ∨ 3#3 = 1 ∨ 3#3 = 2 ∨ 3#3 = 3) ∧
      (∀ r ∈ [0#5, 1, 21], r = 0 ∨ r = 1 ∨ 21 ≤ r.toNat) ∧ (∀ c ∈ [0#4, 9, 15], c = 0 ∨ 9 ≤ c.toNat) ∧
      5 ≤ (5#3).toNat ∧ 5 ≤ (7#3).toNat := by decide

theorem witness_CfgtcWritesTheConfigurationRegister :
    (1 ≤ (20#5).toNat ∧ (20#5).toNat ≤ 20) ∧ tcMax.cj.toNat ≤ 20 ∧ (tcMax.oc = 0 ∨ 4 ≤ tcMax.oc.toNat) := by decide

theorem witness_CfgrtdWritesTheConfigurationRegister :
    (1 ≤ (1#5).toNat ∧ (1#5).toNat ≤ 20) ∧ (2 ≤ rtdMax.rs.toNat ∧ rtdMax.rs.toNat ≤ 20) ∧
      1 ≤ rtdMax.cur.toNat ∧ rtdMax.cur.toNat ≤ 8 := by decide

theorem witness_CfgdioWritesTheConfigurationRegister : 1 ≤ (20#5).toNat ∧ (20#5).toNat ≤ 20 := by decide

theorem witness_CfgrsWritesTheConfigurationRegister : 1 ≤ (1#5).toNat ∧ (1#5).toNat ≤ 20 := by decide

theorem witness_WrregSendsItsBytes : (0#3).toNat ≤ 4 ∧ (4#3).toNat ≤ 4 := by decide

theorem witness_RdregReturnsLeftAlignedData : (0#3).toNat ≤ 4 ∧ (4#3).toNat ≤ 4 := by decide

theorem witness_StartConvertsTheChannel :
    (1 ≤ (1#5).toNat ∧ (1#5).toNat ≤ 20) ∧ (1 ≤ (20#5).toNat ∧ (20#5).toNat ≤ 20) ∧
      0 < 2 ^ idle.par.terrW ∧ 0xFFFFFFFF < 2 ^ idle.par.terrW := by decide

theorem witness_StartmSendsMaskThenStart : 0 < 2 ^ idle.par.terrW ∧ 0xFFFFFFFF < 2 ^ idle.par.terrW := by decide

theorem witness_RdtempClassifiesTheResult :
    (1 ≤ (1#5).toNat ∧ (1#5).toNat ≤ 20) ∧ 1 ≤ (20#5).toNat ∧ (20#5).toNat ≤ 20 := by decide

theorem witness_AveragingZeroRoundsSendsNothing : 1 ≤ (20#5).toNat ∧ (20#5).toNat ≤ 20 := by decide

theorem witness_AveragingBeginsItsFirstRound :
    ((1 ≤ (20#5).toNat ∧ (20#5).toNat ≤ 20) ∧ 1#16 ≠ 0 ∧ idle.par.roundMax ≠ 0) ∧
      0xFFFF#16 ≠ 0 ∧ idle.par.mroundMax ≠ some 0 ∧ { idle with par := otherPar }.par.mroundMax = some 0 := by decide

/-- The first member, at both ends and with members above it. -/
theorem witness_PollLoopEndsAtDoneOrAtItsBound :
    ((0x80000 : ChSet).getLsbD (19 : Fin 20).val = true ∧
      ∀ m : Fin 20, m < 19 → (0x80000 : ChSet).getLsbD m.val = false) ∧
    ((0x80005 : ChSet).getLsbD (0 : Fin 20).val = true ∧
      ∀ m : Fin 20, m < 0 → (0x80005 : ChSet).getLsbD m.val = false) := by decide

theorem witness_AvgRoundCountsOnlyValidReadings : (1 : BitVec 16) ≠ 0 ∧ (0xFFFF : BitVec 16) ≠ 0 := by decide

/-- A member and the next one, far apart and side by side; the last member, at both ends and with members below it. -/
theorem witness_AvgmRoundCountsForAllOrNone :
    ((0 : Fin 20) < 19 ∧ (0x80001 : ChSet).getLsbD (19 : Fin 20).val = true ∧
      ∀ m : Fin 20, 0 < m → m < 19 → (0x80001 : ChSet).getLsbD m.val = false) ∧
    ((18 : Fin 20) < 19 ∧ ∀ m : Fin 20, 18 < m → m < 19 → (0xFFFFF : ChSet).getLsbD m.val = false) ∧
    (2 : BitVec 16) ≠ 0 ∧
    ((0x80005 : ChSet).getLsbD (19 : Fin 20).val = true ∧
      ∀ m : Fin 20, 19 < m → (0x80005 : ChSet).getLsbD m.val = false) ∧
    ((0x00001 : ChSet).getLsbD (0 : Fin 20).val = true ∧
      ∀ m : Fin 20, 0 < m → (0x00001 : ChSet).getLsbD m.val = false) := by decide

/-- A poll that ends the loop by its bound without done, and one that goes on. -/
theorem witness_AvgmEmptySetCountsEveryRound :
    (2 : BitVec 16) ≠ 0 ∧ otherPar.mpollMax = some ({ idle with polls := 1 }.polls + 1) ∧
      ¬ ((0 : BitVec 1) = 1 ∨ otherPar.mpollMax = some (idle.polls + 1)) := by decide

/-- Two VALID rounds and one SUSPECT between them (TV 1.7). -/
def scriptHead : List Round :=
  [{ start := rx 0 0 0 0, poll := rx 0x43 0 0 0, result := rx 0x01 0x00 0x64 0x00 },
   { start := rx 0 0 0 0, poll := rx 0x43 0 0 0, result := rx 0x00 0x00 0x68 0x00 }]

/-- The last round of the script. -/
def scriptLast : Round := { start := rx 0 0 0 0, poll := rx 0x43 0 0 0, result := rx 0x01 0x00 0x6C 0x00 }

theorem witness_AvgConsumesExactlyTheRoundsNeeded :
    (1 ≤ (20#5).toNat ∧ (20#5).toNat ≤ 20) ∧ (∀ r ∈ scriptHead ++ [scriptLast], r.done = true) ∧ scriptLast.err = 0x01 ∧
      (validRounds (scriptHead ++ [scriptLast])).length = (2 : BitVec 16).toNat ∧
      scriptHead.length + 1 ≤ idle.par.roundMax := by decide

theorem witness_AvgEndsUnattainableAtItsRoundBound :
    (1 ≤ (1#5).toNat ∧ (1#5).toNat ≤ 20) ∧ (∀ r ∈ scriptHead ++ scriptHead, r.done = true) ∧
      (validRounds (scriptHead ++ scriptHead)).length < (3 : BitVec 16).toNat ∧
      (scriptHead ++ scriptHead).length = idle.par.roundMax := by decide

theorem witness_AvgAlwaysEnds :
    1 ≤ idle.par.pollMax ∧ idle.par.roundMax * (idle.par.pollMax + 2) ≤
      { idle with answers := List.replicate 20 (.err 1) }.answers.length := by decide

/-- AVGM at its poll loop, two answers waiting, neither done (TV 2.10, the last case). -/
def polling : State :=
  { idle with
    busy := true, job := .avgm 3 1, pending := .frame statusBytes
    answers := [.ok (rx 0x80 0 0 0), .ok (rx 0xBF 0 0 0)] }

theorem witness_AvgmPollsForEverWithoutDone :
    polling.busy = true ∧ polling.job = .avgm 3 1 ∧ polling.pending = .frame statusBytes ∧ polling.par.mpollMax = none ∧
      ∀ a ∈ polling.answers, ∃ r, a = .ok r ∧ r.d0.getLsbD 6 = false := by
  refine ⟨rfl, rfl, rfl, rfl, ?_⟩
  intro a ha
  simp only [polling, List.mem_cons, List.not_mem_nil, or_false] at ha
  rcases ha with rfl | rfl
  · exact ⟨_, rfl, by decide⟩
  · exact ⟨_, rfl, by decide⟩

/-- A tie-free mean of TV 2.10, and the two ends of the range of a mean. -/
theorem witness_MeanIsTheNearestFloat :
    (0 < 3072 ∧ (76802 : Int).natAbs ≤ 8192 * 3072) ∧ f32Finite 0x41C80155 = true ∧
      (0 < 1 ∧ (-8192 : Int).natAbs ≤ 8192 * 1) ∧ (0 < 1 ∧ (8192 : Int).natAbs ≤ 8192 * 1) := by decide

/-- TV 2.10: the mean of three rounds, and a mean below one unit. -/
theorem test_mean : rne32 76802 3072 = 0x41C80155 ∧ rne32 1 3072 = 0x39AAAAAB ∧ rne32 (-3072) 2048 = 0xBFC00000 := by decide

theorem witness_GeneralFramesAreOneTransaction : (0#3).toNat ≤ 4 ∧ (4#3).toNat ≤ 4 := by decide

theorem witness_WriteFramesAdvanceTheirOperation :
    (19#5).toNat ≤ 19 ∧ (0#5).toNat ≤ 19 ∧ Job.start ∈ [Job.start, .startm] ∧
      Job.avgm 3 1 ∈ [Job.avg 2 1, .avgm 3 1] ∧ Job.startm ∈ [Job.startm, .avgm 3 1] := by decide

theorem witness_ReadFramesBringTheirData :
    Job.status ∈ [Job.status, .avg 2 1, .avgm 3 1] ∧ (4 ≤ (4#5).toNat ∧ (4#5).toNat ≤ 23) ∧ (4 ≤ (23#5).toNat ∧ (23#5).toNat ≤ 23) ∧
      Job.rdtempm 3 ∈ [Job.rdtemp, .rdtempm 3, .avg 2 1, .avgm 3 1] := by decide

theorem witness_ConfigurationRowsFrameTheirWord :
    (Instr.cfgwordSense 0x7FFFFFF, senseFormula 29 0x7FFFFFF) ∈
      [(Instr.cfgwordTcJ tcMax, tcFormula 1 tcMax), (.cfgwordSense 0x7FFFFFF, senseFormula 29 0x7FFFFFF)] := by decide

end Sys2Proof.Tests
end

/-! Illegal operand values (R27, R244). The checks the operations make are the legal sets that `WellFormed` names, so
every ill-formed host operation is rejected in its first step; each illegal value makes the operations that read its
field ill formed. -/

namespace Sys2Proof.Laws
open Sys2Proof.Machine

/-! ## The checks are the legal sets -/

/-- ConfigRejected (R244) in the terms of the statements. -/
theorem rejectConfig_eq_raised (s : State) : rejectConfig s = raised s 4 none := rfl

theorem channelOfPort_eq_none_of_illFormed {ch : BitVec 5} (h : WellFormed.ch ch = false) :
    channelOfPort ch = none :=
  dif_neg (of_decide_eq_false h)

theorem tcLegal_eq_wellFormed (p : TcFields) : tcLegal p = WellFormed.tc p := by
  rw [Bool.eq_iff_iff, tcLegal_iff]
  simp [WellFormed.tc, WellFormed.cj, WellFormed.oc]

theorem rtdLegal_eq_wellFormed (p : RtdOperands) : rtdLegal p = WellFormed.rtdOperands p := by
  rw [Bool.eq_iff_iff, rtdLegal_iff]
  simp [WellFormed.rtdOperands, WellFormed.rs, WellFormed.cur]

theorem lenLegal_eq_wellFormed (len : BitVec 3) : lenLegal len = WellFormed.len len := rfl

/-! ## An ill-formed host operation is rejected -/

/-- R27 for every host operation at once: whichever of its checks fails, the first step ends it with ConfigRejected.
The frames, register contents and configuration words are no operations of the command port. -/
theorem exec_of_illFormed {s : State} {i : Instr} {o : Opr} (hport : encode s.par.typeIds i = .port o)
    (hill : WellFormed i = false) : exec i s = .next (raised s 4 none) := by
  rw [← rejectConfig_eq_raised]
  cases i with
  | chmap ch | start ch | rdtemp ch | avg ch _ | cfgdio ch _ | cfgrs ch _ =>
    have hch : channelOfPort ch = none := channelOfPort_eq_none_of_illFormed hill
    simp only [exec, execChmap, execStart, execRdtemp, execAvg, execCfgdio, execCfgrs, hch]
  | enctc _ p =>
    have hp : tcLegal p = false := (tcLegal_eq_wellFormed p).trans hill
    simp [exec, execEnctc, hp]
  | encrtd _ p =>
    have hp : rtdLegal p = false := (rtdLegal_eq_wellFormed p).trans hill
    simp [exec, execEncrtd, hp]
  | cfgtc ch _ p =>
    rcases Bool.and_eq_false_iff.1 hill with hch | hp
    · simp only [exec, execCfgtc, channelOfPort_eq_none_of_illFormed hch]
    · rw [← tcLegal_eq_wellFormed] at hp
      cases hc : channelOfPort ch <;> simp [exec, execCfgtc, hc, hp]
  | cfgrtd ch _ p =>
    rcases Bool.and_eq_false_iff.1 hill with hch | hp
    · simp only [exec, execCfgrtd, channelOfPort_eq_none_of_illFormed hch]
    · rw [← rtdLegal_eq_wellFormed] at hp
      cases hc : channelOfPort ch <;> simp [exec, execCfgrtd, hc, hp]
  | wrreg _ len _ | rdreg _ len =>
    have hl : lenLegal len = false := (lenLegal_eq_wellFormed len).trans hill
    simp [exec, execWrreg, execRdreg, hl]
  | encq | encidf | decq | classify | mkmask | encdio | encrs | startm | status | rdtempm | avgm =>
    cases hill
  | _ => cases hport

/-! ## The illegal values of each field -/

theorem wellFormed_ch_eq_false {ch : BitVec 5} (h : ch = 0 ∨ 21 ≤ ch.toNat) : WellFormed.ch ch = false := by
  revert ch; decide

theorem wellFormed_tc_eq_false {p : TcFields} (h : 21 ≤ p.cj.toNat ∨ p.oc = 1 ∨ p.oc = 2 ∨ p.oc = 3) :
    WellFormed.tc p = false := by
  have hcj : ∀ cj : BitVec 5, 21 ≤ cj.toNat → WellFormed.cj cj = false := by decide
  have hoc : ∀ oc : BitVec 3, oc = 1 ∨ oc = 2 ∨ oc = 3 → WellFormed.oc oc = false := by decide
  exact Bool.and_eq_false_iff.2 (h.imp (hcj _) (hoc _))

theorem wellFormed_rtdOperands_eq_false {p : RtdOperands}
    (h : p.rs = 0 ∨ p.rs = 1 ∨ 21 ≤ p.rs.toNat ∨ p.cur = 0 ∨ 9 ≤ p.cur.toNat) :
    WellFormed.rtdOperands p = false := by
  have hrs : ∀ rs : BitVec 5, rs = 0 ∨ rs = 1 ∨ 21 ≤ rs.toNat → WellFormed.rs rs = false := by decide
  have hcur : ∀ cur : BitVec 4, cur = 0 ∨ 9 ≤ cur.toNat → WellFormed.cur cur = false := by decide
  have hsplit : (p.rs = 0 ∨ p.rs = 1 ∨ 21 ≤ p.rs.toNat) ∨ (p.cur = 0 ∨ 9 ≤ p.cur.toNat) := by tauto
  exact Bool.and_eq_false_iff.2 (hsplit.imp (hrs _) (hcur _))

theorem wellFormed_len_eq_false {len : BitVec 3} (h : 5 ≤ len.toNat) : WellFormed.len len = false := by
  revert len; decide

/-! ## The statement -/

/-- Settles O33: each illegal value makes the operations that read its field ill formed, and an ill-formed host
operation is rejected. -/
theorem illegalOperandsAreRejected : Obligations.IllegalOperandsAreRejected := by
  unfold Obligations.IllegalOperandsAreRejected
  simp only [List.forall_mem_cons]
  refine ⟨?chOnly, ?chFirst, ?thermocouple, ?rtd, ?length⟩
  case chOnly =>
    intro s ch h
    have hch := wellFormed_ch_eq_false h
    exact ⟨exec_of_illFormed rfl hch, exec_of_illFormed rfl hch, exec_of_illFormed rfl hch, by simp⟩
  case chFirst =>
    intro s ch h sub tc rtd dio b n
    have hch := wellFormed_ch_eq_false h
    exact ⟨exec_of_illFormed rfl (by simp [WellFormed, hch]), exec_of_illFormed rfl (by simp [WellFormed, hch]),
      exec_of_illFormed rfl hch, exec_of_illFormed rfl hch, exec_of_illFormed rfl hch, by simp⟩
  case thermocouple =>
    intro s ch sub tc h
    have htc := wellFormed_tc_eq_false h
    exact ⟨exec_of_illFormed rfl htc, exec_of_illFormed rfl (by simp [WellFormed, htc]), by simp⟩
  case rtd =>
    intro s ch sub rtd h
    have hrtd := wellFormed_rtdOperands_eq_false h
    exact ⟨exec_of_illFormed rfl hrtd, exec_of_illFormed rfl (by simp [WellFormed, hrtd]), by simp⟩
  case length =>
    intro s addr len wdata h
    have hlen := wellFormed_len_eq_false h
    exact ⟨exec_of_illFormed rfl hlen, exec_of_illFormed rfl hlen, by simp⟩

end Sys2Proof.Laws

/-! The codec (spec/40_codec.md, R130 to R141). Each of its four operations completes in its first step, so what is left
of a statement is the value of the result fields: the encoded field with its count of draws, the sign-extended
magnitude, the classified reading. -/

namespace Sys2Proof.Laws
open Sys2Proof.Machine

/-! ## Completion and the signed magnitude -/

/-- Completion (R24) in the terms of the statements. -/
theorem complete_eq_ended (s : State) (r : Res) : s.complete r = ended s r := rfl

/-- The 24 bits of the signed magnitude are the raw bits (R12, R135). -/
@[simp] theorem ofInt_sext24 (raw : BitVec 24) : BitVec.ofInt 24 (sext24 raw) = raw := BitVec.ofInt_toInt

/-! ## What each operation of the codec does -/

theorem exec_encq (fval : Word) (k : BitVec 5) (s : State) :
    exec (.encq fval k) s =
      .next (ended (s.encField fval k.toNat 32).2 { Res.empty with word := some (s.encField fval k.toNat 32).1 }) := rfl

theorem exec_encidf (fval : Word) (s : State) :
    exec (.encidf fval) s =
      .next (ended (s.encField fval 20 22).2
        { Res.empty with word := some ((s.encField fval 20 22).1.setWidth 32) }) := rfl

theorem exec_decq (raw : BitVec 24) (s : State) :
    exec (.decq raw) s = .next (ended s { Res.empty with q := some raw, f := some (f32OfQ (sext24 raw)) }) := by
  rw [← complete_eq_ended]
  simp only [exec, execDecq, ofInt_sext24]

theorem exec_classify (err : Byte) (raw : BitVec 24) (s : State) :
    exec (.classify err raw) s = .next (ended s (readingOf err raw).res) := rfl

/-! ## The statements -/

/-- Settles O22: the encoded field is the nearest integer modulo `2^32` or a counted draw (`State.encField_eq`). -/
theorem encqWritesTheEncodedWord : Obligations.EncqWritesTheEncodedWord := by
  intro s b k
  rw [exec_encq, State.encField_eq]

/-- Settles O23: the field of `k = 20` in 22 bits is that of R131 to R133, and ENCIDF zero-extends it. -/
theorem encidfWritesTheIdealityField : Obligations.EncidfWritesTheIdealityField := by
  intro s b
  rw [exec_encidf, State.encField_eq]

/-- Settles O24: the signed magnitude is the raw bits read as a two's complement number. -/
theorem decqWritesValueAndFloat : Obligations.DecqWritesValueAndFloat :=
  fun s raw => exec_decq raw s

/-- Settles O26: the fields of a classified reading are those of R140 and R141 (`Reading.res_eq_formula`). -/
theorem classTagsTheErrorByte : Obligations.ClassTagsTheErrorByte := by
  intro s err raw
  rw [exec_classify, Reading.res_eq_formula]

end Sys2Proof.Laws

/-! The channel and register map (spec/41_channel_map.md, R150 to R154). Both operations are combinational and complete
in their first step, so what is left of a statement is the value of the result fields: the channel a legal port code
names with its selection bit, and the OR of the members' selection bits. -/

namespace Sys2Proof.Laws
open Sys2Proof.Machine

/-- The selection bit of R150 as a power of two. -/
theorem selBit_eq_ofNat_two_pow (c : Channel) : selBit c = BitVec.ofNat 32 (2 ^ c.val) := by
  apply BitVec.eq_of_toNat_eq
  rw [selBit, ← BitVec.twoPow_eq, BitVec.toNat_twoPow, BitVec.toNat_ofNat]

/-! ## What each operation of the channel map does -/

theorem exec_chmap_of_channelOfPort {ch : BitVec 5} {c : Channel} (h : channelOfPort ch = some c) (s : State) :
    exec (.chmap ch) s =
      .next (ended s { Res.empty with
        caddr := some (configAddr c), raddr := some (resultAddr c), selbit := some (selBit c) }) := by
  rw [← complete_eq_ended]
  simp only [exec, execChmap, h]

theorem exec_mkmask (chset : ChSet) (s : State) :
    exec (.mkmask chset) s = .next (ended s { Res.empty with word := some (maskOf chset) }) := rfl

/-! ## The statements -/

/-- Settles O28: the OR of the members' selection bits is the membership vector (`maskOf_eq_setWidth`). -/
theorem mkmaskWritesTheMembershipVector : Obligations.MkmaskWritesTheMembershipVector := by
  intro s chset
  rw [exec_mkmask, maskOf_eq_setWidth]

/-- Settles O27: a legal port code `ch` names channel `ch - 1` counted from 0, and the fields are that channel's by
R150. -/
theorem chmapMapsEveryChannel : Obligations.ChmapMapsEveryChannel := by
  intro s ch hlegal
  rw [exec_chmap_of_channelOfPort (channelOfPort_of_legal ch hlegal), selBit_eq_ofNat_two_pow, configAddr, resultAddr]

end Sys2Proof.Laws

/-! The transaction framer (spec/43_framer.md, R190 to R195). The frame an RDREG sends may be one that the decoder gives
to a more special row, the status read or a result read; inside an RDREG each of the three read rows completes with the
data placed left-aligned, so the address does not matter. -/

namespace Sys2Proof.Laws
open Sys2Proof.Machine

/-! ## The step that sends a pending frame -/

/-- An operation at a frame runs the frame's row (R20, R30). -/
theorem step_of_pending_frame {s : State} {frame : List Byte} {i : Instr} (hbusy : s.busy = true)
    (hpending : s.pending = .frame frame) (hdecode : decodeWire frame = .ok i) : step s = exec i s := by
  simp only [step, hbusy, if_true, State.pendingItem, hpending, decode, hdecode]

/-! ## The rows a read frame can belong to -/

/-- The address of a result field holds the field in bits 6 to 2 (R150). -/
theorem resultFieldAddr_eq_append (a : BitVec 5) : resultFieldAddr a = (0#9 ++ a ++ 0#2 : BitVec 16) := by
  revert a; decide

/-- An address that matches the mask of F_RESULT_RD is the one its field stands for (R208). -/
theorem resultFieldAddr_extract {addr : Addr} (hmask : addr &&& 0xFF83 = 0) :
    resultFieldAddr (addr.extractLsb' 2 5) = addr := by
  have hbit (i : Nat) : (addr.getLsbD i && (0xFF83#16).getLsbD i) = false := by
    rw [← BitVec.getLsbD_and, show addr &&& 0xFF83#16 = 0#16 from hmask, BitVec.getLsbD_zero]
  rw [resultFieldAddr_eq_append]
  apply BitVec.eq_of_getLsbD_eq
  intro i hi
  specialize hbit i
  simp only [BitVec.getLsbD_append, BitVec.getLsbD_extractLsb']
  interval_cases i <;> simp_all

/-- Every row the decoder gives a read frame to sends that same frame: the status read, a result read, or W_READ. -/
theorem decodeRead_cases (addr : Addr) (len : BitVec 3) :
    (decodeRead addr len.toNat = .fStatusRd ∧ len = 1 ∧ readFrame addr len.toNat = statusFrame) ∨
    (∃ a, decodeRead addr len.toNat = .fResultRd a ∧ len = 4 ∧
      readFrame addr len.toNat = readFrame (resultFieldAddr a) 4) ∨
    decodeRead addr len.toNat = .wRead addr len := by
  by_cases hstatus : len = 1 ∧ addr = 0
  · obtain ⟨rfl, rfl⟩ := hstatus
    exact .inl ⟨rfl, rfl, rfl⟩
  · by_cases hresult : len = 4 ∧ addr &&& 0xFF83 = 0
    · obtain ⟨rfl, hmask⟩ := hresult
      refine .inr (.inl ⟨addr.extractLsb' 2 5, (if_neg (by simp)).trans (if_pos ⟨rfl, hmask⟩), rfl, ?_⟩)
      exact congrArg (readFrame · 4) (resultFieldAddr_extract hmask).symm
    · have hspecial : WellFormed.specialRead addr len = false := by
        simpa [WellFormed.specialRead] using And.intro hstatus hresult
      exact .inr (.inr (decodeRead_of_not_special addr len hspecial))

/-! ## A read inside an RDREG -/

/-- Whatever row the read frame belongs to, inside an RDREG it is one transaction that completes with its data (R192,
R194). -/
theorem exec_decodeRead_of_rdreg {s : State} {rx : Rx} {rest : List Answer} (hjob : s.job = .rdreg)
    (hanswers : s.answers = .ok rx :: rest) (addr : Addr) (len : BitVec 3) :
    exec (decodeRead addr len.toNat) s = .next ((called s (readFrame addr len.toNat) rest).completeRead len rx) := by
  have hjob' : ∀ frame, (called s frame rest).job = .rdreg := fun _ => hjob
  rcases decodeRead_cases addr len with ⟨hrow, rfl, hframe⟩ | ⟨a, hrow, rfl, hframe⟩ | hrow
  · simp only [hrow, hframe, exec, execFStatusRd, transact_of_ok hanswers, hjob']
  · simp only [hrow, hframe, exec, execFResultRd, transact_of_ok hanswers, hjob']
  · simp only [hrow, exec, execWRead, transact_of_ok hanswers]

/-- A legal RDREG begins with its read frame (R194). -/
theorem exec_rdreg_of_legal (s : State) (addr : Addr) {len : BitVec 3} (hlen : len.toNat ≤ 4) :
    exec (.rdreg addr len) s = .next (begun s .rdreg (.frame (readFrame addr len.toNat))) :=
  if_pos (decide_eq_true hlen)

/-- The end of a generic read in the terms of the statements: the placement of R195 as a shift. -/
theorem completeRead_eq_ended (s : State) {len : BitVec 3} (rx : Rx) (hlen : len.toNat ≤ 4) :
    s.completeRead len rx = ended s { Res.empty with
      rdata := some ((rx.d0 ++ rx.d1 ++ rx.d2 ++ rx.d3 : Word) >>> (8 * (4 - len.toNat)) <<< (8 * (4 - len.toNat)))
      rlen := some len } := by
  rw [← placeRead_eq_shift rx len hlen]
  rfl

/-! ## The statement -/

/-- Settles O39: the first step makes the read frame pending, and the second sends it under whichever row it belongs
to. -/
theorem rdregReturnsLeftAlignedData : Obligations.RdregReturnsLeftAlignedData := by
  intro s addr len rx rest hlen
  refine ⟨_, exec_rdreg_of_legal _ addr hlen, rfl, runs_succ _ ?_ (runs_zero _)⟩
  rw [step_of_pending_frame rfl rfl (decodeWire_readFrame addr len.toNat hlen), exec_decodeRead_of_rdreg rfl rfl,
    completeRead_eq_ended _ rx hlen]
  rfl

end Sys2Proof.Laws

/-! The single conversions (spec/44_conversion.md, R200 to R210): START, STARTM, STATUS and RDTEMP. Each begins with a
frame pending. What that frame's row, and the row of the content a read brings, do inside the operation is said once per
row; a statement is the run of those steps. -/

namespace Sys2Proof.Laws
open Sys2Proof.Machine

/-! ## The steps of an operation in progress -/

theorem runs_one {s t : State} (h : step s = .next t) : Runs 1 s t := runs_succ t h (runs_zero t)

theorem runs_two {s t u : State} (h : step s = .next t) (h' : step t = .next u) : Runs 2 s u :=
  runs_succ t h (runs_one h')

/-- An operation at a status byte runs its row on the byte's fields (R96, R206). -/
theorem step_of_pending_statusByte {s : State} {b : Byte} (hbusy : s.busy = true)
    (hpending : s.pending = .statusByte b) : step s = exec (decodeStatusByte b) s := by
  simp only [step, hbusy, if_true, State.pendingItem, hpending, decode]

/-- An operation at a result word runs its row on the word's fields (R97, R208). -/
theorem step_of_pending_resultWord {s : State} {c : Channel} {w : Word} (hbusy : s.busy = true)
    (hpending : s.pending = .resultWord c w) : step s = exec (decodeResultWord w) s := by
  simp only [step, hbusy, if_true, State.pendingItem, hpending, decode]

/-- A transport call leaves the operation in progress. -/
@[simp] theorem called_job (s : State) (frame : List Byte) (rest : List Answer) : (called s frame rest).job = s.job :=
  rfl

/-- R66: a transaction answered `Err` ends the operation with a payload of `TERR_W` bits as it is (R8). -/
theorem transact_of_err_of_lt {frame : List Byte} {s : State} {k : Rx → State → State} {e : Nat} {rest : List Answer}
    (hanswers : s.answers = .err e :: rest) (he : e < 2 ^ s.par.terrW) :
    transact frame s k = .next (raised (called s frame rest) 1 (some e)) := by
  rw [transact_of_err hanswers, Nat.mod_eq_of_lt he]

/-! ## The first step of each operation -/

/-- The result read of a legal port code's channel, as bytes (R208). -/
theorem resultFrame_of_legal {ch : BitVec 5} (hch : 1 ≤ ch.toNat ∧ ch.toNat ≤ 20) :
    resultFrame ⟨ch.toNat - 1, by omega⟩ = resultBytes ch.toNat := by
  rw [resultFrame_eq_bytes, Nat.sub_add_cancel hch.1]

theorem exec_start_of_legal (s : State) {ch : BitVec 5} (hch : 1 ≤ ch.toNat ∧ ch.toNat ≤ 20) :
    exec (.start ch) s = .next (begun s .start (.frame (startFrame ch))) := by
  simp only [exec, execStart, channelOfPort_of_legal ch hch, channelNumber_of_port ch hch]
  rfl

theorem exec_startm (s : State) (chset : ChSet) :
    exec (.startm chset) s = .next (begun s .startm (.frame (maskFrame (chset.setWidth 32)))) := by
  rw [← maskOf_eq_setWidth]
  rfl

theorem exec_status (s : State) : exec .status s = .next (begun s .status (.frame statusFrame)) := rfl

theorem exec_rdtemp_of_channelOfPort {ch : BitVec 5} {c : Channel} (hc : channelOfPort ch = some c) (s : State) :
    exec (.rdtemp ch) s = .next (begun s .rdtemp (.frame (resultFrame c))) := by
  simp only [exec, execRdtemp, hc]
  rfl

/-! ## The frames inside their operation -/

/-- R201, R202, R204: the start command of START or STARTM returns `Ok`. -/
theorem exec_fStart_of_start {s : State} {rx : Rx} {rest : List Answer} (hjob : s.job = .start ∨ s.job = .startm)
    (hanswers : s.answers = .ok rx :: rest) (c : BitVec 5) :
    exec (.fStart c) s = .next (ended { called s (startFrame c) rest with phase := 1, sel := c } Res.empty) := by
  rcases hjob with hjob | hjob <;> simp only [exec, execFStart, transact_of_ok hanswers, called_job, hjob] <;> rfl

/-- R201: the start command returns `Err`; PHASE and SEL stay. -/
theorem exec_fStart_of_err {s : State} {e : Nat} {rest : List Answer} (hanswers : s.answers = .err e :: rest)
    (he : e < 2 ^ s.par.terrW) (c : BitVec 5) :
    exec (.fStart c) s = .next (raised (called s (startFrame c) rest) 1 (some e)) := by
  simp only [exec, execFStart, transact_of_err_of_lt hanswers he]

/-- R204: the mask write of STARTM returns `Ok`, and the start command of channel field 0 is next. -/
theorem exec_fMask_of_startm {s : State} {rx : Rx} {rest : List Answer} (hjob : s.job = .startm)
    (hanswers : s.answers = .ok rx :: rest) (m : ChSet) :
    exec (.fMask m) s = .next ((called s (maskFrame (m.setWidth 32)) rest).send (startFrame 0)) := by
  simp only [exec, execFMask, transact_of_ok hanswers, called_job, hjob]

/-- R201, R204: the mask write returns `Err`; PHASE and SEL stay. -/
theorem exec_fMask_of_err {s : State} {e : Nat} {rest : List Answer} (hanswers : s.answers = .err e :: rest)
    (he : e < 2 ^ s.par.terrW) (m : ChSet) :
    exec (.fMask m) s = .next (raised (called s (maskFrame (m.setWidth 32)) rest) 1 (some e)) := by
  simp only [exec, execFMask, transact_of_err_of_lt hanswers he]

/-- R204: after the `Ok` of its mask write STARTM is at its start command, whatever the transport answers to that. -/
theorem step_begun_startm_of_ok (s : State) (chset : ChSet) (rx : Rx) (rest : List Answer) :
    step (begun { s with answers := .ok rx :: rest } .startm (.frame (maskFrame (chset.setWidth 32)))) =
      .next (begun (called s (maskFrame (chset.setWidth 32)) rest) .startm (.frame (startFrame 0))) := by
  rw [step_of_pending_frame rfl rfl (decodeWire_maskFrame chset), exec_fMask_of_startm rfl rfl]
  rfl

/-- R206: the status read of STATUS brings the byte its next step decodes. -/
theorem exec_fStatusRd_of_status {s : State} {rx : Rx} {rest : List Answer} (hjob : s.job = .status)
    (hanswers : s.answers = .ok rx :: rest) :
    exec .fStatusRd s = .next { called s statusFrame rest with pending := .statusByte rx.d0 } := by
  simp only [exec, execFStatusRd, transact_of_ok hanswers, called_job, hjob]

/-- R208: the result read of RDTEMP brings the word its next step decodes. -/
theorem exec_fResultRd_of_rdtemp {s : State} {rx : Rx} {rest : List Answer} (hjob : s.job = .rdtemp)
    (hanswers : s.answers = .ok rx :: rest) (c : Channel) :
    exec (.fResultRd (BitVec.ofNat 5 (c.val + 4))) s =
      .next { called s (resultFrame c) rest with pending := .resultWord c rx.word } := by
  obtain ⟨hfield, hframe⟩ := resultField_of_channel c
  simp only [exec, execFResultRd, transact_of_ok hanswers, called_job, hjob, hfield, hframe]

/-! ## The contents inside their operation -/

/-- R206, R207: STATUS completes with the snapshot, and the phase machine has seen its done flag, bit 6 of the byte. -/
theorem exec_decodeStatusByte_of_status {s : State} (hjob : s.job = .status) (b : Byte) :
    exec (decodeStatusByte b) s = .next (ended { s with phase := phaseAfterStatus s.phase (b.getLsbD 6) }
      { Res.empty with
        stStart := some (b.extractLsb' 7 1), stDone := some (b.extractLsb' 6 1)
        stChsel := some (b.extractLsb' 0 5) }) := by
  simp only [decodeStatusByte, exec, execStatusByte, hjob, complete_eq_ended, State.statusPhase_eq]
  rw [← doneBit_eq]
  rfl

/-- R208, R210: RDTEMP completes with the result word classified. -/
theorem exec_resultWord_of_rdtemp {s : State} (hjob : s.job = .rdtemp) (err : Byte) (raw : BitVec 24) :
    exec (.resultWord err raw) s = .next (ended s (resultFormula err raw)) := by
  simp only [exec, execResultWord, hjob, complete_eq_ended, Reading.res_eq_formula]

/-! ## The statements -/

/-- Settles O40: the start frame is the one step after the first; answered `Ok` it writes PHASE and SEL, answered `Err`
it ends the operation. -/
theorem startConvertsTheChannel : Obligations.StartConvertsTheChannel := by
  unfold Obligations.StartConvertsTheChannel
  simp only [← startFrame_eq_bytes]
  refine ⟨?sent, ?failed⟩
  case sent =>
    intro s ch rx rest hch
    refine ⟨_, exec_start_of_legal _ hch, rfl, runs_one ?_⟩
    rw [step_of_pending_frame rfl rfl (decodeWire_startFrame ch), exec_fStart_of_start (.inl rfl) rfl]
    rfl
  case failed =>
    intro s ch e rest hch he
    refine ⟨_, exec_start_of_legal _ hch, runs_one ?_⟩
    rw [step_of_pending_frame rfl rfl (decodeWire_startFrame ch), exec_fStart_of_err rfl]
    · rfl
    · exact he

/-- Settles O41: the mask frame, and only after its `Ok` the start frame, whose answer decides as in START. -/
theorem startmSendsMaskThenStart : Obligations.StartmSendsMaskThenStart := by
  unfold Obligations.StartmSendsMaskThenStart
  simp only [← startFrame_eq_bytes, ← maskFrame_eq_bytes]
  refine ⟨?sent, ?startFailed, ?maskFailed⟩
  case sent =>
    intro s chset rx rx' rest
    refine ⟨_, exec_startm _ chset, rfl, runs_two (step_begun_startm_of_ok s chset rx _) ?_⟩
    rw [step_of_pending_frame rfl rfl (decodeWire_startFrame 0), exec_fStart_of_start (.inr rfl) rfl]
    rfl
  case startFailed =>
    intro s chset rx e rest he
    refine ⟨_, exec_startm _ chset, runs_two (step_begun_startm_of_ok s chset rx _) ?_⟩
    rw [step_of_pending_frame rfl rfl (decodeWire_startFrame 0), exec_fStart_of_err rfl]
    · rfl
    · exact he
  case maskFailed =>
    intro s chset e rest he
    refine ⟨_, exec_startm _ chset, runs_one ?_⟩
    rw [step_of_pending_frame rfl rfl (decodeWire_maskFrame chset), exec_fMask_of_err rfl]
    · rfl
    · exact he

/-- Settles O42: the status read, then the step on the byte it brought. -/
theorem statusReportsOneSnapshot : Obligations.StatusReportsOneSnapshot := by
  intro s rx rest
  refine ⟨_, exec_status _, rfl,
    runs_two ((step_of_pending_frame rfl rfl decodeWire_statusFrame).trans (exec_fStatusRd_of_status rfl rfl)) ?_⟩
  rw [step_of_pending_statusByte rfl rfl, exec_decodeStatusByte_of_status rfl]
  rfl

/-- Settles O43: the result read, then the step on the word it brought, whose fields are the received bytes. -/
theorem rdtempClassifiesTheResult : Obligations.RdtempClassifiesTheResult := by
  intro s ch rx rest hch
  rw [← resultFrame_of_legal hch]
  refine ⟨_, exec_rdtemp_of_channelOfPort (channelOfPort_of_legal ch hch) _, rfl,
    runs_two ((step_of_pending_frame rfl rfl (decodeWire_resultFrame _)).trans (exec_fResultRd_of_rdtemp rfl rfl _)) ?_⟩
  rw [step_of_pending_resultWord rfl rfl, decodeResultWord_of_rx, exec_resultWord_of_rdtemp rfl]
  rfl

end Sys2Proof.Laws

/-! Unassigned operation codes (spec/60_exceptions.md, R245). The decoder refuses them (R123), and the step that takes
the host's operation turns the refusal into IllegalOperation. -/

namespace Sys2Proof.Laws
open Sys2Proof.Machine

/-- IllegalOperation (R240, R245) in the terms of the statements. -/
theorem illegalOperation_eq_raised (s : State) : illegalOperation s = raised s 5 none := rfl

/-- The decoder assigns no operation to the codes 0x00 and 0x18 to 0xFF (R110, R123). -/
theorem decodeOp_of_unassigned {o : Opr} (hcode : o.op = 0 ∨ 0x18 ≤ o.op.toNat) :
    decodeOp o = .error (.illegalOperation o.op) := by
  rcases hcode with hzero | hlarge
  · simp only [decodeOp, hzero]
    rfl
  · obtain ⟨n, hn⟩ := Nat.exists_eq_add_of_le' hlarge
    simp only [decodeOp, hn]

/-- An idle block ends an operation that the decoder refuses as illegal, its record being on the port (R123, R245). -/
theorem step_of_present_of_error {s : State} {o : Opr} {rest : List HostAction} {e : DecodeError}
    (hbusy : s.busy = false) (hhost : s.host = .present o :: rest) (hdecode : decodeOp o = .error e) :
    step s = .next (illegalOperation (s.present o rest)) := by
  simp only [step, hbusy, Bool.false_eq_true, if_false, hhost, decode, hdecode]

/-- Settles O2: the decoder refuses the code, so the step is the illegal ending of the presented operation. -/
theorem unassignedCodesEndIllegal : Obligations.UnassignedCodesEndIllegal := by
  intro s o rest hbusy hhost hcode
  rw [step_of_present_of_error hbusy hhost (decodeOp_of_unassigned hcode), illegalOperation_eq_raised]
  rfl

end Sys2Proof.Laws

/-! The values after reset (spec/70_reset_and_hazards.md, R271). The registers and RES are fields that `State.reset` sets;
SUM is set as a whole, and the table speaks of each channel's sum. -/

namespace Sys2Proof.Laws
open Sys2Proof.Machine

/-- The row of R271 on SUM, channel by channel. -/
theorem reset_sum_getElem (c : Channel) : State.reset.sum[c] = 0 :=
  Vector.getElem_replicate c.isLt

/-- Settles O10: each register and RES by the definition of the reset state, SUM channel by channel. -/
theorem resetStateHasTheValuesOfTheTable : Obligations.ResetStateHasTheValuesOfTheTable :=
  ⟨rfl, rfl, rfl, reset_sum_getElem, rfl, rfl, rfl, rfl⟩

end Sys2Proof.Laws

/-! What one step can do, said once (R20, R24, R30, R64). An instruction is a transport call that goes on with what the
call brought, or an internal step; the frames see to the first, everything else is the second. Either way what happens
to the rest of the state is one of the few shapes of `Advance`, after the phase machine has seen a start command or a
snapshot (`Effect`). -/

namespace Sys2Proof.Laws
open Sys2Proof.Machine

/-! ## Decoded frames, contents and words -/

theorem startFrame_of_slices {b : Byte} (h : b.extractLsb' 5 3 = 4#3) :
    startFrame (b.extractLsb' 0 5) = [0x02, 0x00, 0x00, b] := by
  rw [startFrame_eq]
  revert b
  decide

theorem maskFrame_of_word {w : Word} (h3 : w.extractLsb' 24 8 = 0) (h2 : (w.extractLsb' 16 8).extractLsb' 4 4 = 0#4) :
    maskFrame ((w.setWidth 20).setWidth 32) = [0x02, 0x00, 0xF4] ++ be32 w := by
  rw [maskFrame_eq]
  have hw : (w.setWidth 20).setWidth 32 = w := by
    apply BitVec.eq_of_toNat_eq
    have e3 := congrArg BitVec.toNat h3
    have e2 := congrArg BitVec.toNat h2
    simp only [BitVec.extractLsb'_toNat, Nat.shiftRight_eq_div_pow, BitVec.toNat_ofNat, BitVec.ofNat_eq_ofNat] at e2 e3
    simp only [BitVec.toNat_setWidth]
    have := w.isLt
    omega
  rw [hw]

theorem cfgFieldAddr_extract {addr : Addr} (hmask : addr &&& 0xFF83 = 0x0200) :
    cfgFieldAddr (addr.extractLsb' 2 5) = addr := by
  have hform : ∀ a : BitVec 5, cfgFieldAddr a = (4#9 ++ a ++ 0#2 : BitVec 16) := by decide
  have hbit (i : Nat) : (addr.getLsbD i && (0xFF83#16).getLsbD i) = (0x0200#16).getLsbD i := by
    rw [← BitVec.getLsbD_and, show addr &&& 0xFF83#16 = 0x0200#16 from hmask]
  rw [hform]
  apply BitVec.eq_of_getLsbD_eq
  intro i hi
  specialize hbit i
  simp only [BitVec.getLsbD_append, BitVec.getLsbD_extractLsb']
  interval_cases i <;> simp_all

/-- Whichever row a write frame belongs to, that row's encoding is the frame (R91, R95, R98, R170). -/
theorem encode_decodeWrite (ids : TypeIds) (addr : Addr) (payload : List Byte) :
    encode ids (decodeWrite addr payload) = .wire (writeFrame addr payload) := by
  unfold decodeWrite
  split
  next b =>
    split
    next h => rw [encode, startFrame_of_slices h.2, h.1]; rfl
    next => rfl
  next b3 b2 b1 b0 =>
    split
    next h =>
      obtain ⟨rfl, rfl, h2⟩ := h
      have hbytes := be32_wordOfBytes 0 b2 b1 b0
      have hslices := hbytes
      simp only [be32, List.cons.injEq] at hslices
      obtain ⟨h3, h2', -⟩ := hslices
      rw [encode, maskFrame_of_word h3 (by rw [h2', h2]), hbytes]
      rfl
    next =>
      split
      next h => rw [encode, cfgFieldAddr_extract h, be32_wordOfBytes]
      next => rfl
  next => rfl

/-- Whichever row a read frame belongs to, that row's encoding is the frame (R92, R206, R208). -/
theorem encode_decodeRead (ids : TypeIds) (addr : Addr) {n : Nat} (hn : n ≤ 4) :
    encode ids (decodeRead addr n) = .wire (readFrame addr n) := by
  have hlen : (BitVec.ofNat 3 n).toNat = n := by rw [BitVec.toNat_ofNat]; omega
  have hrow := decodeRead_cases addr (BitVec.ofNat 3 n)
  rw [hlen] at hrow
  rcases hrow with ⟨hrow, -, hframe⟩ | ⟨a, hrow, -, hframe⟩ | hrow
  · rw [hrow, hframe]; rfl
  · rw [hrow, hframe]; rfl
  · rw [hrow, encode, hlen]

/-- What the frame decoder reads behind a header of three bytes (R91 to R94). -/
theorem decodeWire_header (first hi lo : Byte) (rest : List Byte) :
    decodeWire (first :: hi :: lo :: rest) =
      if 4 < rest.length then .error .longFrame
      else if first = 0x02 then .ok (decodeWrite (hi ++ lo) rest)
      else if first = 0x03 then
        if rest.all (· == 0) then .ok (decodeRead (hi ++ lo) rest.length) else .error .nonzeroFiller
      else .error (.notAFrame first) := rfl

/-- A frame is the write frame or the read frame of its address and at most four more bytes (R91 to R94). -/
theorem decodeWire_cases {bytes : List Byte} {i : Instr} (h : decodeWire bytes = .ok i) :
    (∃ addr payload, payload.length ≤ 4 ∧ bytes = writeFrame addr payload ∧ i = decodeWrite addr payload) ∨
      ∃ addr n, n ≤ 4 ∧ bytes = readFrame addr n ∧ i = decodeRead addr n := by
  match bytes, h with
  | first :: hi :: lo :: rest, h =>
    rw [decodeWire_header] at h
    split_ifs at h with hlen hwrite hread hzero
    · refine .inl ⟨hi ++ lo, rest, by omega, ?_, (Except.ok.inj h).symm⟩
      rw [writeFrame, be16_append, hwrite]
      rfl
    · refine .inr ⟨hi ++ lo, rest.length, by omega, ?_, (Except.ok.inj h).symm⟩
      rw [readFrame, be16_append, hread, ← List.eq_replicate_of_mem (l := rest) (a := 0) (by simpa using hzero)]
      rfl

theorem encode_of_decodeWire (ids : TypeIds) {bytes : List Byte} {i : Instr} (h : decodeWire bytes = .ok i) :
    encode ids i = .wire bytes := by
  rcases decodeWire_cases h with ⟨addr, payload, -, rfl, rfl⟩ | ⟨addr, n, hn, rfl, rfl⟩
  · exact encode_decodeWrite ids addr payload
  · exact encode_decodeRead ids addr hn

theorem encode_decodeStatusByte (ids : TypeIds) (b : Byte) : encode ids (decodeStatusByte b) = .statusByte b := by
  have hb : ∀ b : Byte, (b.extractLsb' 7 1 ++ b.extractLsb' 6 1 ++ b.extractLsb' 5 1 ++ b.extractLsb' 0 5 : Byte) = b := by
    decide
  rw [decodeStatusByte, encode, hb]

theorem encode_decodeResultWord (ids : TypeIds) (w : Word) : encode ids (decodeResultWord w) = .resultWord w := by
  have hw : (w.extractLsb' 24 8 ++ w.extractLsb' 0 24 : Word) = w := by
    apply BitVec.eq_of_getLsbD_eq
    intro i hi
    simp only [BitVec.getLsbD_append, BitVec.getLsbD_extractLsb']
    interval_cases i <;> simp
  rw [decodeResultWord, encode, hw]

/-- Settles O19: each layer's decoder keeps every bit, so encoding gives the item back. -/
theorem encodeInvertsDecode : Obligations.EncodeInvertsDecode := by
  intro ids it i hport h
  cases it with
  | port o => exact absurd rfl (hport o)
  | wire bytes => exact encode_of_decodeWire ids h
  | statusByte b => cases h; exact encode_decodeStatusByte ids b
  | resultWord w => cases h; exact encode_decodeResultWord ids w
  | cfgWord w => exact encode_of_decodeCfgWord h

end Sys2Proof.Laws

/-! What one step can do, said once (R20, R24, R30, R64). A host operation is accepted in one of a few shapes
(`Accepted`). A frame is one transport call that goes on with what the call brought, and a content or a word is an
internal step; what these do to the state besides PHASE and SEL is one of the shapes of `Advance`, after the phase
machine has seen a start command or a snapshot (`Effect`). -/

namespace Sys2Proof.Laws
open Sys2Proof.Machine

/-! ## The shapes of a step -/

/-- What an averaging operation accumulates: the number of rounds wanted and the channels it sums (R225, R230). -/
def accumulates : Job → Option (BitVec 16 × (Channel → Bool))
  | .avg c n => some (n, (· == c))
  | .avgm chset n => some (n, isMember chset)
  | _ => none

/-- AVG and AVGM. -/
def Averages (job : Job) : Prop := (accumulates job).isSome = true

theorem averages_iff (job : Job) : Averages job ↔ (∃ c n, job = .avg c n) ∨ ∃ chset n, job = .avgm chset n := by
  cases job <;> simp [Averages, accumulates]

/-- The operations whose start command is the phase machine's (R201). -/
def StartsConversion (job : Job) : Prop := job = .start ∨ job = .startm ∨ Averages job

/-- The top of a round loop with `n` rounds wanted (R224, R225, R230): finished, unattainable, or a further round. -/
inductive RoundTop (n : BitVec 16) (s : State) : State → Prop
  | finished (d : Nat) {r : Res} (hr : ResLegal s.par { r with code := some 0 }) :
    RoundTop n s (ended { s with draws := d } r)
  | unattainable : RoundTop n s (raised s 3 none)
  | further {p : Pending} (hfits : PendingFits s.par.typeIds s.job p) (hmore : s.cnt.toNat < n.toNat) :
    RoundTop n s { s with rnd := s.rnd + 1, pending := p }

/-- The end of a round over a set of channels (R221, R225, R230): a reading is added to each of their sums and the round
is counted, or nothing is. -/
inductive RoundAdded (mem : Channel → Bool) (s : State) : State → Prop
  | skipped : RoundAdded mem s s
  | added (raw : Channel → BitVec 24) (sum : Vector (BitVec 40) 20)
    (hsum : ∀ c, mem c = true → sum[c] = addReading s.sum[c] (raw c)) :
    RoundAdded mem s { s with sum := sum, cnt := s.cnt + 1 }

/-- Everything the first step of a host operation can do (R24, R27): it is over, rejected, begun, or at the top of its
averaging loop. -/
inductive Accepted : Instr → State → State → Prop
  | complete {i s} (d : Nat) {r : Res} (hr : ResLegal s.par { r with code := some 0 }) :
    Accepted i s (ended { s with draws := d } r)
  | reject {i s} : Accepted i s (raised s 4 none)
  | begin {i s} (d : Nat) {job : Job} {p : Pending} (hrun : job ≠ .none) (hjob : accumulates job = none)
    (hfits : PendingFits s.par.typeIds job p) : Accepted i s (begun { s with draws := d } job p)
  | avg {ch n s t} (c : Channel)
    (h : RoundTop n (begun { s with sum := s.sum.set c 0, cnt := 0, rnd := 0, polls := 0 } (.avg c n) .none) t) :
    Accepted (.avg ch n) s t
  | avgm {chset n s t} (sum : Vector (BitVec 40) 20) (hsum : ∀ c, isMember chset c = true → sum[c] = 0)
    (h : RoundTop n (begun { s with sum := sum, cnt := 0, rnd := 0, polls := 0 } (.avgm chset n) .none) t) :
    Accepted (.avgm chset n) s t

/-- Everything a later step can do to the state besides PHASE, SEL and the transport call it makes. -/
inductive Advance (s : State) : State → Prop
  | complete (rd : Vector Reading 20) {r : Res} (hr : ResLegal s.par { r with code := some 0 }) :
    Advance s (ended { s with readings := rd } r)
  | goOn (rd : Vector Reading 20) {p : Pending}
    (hfits : PendingFits s.par.typeIds s.job s.pending → PendingFits s.par.typeIds s.job p) :
    Advance s { s with readings := rd, pending := p }
  | poll (k : Nat) {p : Pending} (hjob : Averages s.job) (hfits : PendingFits s.par.typeIds s.job p) :
    Advance s { s with polls := k, pending := p }
  | round {n mem u t} (k : Nat) (rd : Vector Reading 20) (hjob : accumulates s.job = some (n, mem))
    (hadd : RoundAdded mem { s with polls := k, readings := rd } u) (htop : RoundTop n u t) : Advance s t

/-- What a later step can do, PHASE and SEL included (R201): a start command sent for START, STARTM, AVG or AVGM, and a
snapshot, go through the phase machine. -/
inductive Effect : Instr → State → State → Prop
  | plain {i s t} (h : Advance s t) : Effect i s t
  | start {c s t} (hjob : StartsConversion s.job) (h : Advance (s.startPhase c) t) : Effect (.fStart c) s t
  | status {a d u ch s t} (h : Advance (s.statusPhase d) t) : Effect (.statusByte a d u ch) s t

/-! ## Legal records -/

theorem resLegal_of_plain {par : Params} {r : Res} (hcode : r.code = some 0) (hinfo : r.info = none)
    (htag : ∀ x, r.tag = some x → x ≠ 0) (hmtag : ∀ (c : Channel) x, r.mtag[c] = some x → x ≠ 0) : ResLegal par r := by
  refine ⟨?_, ?_, htag, hmtag⟩
  · intro x hx
    rw [hcode] at hx
    cases hx
    exact .inl rfl
  · intro x hx
    rw [hinfo] at hx
    cases hx

theorem empty_mtag_getElem (c : Channel) : Res.empty.mtag[c] = none := Vector.getElem_replicate c.isLt

/-- A record without a tag. -/
theorem resLegal_of_noTag {par : Params} {r : Res} (hcode : r.code = some 0) (hinfo : r.info = none)
    (htag : r.tag = none) (hmtag : r.mtag = Res.empty.mtag) : ResLegal par r := by
  refine resLegal_of_plain hcode hinfo (by simp [htag]) ?_
  intro c x hx
  rw [hmtag, empty_mtag_getElem] at hx
  cases hx

theorem Reading.tag_ne_zero (r : Reading) : r.tag ≠ 0 := by
  unfold Reading.tag classifyErr
  split_ifs <;> decide

theorem Reading.resLegal (par : Params) (r : Reading) : ResLegal par { r.res with code := some 0 } := by
  refine resLegal_of_plain rfl rfl ?_ ?_
  · rintro x ⟨⟩
    exact Reading.tag_ne_zero r
  · intro c x hx
    rw [show ({ r.res with code := some 0 } : Res).mtag = Res.empty.mtag from rfl, empty_mtag_getElem] at hx
    cases hx

theorem multiRes_resLegal (par : Params) (chset : ChSet) (rd : Vector Reading 20) :
    ResLegal par { multiRes chset rd with code := some 0 } := by
  refine resLegal_of_plain rfl rfl (by rintro x ⟨⟩) ?_
  intro c x hx
  have hentry : (perMember chset fun c => some rd[c].tag)[c] = some x := hx
  rw [perMember, Fin.getElem_fin, Vector.getElem_ofFn] at hentry
  split at hentry
  · cases hentry
    exact Reading.tag_ne_zero _
  · cases hentry

/-! ## The averaging loops -/

theorem State.avgRound_top {s : State} {c : Channel} {n : BitVec 16} (hjob : s.job = .avg c n) :
    RoundTop n s (s.avgRound c n) := by
  by_cases hn : n = 0
  · subst hn
    rw [State.avgRound_zero, State.completeAvg_zero]
    exact .finished _ (resLegal_of_noTag rfl rfl rfl rfl)
  · rw [State.avgRound_eq s c n hn]
    split_ifs with hdone hbound
    · exact .finished s.draws (resLegal_of_noTag rfl rfl rfl rfl)
    · exact .unattainable
    · refine .further ?_ (by omega)
      rw [hjob, ← startFrame_eq_bytes]
      exact .inl rfl

theorem State.avgmRound_top {s : State} {chset : ChSet} {n : BitVec 16} (hjob : s.job = .avgm chset n) :
    RoundTop n s (s.avgmRound chset n) := by
  by_cases hn : n = 0
  · subst hn
    rw [State.avgmRound_zero, State.completeAvgm_zero]
    exact .finished _ (resLegal_of_noTag rfl rfl rfl rfl)
  · rw [State.avgmRound_eq s chset n hn]
    split_ifs with hdone hbound
    · exact .finished s.draws (resLegal_of_noTag rfl rfl rfl rfl)
    · exact .unattainable
    · refine .further ?_ (by omega)
      rw [hjob, ← maskFrame_maskOf_eq_bytes]
      exact .inl rfl

theorem State.addAll_getElem (s : State) (chset : ChSet) (c : Channel) :
    (s.addAll chset)[c] = if isMember chset c then addReading s.sum[c] s.readings[c].raw else s.sum[c] :=
  Vector.getElem_ofFn c.isLt

/-- The end of a round of AVG (R225). -/
theorem State.avgRoundEnd_advance {s : State} {c : Channel} {n : BitVec 16} (hjob : s.job = .avg c n)
    (r : Reading) : Advance s (s.avgRoundEnd c n r) := by
  have hacc : accumulates s.job = some (n, (· == c)) := by rw [hjob]; rfl
  unfold State.avgRoundEnd
  split
  · refine .round s.polls s.readings hacc (.added (fun _ => r.raw) _ ?_) (State.avgRound_top hjob)
    intro d hd
    rw [beq_iff_eq.1 hd]
    exact Vector.getElem_set_self c.isLt
  · exact .round s.polls s.readings hacc .skipped (State.avgRound_top hjob)

/-- The end of a round of AVGM (R230), whatever has been written to POLLS and the readings in the step before it. -/
theorem State.avgmRoundEnd_advance {s : State} {chset : ChSet} {n : BitVec 16} (hjob : s.job = .avgm chset n)
    (k : Nat) (rd : Vector Reading 20) :
    Advance s ({ s with polls := k, readings := rd }.avgmRoundEnd chset n) := by
  have hacc : accumulates s.job = some (n, isMember chset) := by rw [hjob]; rfl
  unfold State.avgmRoundEnd
  split
  · refine .round k rd hacc (.added (fun c => rd[c].raw) _ ?_) (State.avgmRound_top hjob)
    intro c hc
    rw [State.addAll_getElem, if_pos hc]
  · exact .round k rd hacc .skipped (State.avgmRound_top hjob)

/-- A poll of AVG (R222). -/
theorem State.avgPolled_advance {s : State} {c : Channel} {n : BitVec 16} (hjob : s.job = .avg c n) (d : BitVec 1) :
    Advance s (s.avgPolled c d) := by
  have haverages : Averages s.job := by rw [hjob]; rfl
  have hfits {p : Pending} (h : PendingFits s.par.typeIds (.avg c n) p) : PendingFits s.par.typeIds s.job p := by rwa [hjob]
  unfold State.avgPolled
  dsimp only
  split
  · exact .poll _ haverages (hfits (.inr (.inr (.inr (.inl rfl)))))
  · exact .poll _ haverages (hfits (.inr (.inl rfl)))

/-- The steps of AVGM that read its members (R230). -/
theorem fits_avgm_resultFrame {ids : TypeIds} {chset : ChSet} {n : BitVec 16} {c : Channel} (hc : isMember chset c = true) :
    PendingFits ids (.avgm chset n) (.frame (resultFrame c)) :=
  .inr (.inr (.inr (.inr ⟨c, hc, .inl rfl⟩)))

/-- A poll of AVGM (R222, R231). -/
theorem State.avgmPolled_advance {s : State} {chset : ChSet} {n : BitVec 16} (hjob : s.job = .avgm chset n)
    (d : BitVec 1) : Advance s (s.avgmPolled chset n d) := by
  have haverages : Averages s.job := by rw [hjob]; rfl
  have hfits {p : Pending} (h : PendingFits s.par.typeIds (.avgm chset n) p) : PendingFits s.par.typeIds s.job p := by
    rwa [hjob]
  unfold State.avgmPolled State.avgmReads
  dsimp only
  split
  · split
    next c hc => exact .poll _ haverages (hfits (fits_avgm_resultFrame (firstMember_isMember chset c hc)))
    next => exact State.avgmRoundEnd_advance hjob _ _
  · exact .poll _ haverages (hfits (.inr (.inr (.inl rfl))))

/-! ## Draws -/

/-- The encoding of a field changes the counter of draws at most (R131 to R133). -/
theorem State.encField_snd (s : State) (b : Word) (k W : Nat) :
    (s.encField b k W).2 = { s with draws := (fieldFormula s.draws b k W).2 } := by
  rw [State.encField_eq]

theorem State.encIdf_snd (s : State) (p : DiodeOperands) :
    (s.encIdf p).2 = { s with draws := (idfFormula s.draws p).2 } := by
  rw [State.encIdf_eq]

/-! ## Completions and beginnings as shapes -/

section
variable {i : Instr} {s : State}

theorem accepted_complete {r : Res} (hr : ResLegal s.par { r with code := some 0 }) : Accepted i s (s.complete r) :=
  .complete s.draws hr

/-- A completion with a record that holds no tag. -/
theorem accepted_complete_noTag {r : Res} (hinfo : r.info = none) (htag : r.tag = none)
    (hmtag : r.mtag = Res.empty.mtag) : Accepted i s (s.complete r) :=
  accepted_complete (resLegal_of_noTag rfl hinfo htag hmtag)

theorem accepted_begin {job : Job} {p : Pending} (hrun : job ≠ .none) (hjob : accumulates job = none)
    (hfits : PendingFits s.par.typeIds job p) : Accepted i s (s.beginJob job p) :=
  .begin s.draws hrun hjob hfits

theorem advance_complete {r : Res} (hr : ResLegal s.par { r with code := some 0 }) : Advance s (s.complete r) :=
  .complete s.readings hr

theorem advance_complete_noTag {r : Res} (hinfo : r.info = none) (htag : r.tag = none)
    (hmtag : r.mtag = Res.empty.mtag) : Advance s (s.complete r) :=
  advance_complete (resLegal_of_noTag rfl hinfo htag hmtag)

theorem advance_pending {p : Pending}
    (hfits : PendingFits s.par.typeIds s.job s.pending → PendingFits s.par.typeIds s.job p) :
    Advance s { s with pending := p } := .goOn s.readings hfits

theorem advance_frameConfig (w : Word) : Advance s (s.frameConfig w) := by
  unfold State.frameConfig
  split
  next c hjob =>
    refine advance_pending fun _ => ?_
    rw [hjob]
    exact .inr ⟨w, rfl⟩
  next => exact advance_complete_noTag rfl rfl rfl

theorem advance_completeRead (len : BitVec 3) (rx : Rx) : Advance s (s.completeRead len rx) :=
  advance_complete_noTag rfl rfl rfl

theorem advance_nextRead {chset : ChSet} {c : Channel} {r : Reading} {finish : State → State}
    (hfits : ∀ d, isMember chset d = true → PendingFits s.par.typeIds s.job (.frame (resultFrame d)))
    (hfinish : Advance s (finish (s.keepReading c r))) :
    Advance s ((s.keepReading c r).nextRead chset c finish) := by
  unfold State.nextRead
  split
  next d hd => exact .goOn _ fun _ => hfits d (nextMember_isMember chset c d hd)
  next => exact hfinish

end

/-! ## The first step of the host operations on legal operands -/

section
variable {s : State} {ch : BitVec 5} {c : Channel}

theorem exec_enctc_of_legal {sub : BitVec 3} {p : TcFields} (hp : tcLegal p = true) :
    exec (.enctc sub p) s = .next (s.complete { Res.empty with word := some (encTc s.par sub p) }) := if_pos hp

theorem exec_encrtd_of_legal {sub : BitVec 3} {p : RtdOperands} (hp : rtdLegal p = true) :
    exec (.encrtd sub p) s = .next (s.complete { Res.empty with word := some (encRtd s.par sub p) }) := if_pos hp

theorem exec_cfgtc_of_legal {sub : BitVec 3} {p : TcFields} (hc : channelOfPort ch = some c) (hp : tcLegal p = true) :
    exec (.cfgtc ch sub p) s = .next (begun s (.cfg c) (.cfgWord (encTc s.par sub p))) := by
  simp only [exec, execCfgtc, hc, if_pos hp]
  rfl

theorem exec_cfgrtd_of_legal {sub : BitVec 3} {p : RtdOperands} (hc : channelOfPort ch = some c)
    (hp : rtdLegal p = true) :
    exec (.cfgrtd ch sub p) s = .next (begun s (.cfg c) (.cfgWord (encRtd s.par sub p))) := by
  simp only [exec, execCfgrtd, hc, if_pos hp]
  rfl

theorem exec_cfgdio_of_channelOfPort (p : DiodeOperands) (hc : channelOfPort ch = some c) :
    exec (.cfgdio ch p) s =
      .next (begun { s with draws := (idfFormula s.draws p).2 } (.cfg c)
        (.cfgWord (encDiode s.par p (idfFormula s.draws p).1))) := by
  simp only [exec, execCfgdio, hc, State.encIdf_eq]
  rfl

theorem exec_cfgrs_of_channelOfPort (fval : Word) (hc : channelOfPort ch = some c) :
    exec (.cfgrs ch fval) s =
      .next (begun { s with draws := (fieldFormula s.draws fval 10 27).2 } (.cfg c)
        (.cfgWord (encSense s.par (fieldFormula s.draws fval 10 27).1))) := by
  simp only [exec, execCfgrs, hc, State.encField_eq]
  rfl

theorem exec_wrreg_of_legal {addr : Addr} {len : BitVec 3} {wdata : Word} (hlen : len.toNat ≤ 4) :
    exec (.wrreg addr len wdata) s =
      .next (begun s .wrreg (.frame (writeFrame addr ((be32 wdata).take len.toNat)))) :=
  if_pos (decide_eq_true hlen)

theorem exec_start_of_channelOfPort (hc : channelOfPort ch = some c) :
    exec (.start ch) s = .next (begun s .start (.frame (startFrame (channelNumber c)))) := by
  simp only [exec, execStart, hc]
  rfl

theorem exec_rdtempm_of_firstMember {chset : ChSet} (hc : firstMember chset = some c) :
    exec (.rdtempm chset) s = .next (begun s (.rdtempm chset) (.frame (resultFrame c))) := by
  simp only [exec, execRdtempm, hc]
  rfl

theorem exec_rdtempm_of_noMember {chset : ChSet} (hc : firstMember chset = none) :
    exec (.rdtempm chset) s = .next (ended s (multiRes chset s.readings)) := by
  simp only [exec, execRdtempm, hc]
  rfl

/-- AVG before its first round (R225): working registers cleared, no step pending yet. -/
theorem exec_avg_of_channelOfPort (n : BitVec 16) (hc : channelOfPort ch = some c) :
    exec (.avg ch n) s =
      .next ((begun { s with sum := s.sum.set c 0, cnt := 0, rnd := 0, polls := 0 } (.avg c n) .none).avgRound c n) := by
  simp only [exec, execAvg, hc]
  rfl

/-- SUM with the members' sums cleared (R230). -/
def clearedSums (s : State) (chset : ChSet) : Vector (BitVec 40) 20 :=
  Vector.ofFn fun c => if isMember chset c then 0 else s.sum[c]

theorem clearedSums_getElem (chset : ChSet) (c : Channel) :
    (clearedSums s chset)[c] = if isMember chset c then 0 else s.sum[c] := Vector.getElem_ofFn c.isLt

/-- AVGM before its first round (R230). -/
theorem exec_avgm (chset : ChSet) (n : BitVec 16) :
    exec (.avgm chset n) s =
      .next ((begun { s with sum := clearedSums s chset, cnt := 0, rnd := 0, polls := 0 } (.avgm chset n)
        .none).avgmRound chset n) := rfl

end

/-! ## The host operations -/

theorem channelOfPort_of_wellFormed {ch : BitVec 5} (h : WellFormed.ch ch = true) : ∃ c, channelOfPort ch = some c :=
  ⟨_, channelOfPort_of_legal ch (of_decide_eq_true h)⟩

/-- The first step of every host operation (R24): over at once, begun, or the top of an averaging loop. -/
theorem exec_port_accepted {i : Instr} {s : State} {o : Opr} (hport : encode s.par.typeIds i = .port o) :
    ∃ t, exec i s = .next t ∧ Accepted i s t := by
  by_cases hlegal : WellFormed i = true
  case neg => exact ⟨_, exec_of_illFormed hport (Bool.eq_false_iff.2 hlegal), .reject⟩
  cases i with
  | encq fval k =>
    refine ⟨_, rfl, ?_⟩
    rw [State.encField_snd]
    exact .complete _ (resLegal_of_noTag rfl rfl rfl rfl)
  | encidf fval =>
    refine ⟨_, rfl, ?_⟩
    rw [State.encField_snd]
    exact .complete _ (resLegal_of_noTag rfl rfl rfl rfl)
  | encrs fval =>
    refine ⟨_, rfl, ?_⟩
    rw [State.encField_snd]
    exact .complete _ (resLegal_of_noTag rfl rfl rfl rfl)
  | encdio p =>
    refine ⟨_, rfl, ?_⟩
    rw [State.encIdf_snd]
    exact .complete _ (resLegal_of_noTag rfl rfl rfl rfl)
  | decq raw => exact ⟨_, rfl, accepted_complete_noTag rfl rfl rfl⟩
  | mkmask chset => exact ⟨_, rfl, accepted_complete_noTag rfl rfl rfl⟩
  | classify err raw => exact ⟨_, rfl, accepted_complete (Reading.resLegal _ _)⟩
  | chmap ch =>
    obtain ⟨c, hc⟩ := channelOfPort_of_wellFormed hlegal
    exact ⟨_, exec_chmap_of_channelOfPort hc s, accepted_complete_noTag rfl rfl rfl⟩
  | enctc sub p =>
    exact ⟨_, exec_enctc_of_legal ((tcLegal_eq_wellFormed p).trans hlegal),
      accepted_complete_noTag rfl rfl rfl⟩
  | encrtd sub p =>
    exact ⟨_, exec_encrtd_of_legal ((rtdLegal_eq_wellFormed p).trans hlegal),
      accepted_complete_noTag rfl rfl rfl⟩
  | cfgtc ch sub p =>
    obtain ⟨hch, hp⟩ := Bool.and_eq_true_iff.1 hlegal
    obtain ⟨c, hc⟩ := channelOfPort_of_wellFormed hch
    obtain ⟨j, hj⟩ := decodeCfgWord_encTc s.par sub p
    exact ⟨_, exec_cfgtc_of_legal hc ((tcLegal_eq_wellFormed p).trans hp),
      accepted_begin (job := .cfg c) nofun rfl (.inl ⟨_, j, rfl, hj⟩)⟩
  | cfgrtd ch sub p =>
    obtain ⟨hch, hp⟩ := Bool.and_eq_true_iff.1 hlegal
    obtain ⟨c, hc⟩ := channelOfPort_of_wellFormed hch
    obtain ⟨j, hj⟩ := decodeCfgWord_encRtd s.par sub p
    exact ⟨_, exec_cfgrtd_of_legal hc ((rtdLegal_eq_wellFormed p).trans hp),
      accepted_begin (job := .cfg c) nofun rfl (.inl ⟨_, j, rfl, hj⟩)⟩
  | cfgdio ch p =>
    obtain ⟨c, hc⟩ := channelOfPort_of_wellFormed hlegal
    obtain ⟨j, hj⟩ := decodeCfgWord_encDiode s.par p (idfFormula s.draws p).1
    exact ⟨_, exec_cfgdio_of_channelOfPort p hc, .begin (job := .cfg c) _ nofun rfl (.inl ⟨_, j, rfl, hj⟩)⟩
  | cfgrs ch fval =>
    obtain ⟨c, hc⟩ := channelOfPort_of_wellFormed hlegal
    obtain ⟨j, hj⟩ := decodeCfgWord_encSense s.par (fieldFormula s.draws fval 10 27).1
    exact ⟨_, exec_cfgrs_of_channelOfPort fval hc, .begin (job := .cfg c) _ nofun rfl (.inl ⟨_, j, rfl, hj⟩)⟩
  | wrreg addr len wdata =>
    exact ⟨_, exec_wrreg_of_legal (of_decide_eq_true hlegal),
      accepted_begin (job := .wrreg) nofun rfl ⟨addr, _, List.length_take_le' _ _, rfl⟩⟩
  | rdreg addr len =>
    exact ⟨_, exec_rdreg_of_legal s addr (of_decide_eq_true hlegal),
      accepted_begin (job := .rdreg) nofun rfl ⟨addr, len.toNat, of_decide_eq_true hlegal, rfl⟩⟩
  | start ch =>
    obtain ⟨c, hc⟩ := channelOfPort_of_wellFormed hlegal
    exact ⟨_, exec_start_of_channelOfPort hc, accepted_begin (job := .start) nofun rfl ⟨c, rfl⟩⟩
  | startm chset => exact ⟨_, rfl, accepted_begin (job := .startm) nofun rfl (.inl ⟨chset, rfl⟩)⟩
  | status => exact ⟨_, rfl, accepted_begin (job := .status) nofun rfl (.inl rfl)⟩
  | rdtemp ch =>
    obtain ⟨c, hc⟩ := channelOfPort_of_wellFormed hlegal
    exact ⟨_, exec_rdtemp_of_channelOfPort hc s, accepted_begin (job := .rdtemp) nofun rfl ⟨c, .inl rfl⟩⟩
  | rdtempm chset =>
    cases hc : firstMember chset with
    | none => exact ⟨_, exec_rdtempm_of_noMember hc, accepted_complete (multiRes_resLegal _ _ _)⟩
    | some c =>
      exact ⟨_, exec_rdtempm_of_firstMember hc,
        accepted_begin (job := .rdtempm chset) nofun rfl ⟨c, firstMember_isMember chset c hc, .inl rfl⟩⟩
  | avg ch n =>
    obtain ⟨c, hc⟩ := channelOfPort_of_wellFormed hlegal
    exact ⟨_, exec_avg_of_channelOfPort n hc, .avg c (State.avgRound_top rfl)⟩
  | avgm chset n =>
    refine ⟨_, exec_avgm chset n, .avgm _ ?_ (State.avgmRound_top rfl)⟩
    intro c hc
    rw [clearedSums_getElem, if_pos hc]
  | _ => cases hport

/-! ## The frames -/

theorem writeFrame_ne_readFrame {a a' : Addr} {payload : List Byte} {n : Nat} :
    writeFrame a payload ≠ readFrame a' n := by
  intro h
  have hfirst : (0x02 : Byte) = 0x03 := (List.cons.inj h).1
  exact absurd hfirst (by decide)

theorem resultFrame_ne_statusFrame (c : Channel) : resultFrame c ≠ statusFrame := by
  revert c
  decide

/-- Where the status read is a step of the operation, its byte is the next one, unless it is an RDREG's (R206). -/
theorem fits_statusByte {ids : TypeIds} {job : Job} (h : PendingFits ids job (.frame statusFrame)) (hjob : job ≠ .rdreg)
    (b : Byte) : PendingFits ids job (.statusByte b) := by
  cases job with
  | none => cases h
  | rdreg => exact absurd rfl hjob
  | status => exact .inr ⟨b, rfl⟩
  | avg c n => exact .inr (.inr (.inl ⟨b, rfl⟩))
  | avgm chset n => exact .inr (.inr (.inr (.inl ⟨b, rfl⟩)))
  | cfg c =>
    rcases h with ⟨w, i, h, -⟩ | ⟨w, h⟩
    · cases h
    · exact absurd (Pending.frame.inj h).symm writeFrame_ne_readFrame
  | wrreg =>
    obtain ⟨addr, payload, -, h⟩ := h
    exact absurd (Pending.frame.inj h).symm writeFrame_ne_readFrame
  | start =>
    obtain ⟨c, h⟩ := h
    exact absurd (Pending.frame.inj h).symm writeFrame_ne_readFrame
  | startm =>
    rcases h with ⟨chset, h⟩ | h
    · exact absurd (Pending.frame.inj h).symm writeFrame_ne_readFrame
    · exact absurd (Pending.frame.inj h).symm writeFrame_ne_readFrame
  | rdtemp =>
    obtain ⟨c, h | ⟨w, h⟩⟩ := h
    · exact absurd (Pending.frame.inj h).symm (resultFrame_ne_statusFrame c)
    · cases h
  | rdtempm chset =>
    obtain ⟨c, -, h | ⟨w, h⟩⟩ := h
    · exact absurd (Pending.frame.inj h).symm (resultFrame_ne_statusFrame c)
    · cases h

/-- A channel's result read names that channel in its row's field (R208). -/
theorem channelOfResultField_of_resultFrame {a : BitVec 5} {c d : Channel}
    (hframe : readFrame (resultFieldAddr a) 4 = resultFrame d) (hc : channelOfResultField a = some c) : c = d := by
  have hlegal : 4 ≤ a.toNat ∧ a.toNat ≤ 23 := by
    by_contra hill
    simp [channelOfResultField, hill] at hc
  have hrow := (decodeWire_resultField a hlegal).symm.trans ((congrArg decodeWire hframe).trans (decodeWire_resultFrame d))
  rw [Instr.fResultRd.inj (Except.ok.inj hrow), (resultField_of_channel d).1] at hc
  exact (Option.some.inj hc).symm

theorem resultField_ne_statusFrame (a : BitVec 5) : readFrame (resultFieldAddr a) 4 ≠ statusFrame := by
  revert a
  decide

/-- Where a channel's result read is a step of the operation, its word is the next one, unless it is an RDREG's (R208). -/
theorem fits_resultWord {ids : TypeIds} {job : Job} {a : BitVec 5} {c : Channel}
    (h : PendingFits ids job (.frame (readFrame (resultFieldAddr a) 4))) (hjob : job ≠ .rdreg)
    (hc : channelOfResultField a = some c) (w : Word) : PendingFits ids job (.resultWord c w) := by
  cases job with
  | none => cases h
  | rdreg => exact absurd rfl hjob
  | status =>
    rcases h with h | ⟨b, h⟩
    · exact absurd (Pending.frame.inj h) (resultField_ne_statusFrame a)
    · cases h
  | avg d n =>
    rcases h with h | h | ⟨b, h⟩ | h | ⟨w', h⟩
    · exact absurd (Pending.frame.inj h).symm writeFrame_ne_readFrame
    · exact absurd (Pending.frame.inj h) (resultField_ne_statusFrame a)
    · cases h
    · rw [channelOfResultField_of_resultFrame (Pending.frame.inj h) hc]
      exact .inr (.inr (.inr (.inr ⟨w, rfl⟩)))
    · cases h
  | avgm chset n =>
    rcases h with h | h | h | ⟨b, h⟩ | ⟨d, hd, h | ⟨w', h⟩⟩
    · exact absurd (Pending.frame.inj h).symm writeFrame_ne_readFrame
    · exact absurd (Pending.frame.inj h).symm writeFrame_ne_readFrame
    · exact absurd (Pending.frame.inj h) (resultField_ne_statusFrame a)
    · cases h
    · obtain rfl := channelOfResultField_of_resultFrame (Pending.frame.inj h) hc
      exact .inr (.inr (.inr (.inr ⟨c, hd, .inr ⟨w, rfl⟩⟩)))
    · cases h
  | cfg d =>
    rcases h with ⟨w, i, h, -⟩ | ⟨w, h⟩
    · cases h
    · exact absurd (Pending.frame.inj h).symm writeFrame_ne_readFrame
  | wrreg =>
    obtain ⟨addr, payload, -, h⟩ := h
    exact absurd (Pending.frame.inj h).symm writeFrame_ne_readFrame
  | start =>
    obtain ⟨d, h⟩ := h
    exact absurd (Pending.frame.inj h).symm writeFrame_ne_readFrame
  | startm =>
    rcases h with ⟨chset, h⟩ | h
    · exact absurd (Pending.frame.inj h).symm writeFrame_ne_readFrame
    · exact absurd (Pending.frame.inj h).symm writeFrame_ne_readFrame
  | rdtemp => exact ⟨c, .inr ⟨w, rfl⟩⟩
  | rdtempm chset =>
    obtain ⟨d, hd, h | ⟨w', h⟩⟩ := h
    · obtain rfl := channelOfResultField_of_resultFrame (Pending.frame.inj h) hc
      exact ⟨c, hd, .inr ⟨w, rfl⟩⟩
    · cases h

/-- A frame's row is one call of the transport with that frame (R64 to R66); what follows an `Ok`, for the operation
whose step the frame is, is one of the shapes. -/
theorem exec_wire_transact {ids : TypeIds} {i : Instr} {frame : List Byte} (hwire : encode ids i = .wire frame) :
    ∃ k : Rx → State → State, (∀ s, exec i s = transact frame s k) ∧
      ∀ rx s, s.pending = .frame frame → Effect i s (k rx s) := by
  cases i with
  | wWrite addr payload => cases hwire; exact ⟨_, fun _ => rfl, fun _ _ _ => .plain (advance_complete_noTag rfl rfl rfl)⟩
  | wRead addr n => cases hwire; exact ⟨_, fun _ => rfl, fun rx _ _ => .plain (advance_completeRead n rx)⟩
  | fStart c =>
    cases hwire
    refine ⟨_, fun _ => by rw [exec, execFStart], fun rx s _ => ?_⟩
    split
    next hjob => exact .start (.inl hjob) (advance_complete_noTag rfl rfl rfl)
    next hjob => exact .start (.inr (.inl hjob)) (advance_complete_noTag rfl rfl rfl)
    next hjob =>
      have haverages : Averages s.job := by rw [hjob]; rfl
      refine .start (.inr (.inr haverages)) (.poll 0 haverages ?_)
      rw [State.startPhase_job, hjob]
      exact .inr (.inl rfl)
    next hjob =>
      have haverages : Averages s.job := by rw [hjob]; rfl
      refine .start (.inr (.inr haverages)) (.poll 0 haverages ?_)
      rw [State.startPhase_job, hjob]
      exact .inr (.inr (.inl rfl))
    next => exact .plain (advance_complete_noTag rfl rfl rfl)
  | fMask m =>
    cases hwire
    refine ⟨_, fun _ => by rw [exec, execFMask], fun rx s _ => ?_⟩
    split
    next hjob =>
      refine .plain (advance_pending fun _ => ?_)
      rw [hjob]
      exact .inr rfl
    next hjob =>
      refine .plain (advance_pending fun _ => ?_)
      rw [hjob]
      exact .inr (.inl rfl)
    next => exact .plain (advance_complete_noTag rfl rfl rfl)
  | fCfg a w =>
    cases hwire
    refine ⟨_, fun _ => by rw [exec, execFCfg], fun rx s _ => ?_⟩
    split
    · exact .plain (advance_complete_noTag rfl rfl rfl)
    · exact .plain (advance_complete_noTag rfl rfl rfl)
  | fStatusRd =>
    cases hwire
    refine ⟨_, fun _ => by rw [exec, execFStatusRd], fun rx s hpending => ?_⟩
    split
    · exact .plain (advance_completeRead 1 rx)
    next hjob =>
      refine .plain (advance_pending fun hfits => ?_)
      rw [hpending] at hfits
      exact fits_statusByte hfits hjob _
  | fResultRd a =>
    cases hwire
    refine ⟨_, fun _ => by rw [exec, execFResultRd], fun rx s hpending => ?_⟩
    split
    · exact .plain (advance_completeRead 4 rx)
    next c hc hjob =>
      refine .plain (advance_pending fun hfits => ?_)
      rw [hpending] at hfits
      exact fits_resultWord hfits hjob hc _
    · exact .plain (advance_completeRead 4 rx)
  | _ => cases hwire

/-! ## The contents and the words -/

theorem exec_statusByte_effect (a d u : BitVec 1) (ch : BitVec 5) (s : State) :
    ∃ t, exec (.statusByte a d u ch) s = .next t ∧ Effect (.statusByte a d u ch) s t := by
  simp only [exec, execStatusByte]
  split
  next c n hjob => exact ⟨_, rfl, .status (State.avgPolled_advance hjob d)⟩
  next chset n hjob => exact ⟨_, rfl, .status (State.avgmPolled_advance hjob d)⟩
  next => exact ⟨_, rfl, .status (advance_complete_noTag rfl rfl rfl)⟩

theorem exec_resultWord_advance (err : Byte) (raw : BitVec 24) (s : State) :
    ∃ t, exec (.resultWord err raw) s = .next t ∧ Advance s t := by
  simp only [exec, execResultWord]
  split
  next chset c hjob _ =>
    refine ⟨_, rfl, advance_nextRead ?_ (.complete _ (multiRes_resLegal _ _ _))⟩
    intro d hd
    rw [hjob]
    exact ⟨d, hd, .inl rfl⟩
  next c n hjob => exact ⟨_, rfl, State.avgRoundEnd_advance hjob _⟩
  next chset n c hjob _ =>
    refine ⟨_, rfl, advance_nextRead ?_ (State.avgmRoundEnd_advance hjob s.polls _)⟩
    intro d hd
    rw [hjob]
    exact fits_avgm_resultFrame hd
  next => exact ⟨_, rfl, advance_complete (Reading.resLegal _ _)⟩

theorem exec_cfgWord_advance {ids : TypeIds} {i : Instr} {w : Word} (hword : encode ids i = .cfgWord w) (s : State) :
    ∃ t, exec i s = .next t ∧ Advance s t := by
  cases i with
  | cfgwordTcJ | cfgwordTcK | cfgwordTcE | cfgwordTcN | cfgwordTcR | cfgwordTcS | cfgwordTcT | cfgwordTcB
  | cfgwordRtdPt10 | cfgwordRtdPt50 | cfgwordRtdPt100 | cfgwordRtdPt200 | cfgwordRtdPt500 | cfgwordRtdPt1000
  | cfgwordRtd1000Ohm | cfgwordRtdNi120 | cfgwordDiode | cfgwordSense => exact ⟨_, rfl, advance_frameConfig _⟩
  | _ => cases hword

/-- A register content or a configuration word is an internal step. -/
theorem exec_content_effect {ids : TypeIds} {i : Instr} (hport : ∀ o, encode ids i ≠ .port o)
    (hwire : ∀ frame, encode ids i ≠ .wire frame) (s : State) : ∃ t, exec i s = .next t ∧ Effect i s t := by
  have hplain (h : ∃ t, exec i s = .next t ∧ Advance s t) : ∃ t, exec i s = .next t ∧ Effect i s t :=
    h.imp fun _ h => ⟨h.1, .plain h.2⟩
  cases hi : encode ids i with
  | port o => exact absurd hi (hport o)
  | wire frame => exact absurd hi (hwire frame)
  | statusByte b =>
    cases i with
    | statusByte a d u ch => exact exec_statusByte_effect a d u ch s
    | _ => cases hi
  | resultWord w =>
    cases i with
    | resultWord err raw => exact hplain (exec_resultWord_advance err raw s)
    | _ => cases hi
  | cfgWord w => exact hplain (exec_cfgWord_advance hi s)

end Sys2Proof.Laws

/-! What a whole step can be, and the statements about every step (R23, R24, R66, R73, R201, R240, R270 to R273): the
running operation waits, fails, or takes effect; the idle block waits, is reset, or accepts what the host presents. -/

namespace Sys2Proof.Laws
open Sys2Proof.Machine

/-! ## The shapes of a step -/

theorem encode_of_decodeOp (ids : TypeIds) {o : Opr} {i : Instr} (h : decodeOp o = .ok i) :
    ∃ o', encode ids i = .port o' ∧ o'.op = o.op := by
  simp only [decodeOp] at h
  split at h
  all_goals cases h
  all_goals exact ⟨_, rfl, BitVec.eq_of_toNat_eq (by symm; assumption)⟩

theorem pendingItem_eq_wire_iff {s : State} {frame : List Byte} :
    s.pendingItem = some (.wire frame) ↔ s.pending = .frame frame := by
  cases hp : s.pending <;> simp [State.pendingItem, hp]

theorem pendingItem_ne_port (s : State) (o : Opr) : s.pendingItem ≠ some (.port o) := by
  cases hp : s.pending <;> simp [State.pendingItem, hp]

/-- Everything one step that goes on can be. -/
inductive StepShape (s : State) : State → Prop
  | waits : StepShape s s
  | resets (hidle : s.busy = false) {rest} (hhost : s.host = .reset :: rest) :
    StepShape s { s with host := rest }.resetBlock
  | illegal (hidle : s.busy = false) {o rest} (hhost : s.host = .present o :: rest) :
    StepShape s (raised (s.present o rest) 5 none)
  | accepts (hidle : s.busy = false) {o rest i o' t} (hhost : s.host = .present o :: rest)
    (hport : encode s.par.typeIds i = .port o') (hop : o'.op = o.op) (h : Accepted i (s.present o rest) t) :
    StepShape s t
  | internal (hbusy : s.busy = true) {i t} (hitem : s.pendingItem = some (encode s.par.typeIds i))
    (hwire : ∀ frame, encode s.par.typeIds i ≠ .wire frame) (h : Effect i s t) : StepShape s t
  | fails (hbusy : s.busy = true) {frame i} (hpending : s.pending = .frame frame) (hdecode : decodeWire frame = .ok i)
    (e : Nat) (rest) : StepShape s (raised (called s frame rest) 1 (some (e % 2 ^ s.par.terrW)))
  | returns (hbusy : s.busy = true) {frame i rx rest t} (hpending : s.pending = .frame frame)
    (hdecode : decodeWire frame = .ok i) (hanswers : s.answers = .ok rx :: rest)
    (h : Effect i (called s frame rest) t) : StepShape s t

/-- A step of the operation in progress. -/
theorem step_shape_of_busy {s t : State} {i : Instr} {it : Item} (hbusy : s.busy = true) (hitem : s.pendingItem = some it)
    (hdecode : decode s.par.typeIds it = .ok i) (hexec : exec i s = .next t) : StepShape s t := by
  have hport : ∀ o, it ≠ .port o := by
    rintro o rfl
    exact pendingItem_ne_port s o hitem
  have hencode := encodeInvertsDecode s.par.typeIds it i hport hdecode
  rw [← hencode] at hitem hport
  by_cases hwire : ∃ frame, it = .wire frame
  · obtain ⟨frame, rfl⟩ := hwire
    have hpending := pendingItem_eq_wire_iff.1 (hencode ▸ hitem)
    obtain ⟨k, hk, heffect⟩ := exec_wire_transact hencode
    rw [hk] at hexec
    rcases transact_cases hexec with ⟨-, rfl⟩ | ⟨e, rest, -, rfl⟩ | ⟨rx, rest, hanswers, rfl⟩
    · exact .waits
    · exact .fails hbusy hpending hdecode e rest
    · exact .returns hbusy hpending hdecode hanswers (heffect _ _ hpending)
  · have hwire : ∀ frame, encode s.par.typeIds i ≠ .wire frame := fun frame h => hwire ⟨frame, hencode ▸ h⟩
    obtain ⟨u, hu, heffect⟩ := exec_content_effect hport hwire s
    rw [hu] at hexec
    cases hexec
    exact .internal hbusy hitem hwire heffect

theorem step_shape {s t : State} (h : step s = .next t) : StepShape s t := by
  rcases step_cases s t h with ⟨hbusy, it, i, hitem, hdecode, hexec⟩ | ⟨-, -, rfl⟩ | ⟨hidle, rest, hhost, rfl⟩ |
    ⟨hidle, o, rest, hhost, ⟨i, hdecode, hexec⟩ | rfl⟩
  · exact step_shape_of_busy hbusy hitem hdecode hexec
  · exact .waits
  · exact .resets hidle hhost
  · obtain ⟨o', hport, hop⟩ := encode_of_decodeOp s.par.typeIds hdecode
    obtain ⟨u, hu, haccepted⟩ := exec_port_accepted (s := s.present o rest) hport
    rw [hu] at hexec
    cases hexec
    exact .accepts hidle hhost hport hop haccepted
  · exact .illegal hidle hhost

/-! ## What no instruction changes -/

/-- The parameters, the command port and the history of frames are as they were. -/
structure SameOutside (s t : State) : Prop where
  par : t.par = s.par
  host : t.host = s.host
  opr : t.opr = s.opr
  trace : t.trace = s.trace

theorem SameOutside.trans {s t u : State} (h : SameOutside s t) (h' : SameOutside t u) : SameOutside s u :=
  ⟨h'.par.trans h.par, h'.host.trans h.host, h'.opr.trans h.opr, h'.trace.trans h.trace⟩

theorem RoundTop.sameOutside {n : BitVec 16} {s t : State} (h : RoundTop n s t) : SameOutside s t := by
  cases h <;> exact ⟨rfl, rfl, rfl, rfl⟩

theorem RoundAdded.sameOutside {mem : Channel → Bool} {s t : State} (h : RoundAdded mem s t) : SameOutside s t := by
  cases h <;> exact ⟨rfl, rfl, rfl, rfl⟩

theorem Accepted.sameOutside {i : Instr} {s t : State} (h : Accepted i s t) : SameOutside s t := by
  cases h with
  | complete | reject | begin => exact ⟨rfl, rfl, rfl, rfl⟩
  | avg c h | avgm _ _ h =>
    obtain ⟨hpar, hhost, hopr, htrace⟩ := h.sameOutside
    exact ⟨hpar, hhost, hopr, htrace⟩

theorem Advance.sameOutside {s t : State} (h : Advance s t) : SameOutside s t := by
  cases h with
  | complete | goOn | poll => exact ⟨rfl, rfl, rfl, rfl⟩
  | round k rd _ hadd htop =>
    obtain ⟨hpar, hhost, hopr, htrace⟩ := hadd.sameOutside.trans htop.sameOutside
    exact ⟨hpar, hhost, hopr, htrace⟩

theorem statusPhase_sameOutside (s : State) (d : BitVec 1) : SameOutside s (s.statusPhase d) :=
  ⟨s.statusPhase_par d, s.statusPhase_host d, s.statusPhase_opr d, s.statusPhase_trace d⟩

theorem Effect.sameOutside {i : Instr} {s t : State} (h : Effect i s t) : SameOutside s t := by
  cases h with
  | plain h => exact h.sameOutside
  | start _ h =>
    obtain ⟨hpar, hhost, hopr, htrace⟩ := h.sameOutside
    exact ⟨hpar, hhost, hopr, htrace⟩
  | status h => exact (statusPhase_sameOutside _ _).trans h.sameOutside

/-- Settles O7: no shape of a step writes the parameters. -/
theorem parametersAreConstant : Obligations.ParametersAreConstant := by
  intro s t h
  cases step_shape h with
  | waits | resets | illegal | fails => rfl
  | accepts _ _ _ _ h => exact h.sameOutside.par
  | internal _ _ _ h => exact h.sameOutside.par
  | returns _ _ _ _ h => exact h.sameOutside.par

/-- Settles O5: with an operation in progress no shape of a step takes a host action or writes the record. -/
theorem hostHasNoStepWhileBusy : Obligations.HostHasNoStepWhileBusy := by
  intro s t hbusy h
  cases step_shape h with
  | waits | fails => exact ⟨rfl, rfl⟩
  | resets hidle | illegal hidle | accepts hidle => simp [hbusy] at hidle
  | internal _ _ _ h => exact ⟨h.sameOutside.host, h.sameOutside.opr⟩
  | returns _ _ _ _ h => exact ⟨h.sameOutside.host, h.sameOutside.opr⟩

/-- A frame begins with 0x02 or 0x03 and has at most four bytes after its header (R93, R94). -/
theorem bytes_of_decodeWire {bytes : List Byte} {i : Instr} (h : decodeWire bytes = .ok i) :
    ∃ hi lo rest, ∃ first : Byte, (first = 0x02 ∨ first = 0x03) ∧ rest.length ≤ 4 ∧ bytes = first :: hi :: lo :: rest := by
  rcases decodeWire_cases h with ⟨addr, payload, hlen, rfl, -⟩ | ⟨addr, n, hn, rfl, -⟩
  · exact ⟨_, _, payload, 0x02, .inl rfl, hlen, rfl⟩
  · exact ⟨_, _, List.replicate n 0, 0x03, .inr rfl, by simpa using hn, rfl⟩

/-- Settles O6: only the two shapes of a returned call add to the history, and they add the frame the block was at. -/
theorem historyGrowsByOneWholeFrame : Obligations.HistoryGrowsByOneWholeFrame := by
  intro s t h
  have hframe {frame : List Byte} {i : Instr} (hpending : s.pending = .frame frame)
      (hdecode : decodeWire frame = .ok i) (htrace : t.trace = s.trace ++ [frame]) :
      ∃ hi lo rest, ∃ first : Byte, (first = 0x02 ∨ first = 0x03) ∧ rest.length ≤ 4 ∧
        s.pending = .frame (first :: hi :: lo :: rest) ∧ t.trace = s.trace ++ [first :: hi :: lo :: rest] := by
    obtain ⟨hi, lo, rest, first, hfirst, hlen, rfl⟩ := bytes_of_decodeWire hdecode
    exact ⟨hi, lo, rest, first, hfirst, hlen, hpending, htrace⟩
  cases step_shape h with
  | waits | resets | illegal => exact .inl rfl
  | accepts _ _ _ _ h => exact .inl h.sameOutside.trace
  | internal _ _ _ h => exact .inl h.sameOutside.trace
  | fails _ hpending hdecode => exact .inr (hframe hpending hdecode rfl)
  | returns _ hpending hdecode _ h => exact .inr (hframe hpending hdecode h.sameOutside.trace)

/-! ## The working registers -/

/-- SUM, CNT, RND and POLLS are as they were (R23). -/
def SameWork (s t : State) : Prop := t.sum = s.sum ∧ t.cnt = s.cnt ∧ t.rnd = s.rnd ∧ t.polls = s.polls

/-- Of the host operations only AVG and AVGM write the working registers. -/
theorem Accepted.sameWork {ids : TypeIds} {i : Instr} {s t : State} {o : Opr} (h : Accepted i s t)
    (hport : encode ids i = .port o) : SameWork s t ∨ o.op = 0x16 ∨ o.op = 0x17 := by
  cases h with
  | complete | reject | begin => exact .inl ⟨rfl, rfl, rfl, rfl⟩
  | avg => cases hport; exact .inr (.inl rfl)
  | avgm => cases hport; exact .inr (.inr rfl)

/-- Of the operations in progress only AVG and AVGM write the working registers. -/
theorem Advance.sameWork {s t : State} (h : Advance s t) : SameWork s t ∨ Averages s.job := by
  cases h with
  | complete | goOn => exact .inl ⟨rfl, rfl, rfl, rfl⟩
  | poll _ hjob => exact .inr hjob
  | round _ _ hjob => exact .inr (by rw [Averages, hjob]; rfl)

theorem Effect.sameWork {i : Instr} {s t : State} (h : Effect i s t) : SameWork s t ∨ Averages s.job := by
  cases h with
  | plain h => exact h.sameWork
  | start _ h => exact h.sameWork
  | status h => simpa [SameWork] using h.sameWork

/-- Settles O8: of the shapes of a step only the reset and those of AVG and AVGM write the working registers. -/
theorem workingRegistersBelongToAveraging : Obligations.WorkingRegistersBelongToAveraging := by
  intro s t h
  cases step_shape h with
  | waits | illegal | fails => exact .inl ⟨rfl, rfl, rfl, rfl⟩
  | resets hidle hhost => exact .inr (.inr (.inr ⟨hidle, _, hhost⟩))
  | accepts hidle hhost hport hop h =>
    rcases h.sameWork hport with hsame | hcode
    · exact .inl hsame
    · rw [hop] at hcode
      exact .inr (.inr (.inl ⟨hidle, _, _, hhost, hcode⟩))
  | internal hbusy _ _ h =>
    exact h.sameWork.imp id fun hjob => .inl ⟨hbusy, (averages_iff s.job).1 hjob⟩
  | returns hbusy _ _ _ h =>
    exact h.sameWork.imp id fun hjob => .inl ⟨hbusy, (averages_iff s.job).1 hjob⟩

/-! ## The result record -/

/-- Ending with a code of R240 is legal; a payload belongs to TransportFailure and has its width. -/
theorem resLegal_raised {par : Params} {code : BitVec 3} {info : Option Nat} (hcode : code = 1 ∨ code = 3 ∨ code = 4 ∨ code = 5)
    (hinfo : ∀ x, info = some x → x < 2 ^ par.terrW) :
    ResLegal par { Res.empty with code := some code, info := info } := by
  refine ⟨?_, hinfo, by rintro x ⟨⟩, ?_⟩
  · rintro x ⟨⟩
    exact .inr hcode
  · intro c x hx
    rw [show ({ Res.empty with code := some code, info := info } : Res).mtag = Res.empty.mtag from rfl,
      empty_mtag_getElem] at hx
    cases hx

theorem resLegal_empty (par : Params) : ResLegal par Res.empty := by
  refine ⟨by rintro x ⟨⟩, by rintro x ⟨⟩, by rintro x ⟨⟩, ?_⟩
  intro c x hx
  rw [empty_mtag_getElem] at hx
  cases hx

theorem resLegal_raised_noInfo {par : Params} {code : BitVec 3} (hcode : code = 1 ∨ code = 3 ∨ code = 4 ∨ code = 5) :
    ResLegal par { Res.empty with code := some code, info := none } :=
  resLegal_raised hcode (by rintro x ⟨⟩)

/-- A legal record under the parameters of the state that holds it. -/
def HoldsLegal (s : State) : Prop := ResLegal s.par s.res

theorem RoundTop.holdsLegal {n : BitVec 16} {s t : State} (h : RoundTop n s t) (hs : HoldsLegal s) : HoldsLegal t := by
  cases h with
  | finished _ hr => exact hr
  | unattainable => exact resLegal_raised_noInfo (by decide)
  | further => exact hs

theorem Accepted.holdsLegal {i : Instr} {s t : State} (h : Accepted i s t) : HoldsLegal t := by
  cases h with
  | complete _ hr => exact hr
  | reject => exact resLegal_raised_noInfo (by decide)
  | begin => exact resLegal_empty _
  | avg _ h => exact h.holdsLegal (resLegal_empty _)
  | avgm _ _ h => exact h.holdsLegal (resLegal_empty _)

theorem Advance.holdsLegal {s t : State} (h : Advance s t) (hs : HoldsLegal s) : HoldsLegal t := by
  cases h with
  | complete _ hr => exact hr
  | goOn | poll => exact hs
  | round _ _ _ hadd htop =>
    refine htop.holdsLegal ?_
    cases hadd with
    | skipped | added => exact hs

theorem Effect.holdsLegal {i : Instr} {s t : State} (h : Effect i s t) (hs : HoldsLegal s) : HoldsLegal t := by
  cases h with
  | plain h => exact h.holdsLegal hs
  | start _ h => exact h.holdsLegal hs
  | status h => exact h.holdsLegal (by rwa [HoldsLegal, State.statusPhase_par, State.statusPhase_res])

/-- Settles O15: every shape of a step keeps the record, empties it, or writes a legal one. -/
theorem resultRecordStaysLegal : Obligations.ResultRecordStaysLegal := by
  intro s t hs h
  cases step_shape h with
  | waits => exact hs
  | resets => exact resLegal_empty _
  | illegal => exact resLegal_raised_noInfo (by decide)
  | accepts _ _ _ _ h => exact h.holdsLegal
  | internal _ _ _ h => exact h.holdsLegal hs
  | fails =>
    refine resLegal_raised (.inl rfl) ?_
    rintro x ⟨⟩
    exact Nat.mod_lt _ (Nat.two_pow_pos _)
  | returns _ _ _ _ h => exact h.holdsLegal hs

/-! ## The averaging loops -/

/-- Every sum the operation accumulates over `mem` is within its bound (R23). -/
def SumsWithin (mem : Channel → Bool) (s : State) : Prop := ∀ c, mem c = true → SumWithin s c

theorem loopInv_iff (s : State) :
    LoopInv s ↔ ∀ n mem, accumulates s.job = some (n, mem) → s.cnt.toNat < n.toNat ∧ SumsWithin mem s := by
  unfold LoopInv SumsWithin
  cases s.job <;> simp [accumulates]

theorem loopInv_of_noAverage {s : State} (h : accumulates s.job = none) : LoopInv s := by
  rw [loopInv_iff, h]
  simp

theorem loopInv_congr {s t : State} (hs : LoopInv s) (hjob : t.job = s.job) (hsum : t.sum = s.sum)
    (hcnt : t.cnt = s.cnt) : LoopInv t := by
  unfold LoopInv SumWithin at *
  rwa [hjob, hsum, hcnt]

/-- At the top of a round loop the sums are within their bounds; a further round begins only below the rounds wanted. -/
theorem RoundTop.loopInv {n : BitVec 16} {mem : Channel → Bool} {s t : State} (h : RoundTop n s t)
    (hjob : accumulates s.job = some (n, mem)) (hs : SumsWithin mem s) : LoopInv t := by
  cases h with
  | finished | unattainable => exact loopInv_of_noAverage rfl
  | further _ hmore =>
    rw [loopInv_iff]
    intro n' mem' hjob'
    obtain ⟨rfl, rfl⟩ := Prod.mk.inj (Option.some.inj (hjob.symm.trans hjob'))
    exact ⟨hmore, hs⟩

/-- A round adds at most `2^23` to the magnitude of each sum (R221). -/
theorem RoundAdded.sumsWithin {n : BitVec 16} {mem : Channel → Bool} {s t : State} (h : RoundAdded mem s t)
    (hcnt : s.cnt.toNat < n.toNat) (hs : SumsWithin mem s) : SumsWithin mem t := by
  cases h with
  | skipped => exact hs
  | added raw sum hsum =>
    intro c hc
    have hlt : s.cnt.toNat < 65535 := by have := n.isLt; omega
    have hnext : (s.cnt + 1).toNat = s.cnt.toNat + 1 := by rw [BitVec.toNat_add]; exact Nat.mod_eq_of_lt (by simp; omega)
    simp only [SumWithin, hsum c hc, hnext]
    exact addReading_natAbs_le _ _ _ hlt (hs c hc)

theorem RoundAdded.job {mem : Channel → Bool} {s t : State} (h : RoundAdded mem s t) : t.job = s.job := by
  cases h <;> rfl

theorem Accepted.loopInv {i : Instr} {s t : State} (h : Accepted i s t) : LoopInv t := by
  have hzero {u : State} {mem : Channel → Bool} (hsum : ∀ c, mem c = true → u.sum[c] = 0) : SumsWithin mem u := by
    intro c hc
    simp [SumWithin, hsum c hc]
  cases h with
  | complete | reject => exact loopInv_of_noAverage rfl
  | begin _ _ hjob => exact loopInv_of_noAverage hjob
  | avg c h =>
    refine h.loopInv rfl (hzero ?_)
    intro d hd
    rw [beq_iff_eq.1 hd]
    exact Vector.getElem_set_self c.isLt
  | avgm _ hsum h => exact h.loopInv rfl (hzero hsum)

theorem Advance.loopInv {s t : State} (h : Advance s t) (hs : LoopInv s) : LoopInv t := by
  cases h with
  | complete => exact loopInv_of_noAverage rfl
  | goOn | poll => exact loopInv_congr hs rfl rfl rfl
  | round _ _ hjob hadd htop =>
    obtain ⟨hcnt, hsums⟩ := (loopInv_iff s).1 hs _ _ hjob
    exact htop.loopInv (by rw [hadd.job]; exact hjob) (hadd.sumsWithin hcnt hsums)

theorem Effect.loopInv {i : Instr} {s t : State} (h : Effect i s t) (hs : LoopInv s) : LoopInv t := by
  cases h with
  | plain h => exact h.loopInv hs
  | start _ h => exact h.loopInv (loopInv_congr hs rfl rfl rfl)
  | status h => exact h.loopInv (loopInv_congr hs (State.statusPhase_job _ _) (State.statusPhase_sum _ _)
      (State.statusPhase_cnt _ _))

/-- Settles O14: a sum changes only at the end of a round, which is counted with it, and the loop goes on only below the
rounds wanted. -/
theorem sumsStayWithinTheirBound : Obligations.SumsStayWithinTheirBound := by
  intro s t hs h
  cases step_shape h with
  | waits => exact hs
  | resets | illegal | fails => exact loopInv_of_noAverage rfl
  | accepts _ _ _ _ h => exact h.loopInv
  | internal _ _ _ h => exact h.loopInv hs
  | returns _ _ _ _ h => exact h.loopInv (loopInv_congr hs rfl rfl rfl)

/-! ## PHASE and SEL -/

/-- PHASE and SEL are as they were. -/
def SamePhase (s t : State) : Prop := t.phase = s.phase ∧ t.sel = s.sel

theorem RoundTop.samePhase {n : BitVec 16} {s t : State} (h : RoundTop n s t) : SamePhase s t := by
  cases h <;> exact ⟨rfl, rfl⟩

theorem Accepted.samePhase {i : Instr} {s t : State} (h : Accepted i s t) : SamePhase s t := by
  cases h with
  | complete | reject | begin => exact ⟨rfl, rfl⟩
  | avg _ h => exact h.samePhase
  | avgm _ _ h => exact h.samePhase

theorem Advance.samePhase {s t : State} (h : Advance s t) : SamePhase s t := by
  cases h with
  | complete | goOn | poll => exact ⟨rfl, rfl⟩
  | round _ _ _ hadd htop =>
    cases hadd with
    | skipped | added => exact htop.samePhase

/-- A snapshot moves PHASE only from CONVERTING, and only with its done flag (R201). -/
theorem statusPhase_samePhase (s : State) (d : BitVec 1) :
    SamePhase s (s.statusPhase d) ∨ d = 1 ∧ s.phase = 1 ∧ (s.statusPhase d).phase = 2 ∧ (s.statusPhase d).sel = s.sel := by
  unfold State.statusPhase
  split
  next h => exact .inr ⟨h.2, h.1, rfl, rfl⟩
  next => exact .inl ⟨rfl, rfl⟩

theorem pending_of_pendingItem_statusByte {s : State} {b : Byte} (h : s.pendingItem = some (.statusByte b)) :
    s.pending = .statusByte b := by
  cases hp : s.pending <;> simp_all [State.pendingItem]

/-- The done flag of an encoded snapshot is bit 6 (R96). -/
theorem statusByte_done (a u : BitVec 1) (ch : BitVec 5) : (a ++ 1#1 ++ u ++ ch : Byte).getLsbD 6 = true := by
  revert a u ch
  decide

/-- Settles O16: PHASE and SEL move only in the two effects of the phase machine and at reset. -/
theorem phaseAndSelFollowTheTable : Obligations.PhaseAndSelFollowTheTable := by
  intro s t h
  cases step_shape h with
  | waits | illegal | fails => exact .inl ⟨rfl, rfl⟩
  | resets hidle hhost => exact .inr (.inr (.inr ⟨hidle, ⟨_, hhost⟩, rfl, rfl⟩))
  | accepts _ _ _ _ h => exact .inl h.samePhase
  | internal hbusy hitem hwire h =>
    cases h with
    | plain h => exact .inl h.samePhase
    | start => exact absurd rfl (hwire _)
    | @status a d u ch _ _ h =>
      obtain ⟨hphase, hsel⟩ := h.samePhase
      rcases statusPhase_samePhase s d with hsame | ⟨rfl, hconverting, hdone, hsel'⟩
      · exact .inl ⟨hphase.trans hsame.1, hsel.trans hsame.2⟩
      · exact .inr (.inr (.inl ⟨_, hbusy, pending_of_pendingItem_statusByte hitem, statusByte_done a u ch, hconverting,
          hphase.trans hdone, hsel.trans hsel'⟩))
  | returns hbusy hpending hdecode hanswers h =>
    have hencode := encode_of_decodeWire s.par.typeIds hdecode
    cases h with
    | plain h => exact .inl h.samePhase
    | @start c _ _ hjob h =>
      obtain ⟨hphase, hsel⟩ := h.samePhase
      obtain rfl : startFrame c = _ := Item.wire.inj hencode
      rw [startFrame_eq_bytes] at hpending
      refine .inr (.inl ⟨c, _, _, hbusy, hpending, hanswers, ?_, hphase, hsel⟩)
      exact hjob.imp_right (Or.imp_right (averages_iff s.job).1)
    | status => cases hencode

end Sys2Proof.Laws

/-! The step and reset (R24, R30, R65, R66, R270 to R273), and that no instruction stops the machine (R240). -/

namespace Sys2Proof.Laws
open Sys2Proof.Machine

/-! ## The step -/

theorem step_of_present {s : State} {o : Opr} {rest : List HostAction} {i : Instr} (hidle : s.busy = false)
    (hhost : s.host = .present o :: rest) (hdecode : decode s.par.typeIds (.port o) = .ok i) :
    step s = exec i (s.present o rest) := by
  simp only [step, hidle, Bool.false_eq_true, if_false, hhost, hdecode]

theorem step_of_pendingItem {s : State} {it : Item} {i : Instr} (hbusy : s.busy = true)
    (hitem : s.pendingItem = some it) (hdecode : decode s.par.typeIds it = .ok i) : step s = exec i s := by
  simp only [step, hbusy, if_true, hitem, hdecode]

theorem step_of_idle {s : State} (hidle : s.busy = false) (hhost : s.host = []) : step s = .next s := by
  simp only [step, hidle, Bool.false_eq_true, if_false, hhost]

theorem step_of_reset {s : State} {rest : List HostAction} (hidle : s.busy = false) (hhost : s.host = .reset :: rest) :
    step s = .next { s with host := rest }.resetBlock := by
  simp only [step, hidle, Bool.false_eq_true, if_false, hhost]

/-- Settles O1: both branches of `step` run what the decoder reads. -/
theorem stepRunsTheDecodedInstruction : Obligations.StepRunsTheDecodedInstruction :=
  ⟨fun _ _ _ _ hidle hhost hdecode => step_of_present hidle hhost hdecode,
    fun _ _ _ hbusy hitem hdecode => step_of_pendingItem hbusy hitem hdecode⟩

/-! ## A pending frame -/

/-- The step at a frame is one call of the transport with that frame (R64). -/
theorem step_transact {s : State} {frame : List Byte} {i : Instr} (hbusy : s.busy = true)
    (hpending : s.pending = .frame frame) (hdecode : decodeWire frame = .ok i) :
    ∃ k, step s = transact frame s k := by
  obtain ⟨k, hk, -⟩ := exec_wire_transact (encode_of_decodeWire s.par.typeIds hdecode)
  exact ⟨k, by rw [step_of_pending_frame hbusy hpending hdecode, hk]⟩

theorem transact_of_noAnswer {frame : List Byte} {s : State} {k : Rx → State → State} (h : s.answers = []) :
    transact frame s k = .next s := by
  simp only [transact, h]

/-- Settles O3: a call without an answer has not returned, and an idle block waits for the host. -/
theorem waitingChangesNothing : Obligations.WaitingChangesNothing := by
  refine ⟨?_, fun _ hidle hhost => step_of_idle hidle hhost⟩
  intro s frame i hbusy hpending hdecode hanswers
  obtain ⟨k, hk⟩ := step_transact hbusy hpending hdecode
  rw [hk, transact_of_noAnswer hanswers]

/-- Settles O4: whatever the frame's row would do after an `Ok`, an `Err` ends the operation. -/
theorem transportErrorEndsTheOperation : Obligations.TransportErrorEndsTheOperation := by
  intro s frame i e rest hbusy hpending hdecode hanswers
  obtain ⟨k, hk⟩ := step_transact hbusy hpending hdecode
  rw [hk]
  exact ⟨transact_of_err hanswers, transact_of_err_of_lt hanswers⟩

/-! ## No stop -/

theorem transact_answers_next (frame : List Byte) (s : State) (k : Rx → State → State) :
    ∃ t, transact frame s k = .next t := by
  unfold transact
  split <;> exact ⟨_, rfl⟩

/-- Settles O9: in each layer an instruction answers a next state. -/
theorem everyInstructionAnswersANextState : Obligations.EveryInstructionAnswersANextState := by
  intro i s
  cases hi : encode s.par.typeIds i with
  | port o => exact (exec_port_accepted hi).imp fun _ h => h.1
  | wire frame =>
    obtain ⟨k, hk, -⟩ := exec_wire_transact hi
    rw [hk]
    exact transact_answers_next frame s k
  | statusByte | resultWord | cfgWord =>
    exact (exec_content_effect (ids := s.par.typeIds) (by simp [hi]) (by simp [hi]) s).imp fun _ h => h.1

/-! ## Reset -/

/-- Settles O11: the reset writes the values of the table and leaves the rest; a running operation leaves the host's
actions alone. -/
theorem resetInputGivesTheResetState : Obligations.ResetInputGivesTheResetState := by
  refine ⟨fun s rest hidle hhost => step_of_reset hidle hhost, ?_⟩
  intro s t rest hbusy hhost h
  rw [(hostHasNoStepWhileBusy s t hbusy h).1, hhost]

/-- Settles O12: no operation is in progress after reset, and RES is empty. -/
theorem resetStateMeetsTheInvariants : Obligations.ResetStateMeetsTheInvariants :=
  ⟨⟨by decide, by decide, by decide, rfl⟩, loopInv_of_noAverage rfl, resLegal_empty _⟩

end Sys2Proof.Laws

/-! The control invariant (R22, R24, R30): every shape of a step keeps it, and from a state that has it the block never
stops. -/

namespace Sys2Proof.Laws
open Sys2Proof.Machine

/-! ## The two halves of the invariant -/

/-- PHASE is never 3 and SEL is 0 to 20 (R22). -/
def PhaseInv (s : State) : Prop := s.phase ≠ 3 ∧ s.sel.toNat ≤ 20

/-- BUSY is 1 exactly while an operation is in progress, which is at a step of its rule (R24, R30). -/
def PositionInv (s : State) : Prop := (s.busy = true ↔ s.job ≠ .none) ∧ PendingFits s.par.typeIds s.job s.pending

theorem controlInv_iff (s : State) : ControlInv s ↔ PhaseInv s ∧ PositionInv s := and_assoc.symm

theorem PhaseInv.congr {s t : State} (hs : PhaseInv s) (h : SamePhase s t) : PhaseInv t := by
  obtain ⟨hphase, hsel⟩ := h
  rwa [PhaseInv, hphase, hsel]

/-- No operation is in progress any more. -/
theorem positionInv_of_released {s : State} (hbusy : s.busy = false) (hjob : s.job = .none) (hpending : s.pending = .none) :
    PositionInv s := by
  rw [PositionInv, hbusy, hjob, hpending]
  exact ⟨by simp, rfl⟩

/-- An operation is in progress, at one of its steps. -/
theorem positionInv_of_running {s : State} (hbusy : s.busy = true) (hjob : s.job ≠ .none)
    (hfits : PendingFits s.par.typeIds s.job s.pending) : PositionInv s :=
  ⟨by simp [hbusy, hjob], hfits⟩

theorem job_ne_none_of_accumulates {job : Job} {x : BitVec 16 × (Channel → Bool)} (h : accumulates job = some x) :
    job ≠ .none := by
  rintro rfl
  cases h

/-! ## The shapes keep the position -/

theorem RoundTop.positionInv {n : BitVec 16} {s t : State} (h : RoundTop n s t) (hbusy : s.busy = true)
    (hjob : s.job ≠ .none) : PositionInv t := by
  cases h with
  | finished | unattainable => exact positionInv_of_released rfl rfl rfl
  | further hfits => exact positionInv_of_running hbusy hjob hfits

theorem Accepted.positionInv {i : Instr} {s t : State} (h : Accepted i s t) : PositionInv t := by
  cases h with
  | complete | reject => exact positionInv_of_released rfl rfl rfl
  | begin _ hrun _ hfits => exact positionInv_of_running rfl hrun hfits
  | avg _ h => exact h.positionInv rfl nofun
  | avgm _ _ h => exact h.positionInv rfl nofun

theorem Advance.positionInv {s t : State} (h : Advance s t) (hbusy : s.busy = true) (hs : PositionInv s) :
    PositionInv t := by
  obtain ⟨hrun, hfits⟩ := hs
  cases h with
  | complete => exact positionInv_of_released rfl rfl rfl
  | goOn _ hfits' => exact positionInv_of_running hbusy (hrun.1 hbusy) (hfits' hfits)
  | poll _ _ hfits' => exact positionInv_of_running hbusy (hrun.1 hbusy) hfits'
  | round _ _ hjob hadd htop =>
    cases hadd with
    | skipped | added => exact htop.positionInv hbusy (job_ne_none_of_accumulates hjob)

theorem Effect.positionInv {i : Instr} {s t : State} (h : Effect i s t) (hbusy : s.busy = true) (hs : PositionInv s) :
    PositionInv t := by
  cases h with
  | plain h => exact h.positionInv hbusy hs
  | start _ h => exact h.positionInv hbusy hs
  | status h =>
    refine h.positionInv ?_ ?_
    · rwa [State.statusPhase_busy]
    · simpa [PositionInv] using hs

/-! ## The shapes keep PHASE and SEL in their ranges -/

theorem startFrame_injective {c d : BitVec 5} (h : startFrame c = startFrame d) : c = d :=
  Instr.fStart.inj (Except.ok.inj ((decodeWire_startFrame c).symm.trans ((congrArg decodeWire h).trans
    (decodeWire_startFrame d))))

theorem startFrame_ne_maskFrame (c : BitVec 5) (w : Word) : startFrame c ≠ maskFrame w := by
  rw [startFrame_eq, maskFrame_eq]
  intro h
  exact absurd (congrArg List.length h) (by simp [be32])

theorem channelNumber_le (c : Channel) : (channelNumber c).toNat ≤ 20 := by
  revert c
  decide

/-- A start command that is a step of a conversion selects 0 or a channel (R202, R204, R225, R230). -/
theorem startField_le {ids : TypeIds} {job : Job} {c : BitVec 5} (hjob : StartsConversion job)
    (h : PendingFits ids job (.frame (startFrame c))) : c.toNat ≤ 20 := by
  have hchannel {d : Channel} (h : Pending.frame (startFrame c) = .frame (startFrame (channelNumber d))) :
      c.toNat ≤ 20 := by
    rw [startFrame_injective (Pending.frame.inj h)]
    exact channelNumber_le d
  have hzero (h : Pending.frame (startFrame c) = .frame (startFrame 0)) : c.toNat ≤ 20 := by
    rw [startFrame_injective (Pending.frame.inj h)]
    decide
  rw [StartsConversion, averages_iff] at hjob
  rcases hjob with rfl | rfl | ⟨d, n, rfl⟩ | ⟨chset, n, rfl⟩
  · obtain ⟨d, h⟩ := h
    exact hchannel h
  · rcases h with ⟨chset, h⟩ | h
    · exact absurd (Pending.frame.inj h) (startFrame_ne_maskFrame c _)
    · exact hzero h
  · rcases h with h | h | ⟨b, h⟩ | h | ⟨w, h⟩
    · exact hchannel h
    · exact absurd (Pending.frame.inj h) writeFrame_ne_readFrame
    · cases h
    · exact absurd (Pending.frame.inj h) writeFrame_ne_readFrame
    · cases h
  · rcases h with h | h | h | ⟨b, h⟩ | ⟨d, -, h | ⟨w, h⟩⟩
    · exact absurd (Pending.frame.inj h) (startFrame_ne_maskFrame c _)
    · exact hzero h
    · exact absurd (Pending.frame.inj h) writeFrame_ne_readFrame
    · cases h
    · exact absurd (Pending.frame.inj h) writeFrame_ne_readFrame
    · cases h

theorem statusPhase_phaseInv {s : State} (hs : PhaseInv s) (d : BitVec 1) : PhaseInv (s.statusPhase d) := by
  rcases statusPhase_samePhase s d with hsame | ⟨-, -, hdone, hsel⟩
  · exact hs.congr hsame
  · rw [PhaseInv, hdone, hsel]
    exact ⟨by decide, hs.2⟩

theorem phaseInv_startPhase (s : State) {c : BitVec 5} (hc : c.toNat ≤ 20) : PhaseInv (s.startPhase c) :=
  ⟨show phaseConverting ≠ 3 by decide, hc⟩

/-- The phase machine keeps the ranges; the field of a start command is that of the frame the operation is at. -/
theorem Effect.phaseInv {i : Instr} {s t : State} (h : Effect i s t) (hs : PhaseInv s)
    (hstart : ∀ c, i = .fStart c → StartsConversion s.job → c.toNat ≤ 20) : PhaseInv t := by
  cases h with
  | plain h => exact hs.congr h.samePhase
  | start hjob h => exact (phaseInv_startPhase _ (hstart _ rfl hjob)).congr h.samePhase
  | status h => exact (statusPhase_phaseInv hs _).congr h.samePhase

/-- Every shape of a step keeps the control invariant. -/
theorem step_keeps_controlInv {s t : State} (hs : ControlInv s) (h : step s = .next t) : ControlInv t := by
  rw [controlInv_iff] at hs ⊢
  obtain ⟨hphase, hposition⟩ := hs
  cases step_shape h with
  | waits => exact ⟨hphase, hposition⟩
  | resets => exact ⟨⟨show (0 : BitVec 2) ≠ 3 by decide, Nat.zero_le 20⟩, positionInv_of_released rfl rfl rfl⟩
  | illegal | fails => exact ⟨hphase, positionInv_of_released rfl rfl rfl⟩
  | accepts _ _ _ _ h => exact ⟨hphase.congr h.samePhase, h.positionInv⟩
  | internal hbusy _ hwire h =>
    exact ⟨h.phaseInv hphase fun c hi => absurd (by rw [hi]; rfl) (hwire (startFrame c)), h.positionInv hbusy hposition⟩
  | returns hbusy hpending hdecode _ h =>
    refine ⟨h.phaseInv hphase ?_, h.positionInv hbusy hposition⟩
    rintro c rfl hjob
    obtain rfl : startFrame c = _ := Item.wire.inj (encode_of_decodeWire s.par.typeIds hdecode)
    exact startField_le hjob (hpending ▸ hposition.2)

/-! ## No stop -/

/-- The steps of every operation are rows of the table. -/
theorem decode_of_pendingFits {s : State} (hjob : s.job ≠ .none) (h : PendingFits s.par.typeIds s.job s.pending) :
    ∃ it i, s.pendingItem = some it ∧ decode s.par.typeIds it = .ok i := by
  have hframe {frame : List Byte} {i : Instr} (hpending : s.pending = .frame frame) (hdecode : decodeWire frame = .ok i) :
      ∃ it i, s.pendingItem = some it ∧ decode s.par.typeIds it = .ok i :=
    ⟨_, i, pendingItem_eq_wire_iff.2 hpending, hdecode⟩
  have hmask {chset : ChSet} (hpending : s.pending = .frame (maskFrame (maskOf chset))) :
      ∃ it i, s.pendingItem = some it ∧ decode s.par.typeIds it = .ok i :=
    hframe hpending (by rw [maskOf_eq_setWidth]; exact decodeWire_maskFrame chset)
  have hbyte {b : Byte} (hpending : s.pending = .statusByte b) :
      ∃ it i, s.pendingItem = some it ∧ decode s.par.typeIds it = .ok i :=
    ⟨.statusByte b, _, by rw [State.pendingItem, hpending], rfl⟩
  have hword {c : Channel} {w : Word} (hpending : s.pending = .resultWord c w) :
      ∃ it i, s.pendingItem = some it ∧ decode s.par.typeIds it = .ok i :=
    ⟨.resultWord w, _, by rw [State.pendingItem, hpending], rfl⟩
  cases hj : s.job with
  | none => exact absurd hj hjob
  | cfg c =>
    rw [hj] at h
    rcases h with ⟨w, i, hpending, hdecode⟩ | ⟨w, hpending⟩
    · exact ⟨.cfgWord w, i, by rw [State.pendingItem, hpending], hdecode⟩
    · exact hframe hpending (decodeWire_writeFrame _ _ (le_of_eq rfl))
  | wrreg =>
    rw [hj] at h
    obtain ⟨addr, payload, hlen, hpending⟩ := h
    exact hframe hpending (decodeWire_writeFrame addr payload hlen)
  | rdreg =>
    rw [hj] at h
    obtain ⟨addr, n, hn, hpending⟩ := h
    exact hframe hpending (decodeWire_readFrame addr n hn)
  | start =>
    rw [hj] at h
    obtain ⟨c, hpending⟩ := h
    exact hframe hpending (decodeWire_startFrame _)
  | startm =>
    rw [hj] at h
    rcases h with ⟨chset, hpending⟩ | hpending
    · exact hmask hpending
    · exact hframe hpending (decodeWire_startFrame 0)
  | status =>
    rw [hj] at h
    rcases h with hpending | ⟨b, hpending⟩
    · exact hframe hpending decodeWire_statusFrame
    · exact hbyte hpending
  | rdtemp =>
    rw [hj] at h
    obtain ⟨c, hpending | ⟨w, hpending⟩⟩ := h
    · exact hframe hpending (decodeWire_resultFrame c)
    · exact hword hpending
  | rdtempm chset =>
    rw [hj] at h
    obtain ⟨c, -, hpending | ⟨w, hpending⟩⟩ := h
    · exact hframe hpending (decodeWire_resultFrame c)
    · exact hword hpending
  | avg c n =>
    rw [hj] at h
    rcases h with hpending | hpending | ⟨b, hpending⟩ | hpending | ⟨w, hpending⟩
    · exact hframe hpending (decodeWire_startFrame _)
    · exact hframe hpending decodeWire_statusFrame
    · exact hbyte hpending
    · exact hframe hpending (decodeWire_resultFrame c)
    · exact hword hpending
  | avgm chset n =>
    rw [hj] at h
    rcases h with hpending | hpending | hpending | ⟨b, hpending⟩ | ⟨c, -, hpending | ⟨w, hpending⟩⟩
    · exact hmask hpending
    · exact hframe hpending (decodeWire_startFrame 0)
    · exact hframe hpending decodeWire_statusFrame
    · exact hbyte hpending
    · exact hframe hpending (decodeWire_resultFrame c)
    · exact hword hpending

/-- With BUSY = 0 the block never stops. -/
theorem step_answers_next_of_idle {s : State} (hidle : s.busy = false) : ∃ t, step s = .next t := by
  match hhost : s.host with
  | [] => exact ⟨s, step_of_idle hidle hhost⟩
  | .reset :: rest => exact ⟨_, step_of_reset hidle hhost⟩
  | .present o :: rest =>
    cases hdecode : decodeOp o with
    | ok i =>
      rw [step_of_present hidle hhost hdecode]
      exact everyInstructionAnswersANextState i _
    | error e => exact ⟨_, step_of_present_of_error hidle hhost hdecode⟩

/-- From the control invariant the block never stops. -/
theorem step_answers_next {s : State} (hs : ControlInv s) : ∃ t, step s = .next t := by
  obtain ⟨-, hrun, hfits⟩ := (controlInv_iff s).1 hs
  cases hbusy : s.busy with
  | false => exact step_answers_next_of_idle hbusy
  | true =>
    obtain ⟨it, i, hitem, hdecode⟩ := decode_of_pendingFits (hrun.1 hbusy) hfits
    rw [step_of_pendingItem hbusy hitem hdecode]
    exact everyInstructionAnswersANextState i s

/-- Settles O13: a step exists, and every shape of a step keeps both halves of the invariant. -/
theorem invariantKeptAndNoStop : Obligations.InvariantKeptAndNoStop := by
  intro s hs
  obtain ⟨t, ht⟩ := step_answers_next hs
  exact ⟨t, ht, step_keeps_controlInv hs ht⟩

end Sys2Proof.Laws

/-! PHASE and SEL gate nothing (R22, R307): forgetting them before an operation of the block or after it comes to the same,
up to PHASE and SEL again. -/

namespace Sys2Proof.Laws
open Sys2Proof.Machine

/-! ## One poll -/

/-- The poll loop ends at done or at its bound (R222). -/
theorem State.pollsOver_iff (s : State) (bound : Option Nat) (d : BitVec 1) :
    s.pollsOver bound d = true ↔ d = 1 ∨ bound = some s.polls := by
  simp [State.pollsOver]

/-- One poll of AVG (R222, R223). -/
theorem State.avgPolled_eq (s : State) (c : Channel) (d : BitVec 1) :
    s.avgPolled c d = { s with
      polls := s.polls + 1
      pending := if d = 1 ∨ s.polls + 1 = s.par.pollMax then .frame (resultBytes (c.val + 1))
        else .frame statusBytes } := by
  have hover := State.pollsOver_iff { s with polls := s.polls + 1 } (some s.par.pollMax) d
  rw [Option.some_inj, eq_comm (a := s.par.pollMax)] at hover
  unfold State.avgPolled
  by_cases h : d = 1 ∨ s.polls + 1 = s.par.pollMax
  · simp only [if_pos (hover.2 h), if_pos h, ← resultFrame_eq_bytes]
    rfl
  · simp only [if_neg (mt hover.1 h), if_neg h]
    rfl

section
variable {s : State} {chset : ChSet} {n : BitVec 16} {d : BitVec 1}

/-- One poll of AVGM (R222, R223). -/
theorem State.avgmPolled_eq :
    s.avgmPolled chset n d = if d = 1 ∨ s.par.mpollMax = some (s.polls + 1) then
      { s with polls := s.polls + 1 }.avgmReads chset n
    else { s with polls := s.polls + 1, pending := .frame statusBytes } := by
  have hover := State.pollsOver_iff { s with polls := s.polls + 1 } s.par.mpollMax d
  unfold State.avgmPolled
  by_cases h : d = 1 ∨ s.par.mpollMax = some (s.polls + 1)
  · rw [if_pos h]
    exact if_pos (hover.2 h)
  · rw [if_neg h]
    exact if_neg (mt hover.1 h)

/-- The last poll of a round of AVGM (R222, R223). -/
theorem State.avgmPolled_of_over (h : d = 1 ∨ s.par.mpollMax = some (s.polls + 1)) :
    s.avgmPolled chset n d = { s with polls := s.polls + 1 }.avgmReads chset n :=
  State.avgmPolled_eq.trans (if_pos h)

/-- A poll of AVGM after which the status is read again (R222). -/
theorem State.avgmPolled_of_not_over (h : ¬ (d = 1 ∨ s.par.mpollMax = some (s.polls + 1))) :
    s.avgmPolled chset n d = { s with polls := s.polls + 1, pending := .frame statusBytes } :=
  State.avgmPolled_eq.trans (if_neg h)

end

/-! ## The top of a round loop, case by case -/

section
variable {s : State} {c : Channel} {chset : ChSet} {n : BitVec 16}

theorem State.avgRound_of_reached (hn : n ≠ 0) (h : n.toNat ≤ s.cnt.toNat) :
    s.avgRound c n = ended s { Res.empty with
      sum := some s.sum[c], cnt := some s.cnt, meanF := some (rne32 s.sum[c].toInt (1024 * n.toNat)) } := by
  rw [State.avgRound_eq s c n hn, if_pos h]

theorem State.avgRound_of_bound (h : s.cnt.toNat < n.toNat) (hbound : s.rnd = s.par.roundMax) :
    s.avgRound c n = raised s 3 none :=
  (if_pos h).trans (if_pos hbound)

theorem State.avgRound_of_more (h : s.cnt.toNat < n.toNat) (hbound : s.rnd ≠ s.par.roundMax) :
    s.avgRound c n = { s with rnd := s.rnd + 1, pending := .frame (startFrame (channelNumber c)) } :=
  (if_pos h).trans (if_neg hbound)

theorem State.avgmRound_of_reached (hn : n ≠ 0) (h : n.toNat ≤ s.cnt.toNat) :
    s.avgmRound chset n = ended s { Res.empty with
      cnt := some s.cnt
      msum := Vector.ofFn fun m => if chset.getLsbD m.val then some s.sum[m] else none
      mmean := Vector.ofFn fun m =>
        if chset.getLsbD m.val then some (rne32 s.sum[m].toInt (1024 * n.toNat)) else none } := by
  rw [State.avgmRound_eq s chset n hn, if_pos h]

theorem State.avgmRound_of_bound (h : s.cnt.toNat < n.toNat) (hbound : s.par.mroundMax = some s.rnd) :
    s.avgmRound chset n = raised s 3 none :=
  (if_pos h).trans (if_pos hbound)

theorem State.avgmRound_of_more (h : s.cnt.toNat < n.toNat) (hbound : s.par.mroundMax ≠ some s.rnd) :
    s.avgmRound chset n = { s with rnd := s.rnd + 1, pending := .frame (maskFrame (maskOf chset)) } :=
  (if_pos h).trans (if_neg hbound)

end

/-! ## The shared operations -/

/-- The operation reads neither PHASE nor SEL. -/
def Blind (f : State → State) : Prop := ∀ s, forgetPhase (f s) = forgetPhase (f (forgetPhase s))

/-- The instruction reads neither PHASE nor SEL. -/
def BlindOut (f : State → Out) : Prop := ∀ s, forgetPhaseOut (f s) = forgetPhaseOut (f (forgetPhase s))

theorem BlindOut.of_next {f : State → State} (h : Blind f) : BlindOut fun s => .next (f s) :=
  fun s => congrArg Host.Outcome.next (h s)

theorem Blind.comp {f g : State → State} (hf : Blind f) (hg : Blind g) : Blind fun s => f (g s) := by
  intro s
  rw [hf (g s), hg s, ← hf]

/-! Forgetting PHASE and SEL leaves the rest of the state. -/

section
variable (s : State)

@[simp] theorem forgetPhase_job : (forgetPhase s).job = s.job := rfl
@[simp] theorem forgetPhase_busy : (forgetPhase s).busy = s.busy := rfl
@[simp] theorem forgetPhase_par : (forgetPhase s).par = s.par := rfl
@[simp] theorem forgetPhase_host : (forgetPhase s).host = s.host := rfl
@[simp] theorem forgetPhase_answers : (forgetPhase s).answers = s.answers := rfl
@[simp] theorem forgetPhase_pendingItem : (forgetPhase s).pendingItem = s.pendingItem := rfl
@[simp] theorem forgetPhase_pendingChannel : (forgetPhase s).pendingChannel = s.pendingChannel := rfl
@[simp] theorem forgetPhase_allValid (chset : ChSet) : (forgetPhase s).allValid chset = s.allValid chset := rfl

end

theorem blind_statusPhase (d : BitVec 1) : Blind fun s => s.statusPhase d := by
  intro s
  simp only [State.statusPhase_eq]
  rfl

theorem blind_avgRound (c : Channel) (n : BitVec 16) : Blind fun s => s.avgRound c n := by
  intro s
  by_cases hn : n = 0
  · subst hn
    simp only [State.avgRound_zero, State.completeAvg_zero]
    rfl
  · dsimp only
    by_cases hdone : n.toNat ≤ s.cnt.toNat
    · rw [State.avgRound_of_reached hn hdone, State.avgRound_of_reached (s := forgetPhase s) hn hdone]
      rfl
    · have hmore : s.cnt.toNat < n.toNat := by omega
      by_cases hbound : s.rnd = s.par.roundMax
      · rw [State.avgRound_of_bound hmore hbound, State.avgRound_of_bound (s := forgetPhase s) hmore hbound]
        rfl
      · rw [State.avgRound_of_more hmore hbound, State.avgRound_of_more (s := forgetPhase s) hmore hbound]
        rfl

theorem blind_avgmRound (chset : ChSet) (n : BitVec 16) : Blind fun s => s.avgmRound chset n := by
  intro s
  by_cases hn : n = 0
  · subst hn
    simp only [State.avgmRound_zero, State.completeAvgm_zero]
    rfl
  · dsimp only
    by_cases hdone : n.toNat ≤ s.cnt.toNat
    · rw [State.avgmRound_of_reached hn hdone, State.avgmRound_of_reached (s := forgetPhase s) hn hdone]
      rfl
    · have hmore : s.cnt.toNat < n.toNat := by omega
      by_cases hbound : s.par.mroundMax = some s.rnd
      · rw [State.avgmRound_of_bound hmore hbound, State.avgmRound_of_bound (s := forgetPhase s) hmore hbound]
        rfl
      · rw [State.avgmRound_of_more hmore hbound, State.avgmRound_of_more (s := forgetPhase s) hmore hbound]
        rfl

theorem blind_avgRoundEnd (c : Channel) (n : BitVec 16) (r : Reading) : Blind fun s => s.avgRoundEnd c n r := by
  intro s
  unfold State.avgRoundEnd
  dsimp only
  split_ifs
  · exact (blind_avgRound c n).comp (g := fun s => { s with sum := s.sum.set c (addReading s.sum[c] r.raw), cnt := s.cnt + 1 })
      (fun _ => rfl) s
  · exact blind_avgRound c n s

theorem blind_avgmRoundEnd (chset : ChSet) (n : BitVec 16) : Blind fun s => s.avgmRoundEnd chset n := by
  intro s
  unfold State.avgmRoundEnd
  dsimp only
  rw [forgetPhase_allValid]
  split_ifs
  · exact (blind_avgmRound chset n).comp (g := fun s => { s with sum := s.addAll chset, cnt := s.cnt + 1 })
      (fun _ => rfl) s
  · exact blind_avgmRound chset n s

theorem blind_avgPolled (c : Channel) (d : BitVec 1) : Blind fun s => s.avgPolled c d := by
  intro s
  simp only [State.avgPolled_eq]
  rfl

theorem blind_avgmReads (chset : ChSet) (n : BitVec 16) : Blind fun s => s.avgmReads chset n := by
  intro s
  unfold State.avgmReads
  cases firstMember chset with
  | some c => rfl
  | none => exact blind_avgmRoundEnd chset n s

theorem blind_avgmPolled (chset : ChSet) (n : BitVec 16) (d : BitVec 1) : Blind fun s => s.avgmPolled chset n d := by
  intro s
  dsimp only
  by_cases hover : d = 1 ∨ s.par.mpollMax = some (s.polls + 1)
  · rw [State.avgmPolled_of_over hover, State.avgmPolled_of_over (s := forgetPhase s) hover]
    exact (blind_avgmReads chset n).comp (g := fun s => { s with polls := s.polls + 1 }) (fun _ => rfl) s
  · rw [State.avgmPolled_of_not_over hover, State.avgmPolled_of_not_over (s := forgetPhase s) hover]
    rfl

theorem blind_nextRead (chset : ChSet) (c : Channel) (r : Reading) {finish : State → State} (hfinish : Blind finish) :
    Blind fun s => (s.keepReading c r).nextRead chset c finish := by
  intro s
  unfold State.nextRead
  cases nextMember chset c with
  | some d => rfl
  | none => exact hfinish.comp (g := fun s => s.keepReading c r) (fun _ => rfl) s

/-- A transport call does not, if what follows its `Ok` does not. -/
theorem blindOut_of_transact {f : State → Out} {frame : List Byte} {k : Rx → State → State}
    (hf : ∀ s, f s = transact frame s k) (hk : ∀ rx, Blind (k rx)) : BlindOut f := by
  intro s
  rw [hf, hf]
  simp only [transact, forgetPhase_answers]
  split
  · rfl
  · rfl
  next rx rest hanswers =>
    exact congrArg Host.Outcome.next ((hk rx).comp (g := fun s => called s frame rest) (fun _ => rfl) s)

/-! ## The instructions -/

theorem exec_port_blind {i : Instr} {s : State} {o : Opr} (hport : encode s.par.typeIds i = .port o) :
    forgetPhaseOut (exec i s) = forgetPhaseOut (exec i (forgetPhase s)) := by
  by_cases hlegal : WellFormed i = true
  case neg =>
    rw [Bool.not_eq_true] at hlegal
    rw [exec_of_illFormed hport hlegal, exec_of_illFormed (s := forgetPhase s) hport hlegal]
    rfl
  cases i with
  | encq | encidf | encrs =>
    simp only [exec, execEncq, execEncidf, execEncrs, State.encField_eq]
    rfl
  | encdio =>
    simp only [exec, execEncdio, State.encIdf_eq]
    rfl
  | decq | classify | mkmask | startm | status => rfl
  | chmap ch =>
    obtain ⟨c, hc⟩ := channelOfPort_of_wellFormed hlegal
    simp only [exec_chmap_of_channelOfPort hc]
    rfl
  | enctc sub p =>
    simp only [exec_enctc_of_legal ((tcLegal_eq_wellFormed p).trans hlegal)]
    rfl
  | encrtd sub p =>
    simp only [exec_encrtd_of_legal ((rtdLegal_eq_wellFormed p).trans hlegal)]
    rfl
  | cfgtc ch sub p =>
    obtain ⟨hch, hp⟩ := Bool.and_eq_true_iff.1 hlegal
    obtain ⟨c, hc⟩ := channelOfPort_of_wellFormed hch
    simp only [exec_cfgtc_of_legal hc ((tcLegal_eq_wellFormed p).trans hp)]
    rfl
  | cfgrtd ch sub p =>
    obtain ⟨hch, hp⟩ := Bool.and_eq_true_iff.1 hlegal
    obtain ⟨c, hc⟩ := channelOfPort_of_wellFormed hch
    simp only [exec_cfgrtd_of_legal hc ((rtdLegal_eq_wellFormed p).trans hp)]
    rfl
  | cfgdio ch p =>
    obtain ⟨c, hc⟩ := channelOfPort_of_wellFormed hlegal
    simp only [exec_cfgdio_of_channelOfPort p hc]
    rfl
  | cfgrs ch fval =>
    obtain ⟨c, hc⟩ := channelOfPort_of_wellFormed hlegal
    simp only [exec_cfgrs_of_channelOfPort fval hc]
    rfl
  | wrreg addr len wdata =>
    simp only [exec_wrreg_of_legal (of_decide_eq_true hlegal)]
    rfl
  | rdreg addr len =>
    simp only [exec_rdreg_of_legal _ addr (of_decide_eq_true hlegal)]
    rfl
  | start ch =>
    obtain ⟨c, hc⟩ := channelOfPort_of_wellFormed hlegal
    simp only [exec_start_of_channelOfPort hc]
    rfl
  | rdtemp ch =>
    obtain ⟨c, hc⟩ := channelOfPort_of_wellFormed hlegal
    simp only [exec_rdtemp_of_channelOfPort hc]
    rfl
  | rdtempm chset =>
    cases hc : firstMember chset with
    | none => simp only [exec_rdtempm_of_noMember hc]; rfl
    | some c => simp only [exec_rdtempm_of_firstMember hc]; rfl
  | avg ch n =>
    obtain ⟨c, hc⟩ := channelOfPort_of_wellFormed hlegal
    simp only [exec_avg_of_channelOfPort n hc]
    exact congrArg Host.Outcome.next ((blind_avgRound c n).comp
      (g := fun s => begun { s with sum := s.sum.set c 0, cnt := 0, rnd := 0, polls := 0 } (.avg c n) .none) (fun _ => rfl) s)
  | avgm chset n =>
    simp only [exec_avgm]
    exact congrArg Host.Outcome.next ((blind_avgmRound chset n).comp
      (g := fun s => begun { s with sum := clearedSums s chset, cnt := 0, rnd := 0, polls := 0 } (.avgm chset n) .none)
      (fun _ => rfl) s)
  | _ => cases hport

theorem exec_wire_blind {ids : TypeIds} {i : Instr} {frame : List Byte} (hwire : encode ids i = .wire frame) :
    BlindOut (exec i) := by
  cases i with
  | wWrite addr payload => exact blindOut_of_transact (fun _ => by rw [exec, execWWrite]) fun _ _ => rfl
  | wRead addr n => exact blindOut_of_transact (fun _ => by rw [exec, execWRead]) fun _ _ => rfl
  | fStart c =>
    refine blindOut_of_transact (fun _ => by rw [exec, execFStart]) fun rx s => ?_
    simp only [forgetPhase_job]
    cases s.job <;> rfl
  | fMask m =>
    refine blindOut_of_transact (fun _ => by rw [exec, execFMask]) fun rx s => ?_
    simp only [forgetPhase_job]
    cases s.job <;> rfl
  | fCfg a w =>
    refine blindOut_of_transact (fun _ => by rw [exec, execFCfg]) fun rx s => ?_
    simp only [forgetPhase_job]
    cases s.job <;> rfl
  | fStatusRd =>
    refine blindOut_of_transact (fun _ => by rw [exec, execFStatusRd]) fun rx s => ?_
    simp only [forgetPhase_job]
    cases s.job <;> rfl
  | fResultRd a =>
    refine blindOut_of_transact (fun _ => by rw [exec, execFResultRd]) fun rx s => ?_
    simp only [forgetPhase_job]
    cases s.job <;> cases channelOfResultField a <;> rfl
  | _ => cases hwire

theorem blindOut_statusByte (a d u : BitVec 1) (ch : BitVec 5) : BlindOut (exec (.statusByte a d u ch)) := by
  intro s
  simp only [exec, execStatusByte, State.statusPhase_job]
  rw [forgetPhase_job]
  cases s.job with
  | avg c n => exact BlindOut.of_next ((blind_avgPolled c d).comp (blind_statusPhase d)) s
  | avgm chset n => exact BlindOut.of_next ((blind_avgmPolled chset n d).comp (blind_statusPhase d)) s
  | _ => exact BlindOut.of_next (Blind.comp (f := fun s => s.complete _) (fun _ => rfl) (blind_statusPhase d)) s

theorem blindOut_resultWord (err : Byte) (raw : BitVec 24) : BlindOut (exec (.resultWord err raw)) := by
  intro s
  simp only [exec, execResultWord]
  rw [forgetPhase_job, forgetPhase_pendingChannel]
  cases s.job with
  | avg c n => exact BlindOut.of_next (blind_avgRoundEnd c n _) s
  | avgm chset n =>
    cases s.pendingChannel with
    | none => rfl
    | some c => exact BlindOut.of_next (blind_nextRead chset c _ (blind_avgmRoundEnd chset n)) s
  | rdtempm chset =>
    cases s.pendingChannel with
    | none => rfl
    | some c =>
      exact BlindOut.of_next (blind_nextRead chset c _ (finish := fun s => s.complete (multiRes chset s.readings))
        fun _ => rfl) s
  | _ => rfl

theorem exec_cfgWord_blind {ids : TypeIds} {i : Instr} {w : Word} (hword : encode ids i = .cfgWord w) :
    BlindOut (exec i) := by
  have hframe (s : State) (w : Word) :
      forgetPhaseOut (.next (s.frameConfig w)) = forgetPhaseOut (.next ((forgetPhase s).frameConfig w)) := by
    unfold State.frameConfig
    simp only [forgetPhase_job]
    cases s.job <;> rfl
  cases i with
  | cfgwordTcJ | cfgwordTcK | cfgwordTcE | cfgwordTcN | cfgwordTcR | cfgwordTcS | cfgwordTcT | cfgwordTcB
  | cfgwordRtdPt10 | cfgwordRtdPt50 | cfgwordRtdPt100 | cfgwordRtdPt200 | cfgwordRtdPt500 | cfgwordRtdPt1000
  | cfgwordRtd1000Ohm | cfgwordRtdNi120 | cfgwordDiode | cfgwordSense => exact fun s => hframe s _
  | _ => cases hword

theorem exec_blind (i : Instr) : BlindOut (exec i) := by
  intro s
  cases hi : encode s.par.typeIds i with
  | port o => exact exec_port_blind hi
  | wire frame => exact exec_wire_blind hi s
  | statusByte b =>
    cases i with
    | statusByte a d u ch => exact blindOut_statusByte a d u ch s
    | _ => cases hi
  | resultWord w =>
    cases i with
    | resultWord err raw => exact blindOut_resultWord err raw s
    | _ => cases hi
  | cfgWord w => exact exec_cfgWord_blind hi s

/-! ## The step -/

theorem step_blind : BlindOut step := by
  intro s
  unfold step
  rw [forgetPhase_busy, forgetPhase_pendingItem, forgetPhase_host, forgetPhase_par]
  split
  · split
    · rfl
    · split
      · exact exec_blind _ s
      · rfl
  · split
    · rfl
    · rfl
    next o rest _ =>
      split
      · rw [exec_blind _ (s.present o rest), exec_blind _ ((forgetPhase s).present o rest)]
        rfl
      · rfl

/-- Settles O17: the step of either state is that of the state without PHASE and SEL, which both have in common. -/
theorem phaseAndSelGateNothing : Obligations.PhaseAndSelGateNothing := by
  intro s p l
  rw [step_blind { s with phase := p, sel := l }, step_blind s]
  rfl

end Sys2Proof.Laws

/-! Decoding inverts encoding (spec/30_encoding.md): the command port by the code alone, the frames by the rows' masks, the
configuration words by their type identifiers, which a table of distinct identifiers keeps apart. -/

namespace Sys2Proof.Laws
open Sys2Proof.Machine

/-! ## Type identifiers that keep the sensor types apart -/

/-- Each sensor type has an identifier of its own (R101). -/
structure DistinctIds (ids : TypeIds) : Prop where
  tc : ∀ sub sub', ids.ofTc sub = ids.ofTc sub' → sub = sub'
  rtd : ∀ sub sub', ids.ofRtd sub = ids.ofRtd sub' → sub = sub'
  tc_ne_rtd : ∀ sub sub', ids.ofTc sub ≠ ids.ofRtd sub'
  tc_ne_diode : ∀ sub, ids.ofTc sub ≠ ids.diode
  tc_ne_sense : ∀ sub, ids.ofTc sub ≠ ids.sense
  rtd_ne_diode : ∀ sub, ids.ofRtd sub ≠ ids.diode
  rtd_ne_sense : ∀ sub, ids.ofRtd sub ≠ ids.sense
  diode_ne_sense : ids.diode ≠ ids.sense

theorem ofTc_mem (ids : TypeIds) (sub : BitVec 3) : ids.ofTc sub ∈ ids.tc.toList :=
  Vector.mem_toList_iff.2 (Vector.getElem_mem sub.toFin.isLt)

theorem ofRtd_mem (ids : TypeIds) (sub : BitVec 3) : ids.ofRtd sub ∈ ids.rtd.toList :=
  Vector.mem_toList_iff.2 (Vector.getElem_mem sub.toFin.isLt)

/-- A table without repetitions is injective. -/
theorem eq_of_getElem_eq {v : Vector (BitVec 5) 8} (h : v.toList.Nodup) {sub sub' : BitVec 3}
    (heq : v[sub.toFin] = v[sub'.toFin]) : sub = sub' := by
  apply BitVec.eq_of_toNat_eq
  have hinj := (List.nodup_iff_injective_getElem.1 h)
    (a₁ := ⟨sub.toNat, by simpa using sub.isLt⟩) (a₂ := ⟨sub'.toNat, by simpa using sub'.isLt⟩) (by simpa using heq)
  exact Fin.mk.inj hinj

theorem distinctIds_of_nodup {ids : TypeIds} (h : ids.all.Nodup) : DistinctIds ids := by
  obtain ⟨hlists, hothers, hapart⟩ := List.nodup_append.1 h
  obtain ⟨htc, hrtd, htcRtd⟩ := List.nodup_append.1 hlists
  have htcMem (sub : BitVec 3) : ids.ofTc sub ∈ ids.tc.toList ++ ids.rtd.toList := List.mem_append_left _ (ofTc_mem ids sub)
  have hrtdMem (sub : BitVec 3) : ids.ofRtd sub ∈ ids.tc.toList ++ ids.rtd.toList :=
    List.mem_append_right _ (ofRtd_mem ids sub)
  have hdiode : ids.diode ∈ [ids.diode, ids.sense] := List.mem_cons_self
  have hsense : ids.sense ∈ [ids.diode, ids.sense] := List.mem_cons_of_mem _ List.mem_cons_self
  exact {
    tc := fun _ _ => eq_of_getElem_eq htc
    rtd := fun _ _ => eq_of_getElem_eq hrtd
    tc_ne_rtd := fun sub sub' => htcRtd _ (ofTc_mem ids sub) _ (ofRtd_mem ids sub')
    tc_ne_diode := fun sub => hapart _ (htcMem sub) _ hdiode
    tc_ne_sense := fun sub => hapart _ (htcMem sub) _ hsense
    rtd_ne_diode := fun sub => hapart _ (hrtdMem sub) _ hdiode
    rtd_ne_sense := fun sub => hapart _ (hrtdMem sub) _ hsense
    diode_ne_sense := by simpa using hothers }

/-! ## Configuration words -/

/-- The one subtype whose identifier is looked up is found. -/
theorem find?_subtype {f : BitVec 3 → BitVec 5} (hf : ∀ sub sub', f sub = f sub' → sub = sub') (sub : BitVec 3) :
    (subtypes.find? fun sub' => f sub' == f sub) = some sub := by
  cases h : subtypes.find? fun sub' => f sub' == f sub with
  | none => exact absurd (BEq.rfl) (List.find?_eq_none.1 h sub (mem_subtypes sub))
  | some sub' => rw [hf sub' sub (by simpa using List.find?_some h)]

/-- An identifier of no subtype is not found. -/
theorem find?_noSubtype {f : BitVec 3 → BitVec 5} {t : BitVec 5} (hf : ∀ sub, f sub ≠ t) :
    (subtypes.find? fun sub => f sub == t) = none := by
  rw [List.find?_eq_none]
  intro sub _
  simpa using hf sub

section
variable {ids : TypeIds} (h : DistinctIds ids)
include h

theorem decodeCfgWord_tcWord (sub : BitVec 3) (f : TcFields) :
    decodeCfgWord ids (tcWord (ids.ofTc sub) f) = .ok (tcRow sub f) := by
  obtain ⟨hid, hreserved, hfields⟩ := slices_of_tcWord (ids.ofTc sub) f
  simp only [decodeCfgWord, hid, find?_subtype h.tc, hreserved, if_true, hfields]

theorem decodeCfgWord_rtdWord (sub : BitVec 3) (f : RtdFields) :
    decodeCfgWord ids (rtdWord (ids.ofRtd sub) f) = .ok (rtdRow sub f) := by
  obtain ⟨hid, hfields⟩ := slices_of_rtdWord (ids.ofRtd sub) f
  simp only [decodeCfgWord, decodeOtherWord, hid, find?_noSubtype fun sub' => h.tc_ne_rtd sub' sub,
    find?_subtype h.rtd, hfields]

theorem decodeCfgWord_diodeWord (f : DiodeFields) :
    decodeCfgWord ids (diodeWord ids.diode f) = .ok (.cfgwordDiode f) := by
  obtain ⟨hid, hfields⟩ := slices_of_diodeWord ids.diode f
  simp only [decodeCfgWord, decodeOtherWord, hid, find?_noSubtype h.tc_ne_diode, find?_noSubtype h.rtd_ne_diode, if_true,
    hfields]

theorem decodeCfgWord_senseWord (rq : BitVec 27) :
    decodeCfgWord ids (senseWord ids.sense rq) = .ok (.cfgwordSense rq) := by
  obtain ⟨hid, hfield⟩ := slices_of_senseWord ids.sense rq
  simp only [decodeCfgWord, decodeOtherWord, hid, find?_noSubtype h.tc_ne_sense, find?_noSubtype h.rtd_ne_sense,
    if_neg h.diode_ne_sense.symm, if_true, hfield]

end

/-! ## Register contents -/

theorem decodeStatusByte_append (a d u : BitVec 1) (ch : BitVec 5) :
    decodeStatusByte (a ++ d ++ u ++ ch) = .statusByte a d u ch := by
  revert a d u ch
  decide

theorem decodeResultWord_append (err : Byte) (raw : BitVec 24) :
    decodeResultWord (err ++ raw) = .resultWord err raw := by
  rw [decodeResultWord]
  congr 1
  · exact BitVec.extractLsb'_append_eq_left
  · exact BitVec.extractLsb'_append_eq_right

/-! ## The statement -/

/-- Settles O18: a host operation by its code, a frame or content by its row, a word by its identifier. -/
theorem decodeInvertsEncode : Obligations.DecodeInvertsEncode := by
  intro ids hnodup i hlegal
  have hids := distinctIds_of_nodup hnodup
  cases i with
  | encq | encidf | decq | classify | chmap | mkmask | enctc | encrtd | encdio | encrs | cfgtc | cfgrtd | cfgdio | cfgrs
  | wrreg | rdreg | start | startm | status | rdtemp | rdtempm | avg | avgm => rfl
  | wWrite addr payload =>
    obtain ⟨hlen, hspecial⟩ := Bool.and_eq_true_iff.1 hlegal
    refine (decodeWire_writeFrame addr payload (of_decide_eq_true hlen)).trans ?_
    rw [decodeWrite_of_not_special addr payload (by simpa using hspecial)]
  | wRead addr n =>
    obtain ⟨hlen, hspecial⟩ := Bool.and_eq_true_iff.1 hlegal
    refine (decodeWire_readFrame addr n.toNat (of_decide_eq_true hlen)).trans ?_
    rw [decodeRead_of_not_special addr n (by simpa using hspecial)]
  | fStart c => exact decodeWire_startFrame c
  | fMask m => exact decodeWire_maskFrame m
  | fCfg a w => exact decodeWire_cfgField a (of_decide_eq_true hlegal) w
  | fStatusRd => exact decodeWire_statusFrame
  | fResultRd a => exact decodeWire_resultField a (of_decide_eq_true hlegal)
  | statusByte a d u ch => exact congrArg Except.ok (decodeStatusByte_append a d u ch)
  | resultWord err raw => exact congrArg Except.ok (decodeResultWord_append err raw)
  | cfgwordTcJ f => exact decodeCfgWord_tcWord hids 0 f
  | cfgwordTcK f => exact decodeCfgWord_tcWord hids 1 f
  | cfgwordTcE f => exact decodeCfgWord_tcWord hids 2 f
  | cfgwordTcN f => exact decodeCfgWord_tcWord hids 3 f
  | cfgwordTcR f => exact decodeCfgWord_tcWord hids 4 f
  | cfgwordTcS f => exact decodeCfgWord_tcWord hids 5 f
  | cfgwordTcT f => exact decodeCfgWord_tcWord hids 6 f
  | cfgwordTcB f => exact decodeCfgWord_tcWord hids 7 f
  | cfgwordRtdPt10 f => exact decodeCfgWord_rtdWord hids 0 f
  | cfgwordRtdPt50 f => exact decodeCfgWord_rtdWord hids 1 f
  | cfgwordRtdPt100 f => exact decodeCfgWord_rtdWord hids 2 f
  | cfgwordRtdPt200 f => exact decodeCfgWord_rtdWord hids 3 f
  | cfgwordRtdPt500 f => exact decodeCfgWord_rtdWord hids 4 f
  | cfgwordRtdPt1000 f => exact decodeCfgWord_rtdWord hids 5 f
  | cfgwordRtd1000Ohm f => exact decodeCfgWord_rtdWord hids 6 f
  | cfgwordRtdNi120 f => exact decodeCfgWord_rtdWord hids 7 f
  | cfgwordDiode f => exact decodeCfgWord_diodeWord hids f
  | cfgwordSense rq => exact decodeCfgWord_senseWord hids rq

/-! ## Slices of configuration words, and words written out -/

/-- Settles O20: each layout's slices give its identifier and fields back. -/
theorem configurationWordsRoundTrip : Obligations.ConfigurationWordsRoundTrip := by
  refine ⟨?thermocouple, ?rtd, ?diode, ?sense⟩
  case thermocouple => exact fun par sub p => slices_of_tcWord (par.typeIds.ofTc sub) p
  case rtd =>
    intro par sub p
    obtain ⟨hid, hfields⟩ := slices_of_rtdWord (par.typeIds.ofRtd sub)
      { rs := p.rs, wires := p.wires, exc := rtdExc par p.wires p.ext p.rot, cur := p.cur, curve := p.curve, cptr := p.cptr }
    rw [encRtd, hfields]
    exact ⟨hid, rfl, rfl, rfl, rfl, rfl⟩
  case diode => exact fun par p idf => slices_of_diodeWord par.typeIds.diode (diodeFields p idf)
  case sense => exact fun par rq => slices_of_senseWord par.typeIds.sense rq

/-- Settles O21: each number by evaluating the decoder on it. -/
theorem writtenOutWordsDecode : Obligations.WrittenOutWordsDecode :=
  ⟨rfl, rfl, by decide, by decide, by decide, by decide⟩

end Sys2Proof.Laws

/-! The sensor configuration encoder and the write half of the framer (spec/42_sensor_config.md, spec/43_framer.md): the
words ENCTC, ENCRTD, ENCDIO and ENCRS report, the two steps in which a CFG operation writes its word, and a WRREG. -/

namespace Sys2Proof.Laws
open Sys2Proof.Machine

/-! ## The words -/

/-- Settles O29: on legal operands the word is the formula of R161, and the default identifiers are `1 + sub`. -/
theorem enctcWritesTheThermocoupleWord : Obligations.EnctcWritesTheThermocoupleWord := by
  refine ⟨?_, ?_⟩
  · intro s sub p hcj hoc
    rw [exec_enctc_of_legal ((tcLegal_iff p).2 ⟨hcj, hoc⟩), complete_eq_ended, encTc_eq_formula]
  · show ∀ sub, Config.defaultTypeIds.ofTc sub = 1 + sub.setWidth 5
    decide

/-- The entry of the default `RTD_EXC` (R165), for either polarity. -/
theorem defaultRtdExc_getElem (extPol : BitVec 1) (wires : BitVec 2) (ext rot : BitVec 1) :
    (Config.defaultRtdExc extPol)[(wires ++ ext ++ rot).toFin] =
      (if wires = 2 ∨ wires = 3 then rot else 0) ++ (ext ^^^ extPol) := by
  revert extPol wires ext rot
  decide

/-- Settles O30: on legal operands the word is the formula of R165; the default tables are evaluated entry by entry. -/
theorem encrtdWritesTheRtdWord : Obligations.EncrtdWritesTheRtdWord := by
  refine ⟨?word, ?identifier, ?excitation, rfl⟩
  case word =>
    intro s sub p hrs hcur
    rw [exec_encrtd_of_legal ((rtdLegal_iff p).2 ⟨hrs, hcur⟩), complete_eq_ended, encRtd_eq_formula]
  case identifier =>
    show ∀ sub, Config.defaultTypeIds.ofRtd sub = 10 + sub.setWidth 5
    decide
  case excitation =>
    intro par p extPol hpar
    simp only [rtdTableFields, rtdDefaultFields, hpar, defaultRtdExc_getElem]

theorem exec_encdio (s : State) (p : DiodeOperands) :
    exec (.encdio p) s =
      .next (ended { s with draws := (idfFormula s.draws p).2 }
        { Res.empty with word := some (encDiode s.par p (idfFormula s.draws p).1) }) := by
  simp only [exec, execEncdio, State.encIdf_eq]
  rfl

theorem exec_encrs (s : State) (fval : Word) :
    exec (.encrs fval) s =
      .next (ended { s with draws := (fieldFormula s.draws fval 10 27).2 }
        { Res.empty with word := some (encSense s.par (fieldFormula s.draws fval 10 27).1) }) := by
  simp only [exec, execEncrs, State.encField_eq]
  rfl

/-- Settles O31: the word is the formula of R167 on the encoded ideality field. -/
theorem encdioWritesTheDiodeWord : Obligations.EncdioWritesTheDiodeWord := by
  refine ⟨?_, rfl⟩
  intro s p
  rw [exec_encdio, encDiode_eq_formula]

/-- Settles O32: the word is the formula of R168 on the encoded resistance. -/
theorem encrsWritesTheResistorWord : Obligations.EncrsWritesTheResistorWord := by
  refine ⟨?_, rfl⟩
  intro s b
  rw [exec_encrs, encSense_eq_formula]

/-! ## Writing a configuration register -/

theorem decodeWire_configFrame (c : Channel) (w : Word) :
    decodeWire (configFrame c w) = .ok (.fCfg (BitVec.ofNat 5 c.val) w) := by
  have haddr : ∀ c : Channel, configAddr c = cfgFieldAddr (BitVec.ofNat 5 c.val) ∧ (BitVec.ofNat 5 c.val).toNat ≤ 19 := by
    decide
  rw [configFrame, (haddr c).1]
  exact decodeWire_cfgField _ (haddr c).2 w

/-- R170: the configuration write of a CFG operation returns `Ok`. -/
theorem exec_fCfg_of_cfg {s : State} {c : Channel} {rx : Rx} {rest : List Answer} (hjob : s.job = .cfg c)
    (hanswers : s.answers = .ok rx :: rest) {a : BitVec 5} (w : Word) :
    exec (.fCfg a w) s =
      .next (ended (called s (writeFrame (cfgFieldAddr a) (be32 w)) rest) { Res.empty with word := some w }) := by
  simp only [exec, execFCfg, transact_of_ok hanswers, called_job, hjob]
  rfl

/-- A CFG operation at its word: the frame of its channel is next (R170). -/
theorem step_of_cfgWord {s : State} {c : Channel} {w : Word} {i : Instr} (hbusy : s.busy = true) (hjob : s.job = .cfg c)
    (hpending : s.pending = .cfgWord w) (hdecode : decodeCfgWord s.par.typeIds w = .ok i) :
    step s = .next { s with pending := .frame (configFrame c w) } := by
  have hitem : s.pendingItem = some (.cfgWord w) := by rw [State.pendingItem, hpending]
  rw [step_of_pendingItem hbusy hitem hdecode, exec_of_decodeCfgWord hdecode]
  simp only [State.frameConfig, hjob, State.send]

/-- `CfgWrite` of R170: from an encoded word two steps write it and report it. -/
theorem runs_cfgWrite (s : State) {c : Channel} {w : Word} (rx : Rx) (rest : List Answer)
    (hdecode : ∃ i, decodeCfgWord s.par.typeIds w = .ok i) :
    Runs 2 (begun { s with answers := .ok rx :: rest } (.cfg c) (.cfgWord w))
      (ended (called s (cfgBytes (c.val + 1) w) rest) { Res.empty with word := some w }) := by
  obtain ⟨i, hi⟩ := hdecode
  refine runs_two (step_of_cfgWord rfl rfl rfl hi) ?_
  have hframe : writeFrame (cfgFieldAddr (BitVec.ofNat 5 c.val)) (be32 w) = cfgBytes (c.val + 1) w := by
    rw [← configFrame_eq_bytes]
    exact Item.wire.inj (encode_of_decodeWire s.par.typeIds (decodeWire_configFrame c w))
  rw [step_of_pending_frame rfl rfl (decodeWire_configFrame c w), exec_fCfg_of_cfg rfl rfl, hframe]
  rfl

/-- The channel of a legal port code, with its number. -/
theorem exists_channelOfPort {ch : BitVec 5} (hch : 1 ≤ ch.toNat ∧ ch.toNat ≤ 20) :
    ∃ c : Channel, c.val + 1 = ch.toNat ∧ channelOfPort ch = some c :=
  ⟨⟨ch.toNat - 1, by omega⟩, Nat.sub_add_cancel hch.1, channelOfPort_of_legal ch hch⟩

/-- Settles O34: the first step leaves the word of ENCTC, and `CfgWrite` follows. -/
theorem cfgtcWritesTheConfigurationRegister : Obligations.CfgtcWritesTheConfigurationRegister := by
  intro s ch sub p rx rest hch hcj hoc
  obtain ⟨c, hnumber, hc⟩ := exists_channelOfPort hch
  rw [← encTc_eq_formula, ← hnumber]
  exact ⟨_, exec_cfgtc_of_legal hc ((tcLegal_iff p).2 ⟨hcj, hoc⟩), ⟨c, rfl, rfl⟩,
    runs_cfgWrite s rx rest (decodeCfgWord_encTc s.par sub p)⟩

/-- Settles O35: the first step leaves the word of ENCRTD, and `CfgWrite` follows. -/
theorem cfgrtdWritesTheConfigurationRegister : Obligations.CfgrtdWritesTheConfigurationRegister := by
  intro s ch sub p rx rest hch hrs hcur
  obtain ⟨c, hnumber, hc⟩ := exists_channelOfPort hch
  rw [← encRtd_eq_formula, ← hnumber]
  exact ⟨_, exec_cfgrtd_of_legal hc ((rtdLegal_iff p).2 ⟨hrs, hcur⟩), ⟨c, rfl, rfl⟩,
    runs_cfgWrite s rx rest (decodeCfgWord_encRtd s.par sub p)⟩

/-- Settles O36: the first step leaves the word of ENCDIO, and `CfgWrite` follows. -/
theorem cfgdioWritesTheConfigurationRegister : Obligations.CfgdioWritesTheConfigurationRegister := by
  intro s ch p rx rest hch
  obtain ⟨c, hnumber, hc⟩ := exists_channelOfPort hch
  rw [← encDiode_eq_formula, ← hnumber]
  exact ⟨_, exec_cfgdio_of_channelOfPort p hc, ⟨c, rfl, rfl⟩,
    runs_cfgWrite { s with draws := (idfFormula s.draws p).2 } rx rest (decodeCfgWord_encDiode s.par p _)⟩

/-- Settles O37: the first step leaves the word of ENCRS, and `CfgWrite` follows. -/
theorem cfgrsWritesTheConfigurationRegister : Obligations.CfgrsWritesTheConfigurationRegister := by
  intro s ch b rx rest hch
  obtain ⟨c, hnumber, hc⟩ := exists_channelOfPort hch
  rw [← encSense_eq_formula, ← hnumber]
  exact ⟨_, exec_cfgrs_of_channelOfPort b hc, ⟨c, rfl, rfl⟩,
    runs_cfgWrite { s with draws := (fieldFormula s.draws b 10 27).2 } rx rest (decodeCfgWord_encSense s.par _)⟩

/-! ## WRREG -/

/-- Whatever row a write frame belongs to, inside a WRREG it is one transaction that completes (R191, R193). -/
theorem exec_writeFrame_of_wrreg {ids : TypeIds} {i : Instr} {frame : List Byte} {s : State} {rx : Rx}
    {rest : List Answer} (hrow : encode ids i = .wire frame) (hwrite : ∃ addr payload, frame = writeFrame addr payload)
    (hjob : s.job = .wrreg) (hanswers : s.answers = .ok rx :: rest) :
    exec i s = .next (ended (called s frame rest) Res.empty) := by
  obtain ⟨addr, payload, hwrite⟩ := hwrite
  cases i with
  | wWrite | fStart | fMask | fCfg =>
    cases hrow
    simp only [exec, execWWrite, execFStart, execFMask, execFCfg, transact_of_ok hanswers, called_job, hjob]
    rfl
  | wRead | fStatusRd | fResultRd => exact absurd (hwrite.symm.trans (Item.wire.inj hrow).symm) writeFrame_ne_readFrame
  | _ => cases hrow

/-- Settles O38: the first step makes the write frame pending, and the second sends it under whichever row it belongs
to. -/
theorem wrregSendsItsBytes : Obligations.WrregSendsItsBytes := by
  intro s addr len wdata rx rest hlen
  have hdecode := decodeWire_writeFrame addr ((be32 wdata).take len.toNat) (List.length_take_le' _ _)
  refine ⟨_, exec_wrreg_of_legal hlen, rfl, runs_one ?_⟩
  rw [step_of_pending_frame rfl rfl hdecode,
    exec_writeFrame_of_wrreg (encode_of_decodeWire s.par.typeIds hdecode) ⟨addr, _, rfl⟩ rfl rfl]
  rfl

end Sys2Proof.Laws

/-! Each row of the wire, of the data read and of the configuration words, inside the operation whose step it is
(spec/30_encoding.md), and the single steps of AVG and AVGM (spec/45_averaging.md). What a row does is said once, for the
jobs that have it; the statements write those results out. -/

namespace Sys2Proof.Laws
open Sys2Proof.Machine

/-! ## The frames -/

section
variable {s : State} {rx : Rx} {rest : List Answer}

/-- R201, R222: the start command of a round writes PHASE and SEL, and the polls begin. -/
theorem exec_fStart_of_averages {c : BitVec 5} (hjob : Averages s.job) (hanswers : s.answers = .ok rx :: rest) :
    exec (.fStart c) s = .next ((called s (startFrame c) rest).startPhase c).beginPolls := by
  rcases (averages_iff s.job).1 hjob with ⟨d, n, hjob⟩ | ⟨chset, n, hjob⟩ <;>
    simp only [exec, execFStart, transact_of_ok hanswers, called_job, hjob]

/-- R204, R230: after the mask write of AVGM its start command of channel field 0 is next. -/
theorem exec_fMask_of_avgm {chset : ChSet} {n : BitVec 16} (hjob : s.job = .avgm chset n)
    (hanswers : s.answers = .ok rx :: rest) (m : ChSet) :
    exec (.fMask m) s = .next ((called s (maskFrame (m.setWidth 32)) rest).send (startFrame 0)) := by
  simp only [exec, execFMask, transact_of_ok hanswers, called_job, hjob]

/-- R206, R222: the status read of a poll brings the byte its next step decodes. -/
theorem exec_fStatusRd_of_averages (hjob : Averages s.job) (hanswers : s.answers = .ok rx :: rest) :
    exec .fStatusRd s = .next { called s statusFrame rest with pending := .statusByte rx.d0 } := by
  rcases (averages_iff s.job).1 hjob with ⟨d, n, hjob⟩ | ⟨chset, n, hjob⟩ <;>
    simp only [exec, execFStatusRd, transact_of_ok hanswers, called_job, hjob]

/-- R208: a result read brings the word its next step decodes, unless it is an RDREG's. -/
theorem exec_fResultRd_of_channel {a : BitVec 5} {c : Channel} (hjob : s.job ≠ .rdreg)
    (hc : channelOfResultField a = some c) (hanswers : s.answers = .ok rx :: rest) :
    exec (.fResultRd a) s =
      .next { called s (readFrame (resultFieldAddr a) 4) rest with pending := .resultWord c rx.word } := by
  simp only [exec, execFResultRd, transact_of_ok hanswers, called_job, hc]

end

/-- Settles O56: each general frame is one transaction, and a read places its data as in R195. -/
theorem generalFramesAreOneTransaction : Obligations.GeneralFramesAreOneTransaction := by
  refine ⟨fun s addr payload rx rest => rfl, ?_⟩
  intro s addr n rx rest hn
  refine Eq.trans (b := .next ((called { s with job := .rdreg, answers := .ok rx :: rest } (readFrame addr n.toNat)
    rest).completeRead n rx)) rfl ?_
  rw [completeRead_eq_ended _ rx hn]
  rfl

/-- Settles O57: the four write frames, each by the lemma of its row. -/
theorem writeFramesAdvanceTheirOperation : Obligations.WriteFramesAdvanceTheirOperation := by
  unfold Obligations.WriteFramesAdvanceTheirOperation
  simp only [← startFrame_eq_bytes, ← maskFrame_eq_bytes, List.forall_mem_cons]
  refine ⟨?single, ?round, ?mask, ?config⟩
  case single =>
    intro s c rx rest
    exact ⟨exec_fStart_of_start (.inl rfl) rfl c, exec_fStart_of_start (.inr rfl) rfl c, by simp⟩
  case round =>
    intro s c d chset n rx rest
    exact ⟨exec_fStart_of_averages rfl rfl, exec_fStart_of_averages rfl rfl, by simp⟩
  case mask =>
    intro s m chset n rx rest
    exact ⟨exec_fMask_of_startm rfl rfl m, exec_fMask_of_avgm rfl rfl m, by simp⟩
  case config =>
    intro s c a w rx rest ha
    rw [← cfgFieldFrame_eq_bytes a ha]
    exact exec_fCfg_of_cfg rfl rfl w

/-- Settles O58: both read frames, each by the lemma of its row. -/
theorem readFramesBringTheirData : Obligations.ReadFramesBringTheirData := by
  unfold Obligations.ReadFramesBringTheirData
  simp only [List.forall_mem_cons]
  refine ⟨?status, ?result⟩
  case status =>
    intro s d chset n rx rest
    exact ⟨exec_fStatusRd_of_status rfl rfl, exec_fStatusRd_of_averages rfl rfl, exec_fStatusRd_of_averages rfl rfl,
      by simp⟩
  case result =>
    intro s a d chset n rx rest ha
    rw [← resultFieldFrame_eq_bytes a ha]
    have hc : channelOfResultField a = some ⟨a.toNat - 4, by omega⟩ := dif_pos ha
    exact ⟨_, Nat.sub_add_cancel ha.1, exec_fResultRd_of_channel nofun hc rfl, exec_fResultRd_of_channel nofun hc rfl,
      exec_fResultRd_of_channel nofun hc rfl, exec_fResultRd_of_channel nofun hc rfl, by simp⟩

/-! ## The contents and the words -/

/-- Settles O59: STATUS completes with the flags, RDTEMP with the classified result. -/
theorem dataRowsAreDecoded : Obligations.DataRowsAreDecoded := by
  refine ⟨?_, fun s err raw => exec_resultWord_of_rdtemp rfl err raw⟩
  intro s a d u h
  simp only [exec, execStatusByte, complete_eq_ended, State.statusPhase_eq]
  rfl

/-- A configuration word's row inside a CFG operation: the frame that writes the word is next (R170). -/
theorem frameConfig_of_cfg (s : State) (c : Channel) (w : Word) :
    { s with job := .cfg c }.frameConfig w = { s with job := .cfg c, pending := .frame (cfgBytes (c.val + 1) w) } := by
  rw [← configFrame_eq_bytes]
  rfl

/-- Settles O60: every row frames the word its formula gives. -/
theorem configurationRowsFrameTheirWord : Obligations.ConfigurationRowsFrameTheirWord := by
  intro s c tc rtd dio rq
  dsimp only
  simp only [List.forall_mem_cons, ← tcWord_eq_formula, ← rtdWord_eq_formula, ← diodeWord_eq_formula,
    ← senseWord_eq_formula, ← frameConfig_of_cfg]
  exact ⟨rfl, rfl, rfl, rfl, rfl, rfl, rfl, rfl, rfl, rfl, rfl, rfl, rfl, rfl, rfl, rfl, rfl, rfl, by simp⟩

/-! ## The first step of AVG and AVGM -/

theorem set_getElem_self {sum : Vector (BitVec 40) 20} (c : Channel) (x : BitVec 40) : (sum.set c x)[c] = x :=
  Vector.getElem_set_self c.isLt

/-- Settles O45: with no rounds wanted the top of the loop completes at once, with cleared sums and count. -/
theorem averagingZeroRoundsSendsNothing : Obligations.AveragingZeroRoundsSendsNothing := by
  refine ⟨?single, ?multi⟩
  case single =>
    intro s ch hch
    obtain ⟨c, hnumber, hc⟩ := exists_channelOfPort hch
    refine ⟨c, hnumber, ?_⟩
    rw [exec_avg_of_channelOfPort 0 hc, State.avgRound_zero, State.completeAvg_zero]
    simp only [begun, set_getElem_self]
    rfl
  case multi =>
    intro s chset
    have hsums : (fun c : Channel => if chset.getLsbD c.val then some (clearedSums s chset)[c] else none) =
        fun c => if chset.getLsbD c.val then some 0 else none := by
      funext c
      split
      next hc => rw [clearedSums_getElem, isMember, if_pos hc]
      next => rfl
    rw [exec_avgm, State.avgmRound_zero, State.completeAvgm_zero, ← hsums]
    rfl

/-- Settles O46: above zero rounds wanted the top of the loop begins round 1 unless the bound allows none. -/
theorem averagingBeginsItsFirstRound : Obligations.AveragingBeginsItsFirstRound := by
  have hpositive {n : BitVec 16} (hn : n ≠ 0) : (0 : BitVec 16).toNat < n.toNat :=
    Nat.pos_of_ne_zero fun h => hn (BitVec.eq_of_toNat_eq h)
  refine ⟨?single, ?multi⟩
  case single =>
    intro s ch n hch hn hbound
    refine ⟨⟨ch.toNat - 1, by omega⟩, Nat.sub_add_cancel hch.1, ?_⟩
    rw [exec_avg_of_channelOfPort n (channelOfPort_of_legal ch hch), ← startFrame_eq_bytes]
    refine congrArg _ ((State.avgRound_of_more (hpositive hn) hbound.symm).trans ?_)
    rw [channelNumber_of_port ch hch]
    rfl
  case multi =>
    intro s chset n hn
    dsimp only
    rw [exec_avgm, ← maskFrame_maskOf_eq_bytes]
    exact ⟨fun hbound => congrArg _ (State.avgmRound_of_more (hpositive hn) hbound),
      fun hbound => congrArg _ (State.avgmRound_of_bound (hpositive hn) hbound)⟩

end Sys2Proof.Laws

/-! The later steps of AVG and AVGM (spec/45_averaging.md, R220 to R232): one poll, and the end of a round. Each row's
meaning inside its operation comes first; the statements then go through the cases of the poll loop and of the top of the
round loop. -/

namespace Sys2Proof.Laws
open Sys2Proof.Machine

/-! ## The rows inside their operation -/

section
variable {s : State} {c : Channel} {chset : ChSet} {n : BitVec 16}

theorem exec_statusByte_of_avg (hjob : s.job = .avg c n) (a d u : BitVec 1) (ch : BitVec 5) :
    exec (.statusByte a d u ch) s = .next ((s.statusPhase d).avgPolled c d) := by
  simp only [exec, execStatusByte, State.statusPhase_job, hjob]

theorem exec_statusByte_of_avgm (hjob : s.job = .avgm chset n) (a d u : BitVec 1) (ch : BitVec 5) :
    exec (.statusByte a d u ch) s = .next ((s.statusPhase d).avgmPolled chset n d) := by
  simp only [exec, execStatusByte, State.statusPhase_job, hjob]

theorem exec_resultWord_of_avg (hjob : s.job = .avg c n) (err : Byte) (raw : BitVec 24) :
    exec (.resultWord err raw) s = .next (s.avgRoundEnd c n (readingOf err raw)) := by
  simp only [exec, execResultWord, hjob]

theorem exec_resultWord_of_avgm {w : Word} (hjob : s.job = .avgm chset n) (hpending : s.pending = .resultWord c w)
    (err : Byte) (raw : BitVec 24) :
    exec (.resultWord err raw) s = .next ((s.keepReading c (readingOf err raw)).nextRead chset c fun s =>
      s.avgmRoundEnd chset n) := by
  simp only [exec, execResultWord, hjob, State.pendingChannel, hpending]

theorem exec_resultWord_of_rdtempm {w : Word} (hjob : s.job = .rdtempm chset) (hpending : s.pending = .resultWord c w)
    (err : Byte) (raw : BitVec 24) :
    exec (.resultWord err raw) s = .next ((s.keepReading c (readingOf err raw)).nextRead chset c fun s =>
      s.complete (multiRes chset s.readings)) := by
  simp only [exec, execResultWord, hjob, State.pendingChannel, hpending]

theorem nextRead_of_next {d : Channel} {finish : State → State} (hd : nextMember chset c = some d) :
    s.nextRead chset c finish = { s with pending := .frame (resultFrame d) } := by
  simp only [State.nextRead, hd, State.send]

theorem nextRead_of_last {finish : State → State} (hd : nextMember chset c = none) :
    s.nextRead chset c finish = finish s := by
  simp only [State.nextRead, hd]

end

/-! ## One poll -/

/-- Settles O47: the poll loop of either operation ends at done or at its bound, and the result read comes next. -/
theorem pollLoopEndsAtDoneOrAtItsBound : Obligations.PollLoopEndsAtDoneOrAtItsBound := by
  refine ⟨?single, ?multi⟩
  case single =>
    intro s c n a d u h
    rw [exec_statusByte_of_avg rfl, State.avgPolled_eq, State.statusPhase_eq]
  case multi =>
    intro s chset n a d u h c hc hfirst
    rw [exec_statusByte_of_avgm rfl, State.statusPhase_eq]
    dsimp only
    rw [State.avgmPolled_eq, State.avgmReads, firstMember_eq chset c hc hfirst, ← resultFrame_eq_bytes]
    by_cases hover : d = 1 ∨ s.par.mpollMax = some (s.polls + 1)
    · simp only [if_pos hover]
      rfl
    · simp only [if_neg hover]

/-! ## The end of a round -/

/-- Only a VALID reading is added and counted (R220, R221, R225). -/
theorem State.avgRoundEnd_eq (s : State) (c : Channel) (n : BitVec 16) (err : Byte) (raw : BitVec 24) :
    s.avgRoundEnd c n (readingOf err raw) =
      (if err = 0x01 then { s with sum := s.sum.set c (addReading s.sum[c] raw), cnt := s.cnt + 1 } else s).avgRound c n := by
  unfold State.avgRoundEnd
  by_cases h : err = 0x01
  · rw [if_pos ((readingOf_tag_valid_iff err).2 h), if_pos h]
    rfl
  · rw [if_neg (mt (readingOf_tag_valid_iff err).1 h), if_neg h]

/-- Settles O48: the reading is added or skipped, and the top of the round loop follows. -/
theorem avgRoundCountsOnlyValidReadings : Obligations.AvgRoundCountsOnlyValidReadings := by
  intro s c n err raw hn
  dsimp only
  rw [exec_resultWord_of_avg rfl, State.avgRoundEnd_eq, State.avgRound_eq _ c n hn]
  by_cases herr : err = 0x01
  · simp only [if_pos herr]
    rfl
  · simp only [if_neg herr]

section
variable {s : State} {chset : ChSet} {n : BitVec 16}

/-- A round of AVGM in which every member's reading is VALID is added for every member (R230). -/
theorem State.avgmRoundEnd_of_valid (h : ∀ m : Fin 20, chset.getLsbD m.val = true → s.readings[m].err = 0x01) :
    s.avgmRoundEnd chset n = { s with sum := s.addAll chset, cnt := s.cnt + 1 }.avgmRound chset n :=
  if_pos ((State.allValid_iff s chset).2 h)

/-- Any other round of AVGM is added for none (R230, R232). -/
theorem State.avgmRoundEnd_of_not_valid (h : ¬ ∀ m : Fin 20, chset.getLsbD m.val = true → s.readings[m].err = 0x01) :
    s.avgmRoundEnd chset n = s.avgmRound chset n :=
  if_neg (mt (State.allValid_iff s chset).1 h)

end

/-- Between a member and the next one there is none. -/
theorem nextMember_eq_some {chset : ChSet} {c d : Channel} (hcd : c < d) (hd : chset.getLsbD d.val = true)
    (hbetween : ∀ m : Fin 20, c < m → m < d → chset.getLsbD m.val = false) : nextMember chset c = some d := by
  unfold nextMember members
  rw [← List.head?_filter, List.filter_filter]
  refine finRange_filter_head _ d (by simp [hcd, isMember, hd]) fun m hm => ?_
  by_cases hcm : c < m
  · rw [isMember, hbetween m hcm hm, Bool.and_false]
  · simp [hcm]

/-- Settles O49: before the last member the next result is read; at the last the round ends. -/
theorem avgmRoundCountsForAllOrNone : Obligations.AvgmRoundCountsForAllOrNone := by
  refine ⟨?next, ?last⟩
  case next =>
    intro s chset c d w n err raw hcd hd hbetween
    rw [exec_resultWord_of_avgm rfl rfl, nextRead_of_next (nextMember_eq_some hcd hd hbetween), resultFrame_eq_bytes]
    rfl
  case last =>
    intro s chset c w n err raw hn hc hlast
    dsimp only
    rw [exec_resultWord_of_avgm rfl rfl, nextRead_of_last (nextMember_eq_none chset c hlast)]
    by_cases hvalid : ∀ m : Fin 20, chset.getLsbD m.val = true →
        (s.readings.set c { err := err, raw := raw })[m].err = 0x01
    · simp only [if_pos hvalid]
      refine congrArg _ ((State.avgmRoundEnd_of_valid hvalid).trans ?_)
      rw [State.avgmRound_eq _ chset n hn]
      rfl
    · simp only [if_neg hvalid]
      refine congrArg _ ((State.avgmRoundEnd_of_not_valid hvalid).trans ?_)
      rw [State.avgmRound_eq _ chset n hn]
      rfl

/-! ## The empty set -/

theorem isMember_empty (c : Channel) : isMember 0 c = false := by
  simp [isMember]

theorem firstMember_empty : firstMember 0 = none := by decide

/-- No member, no value (R303). -/
theorem ofFn_empty {α : Type} (v : Channel → Option α) :
    (Vector.ofFn fun c : Channel => if (0 : ChSet).getLsbD c.val then v c else none) = Vector.replicate 20 none := by
  ext c hc
  simp

theorem addAll_empty (s : State) : s.addAll 0 = s.sum := by
  refine Vector.ext fun c hc => ?_
  have hlane := State.addAll_getElem s 0 ⟨c, hc⟩
  rwa [isMember_empty, if_neg Bool.false_ne_true] at hlane

/-- R231: AVGM on the empty set reads nothing, and its round counts. -/
theorem avgmReads_empty (s : State) (n : BitVec 16) :
    s.avgmReads 0 n = { s with cnt := s.cnt + 1 }.avgmRound 0 n := by
  rw [State.avgmReads, firstMember_empty]
  dsimp only
  rw [State.avgmRoundEnd_of_valid (by simp), addAll_empty]

/-- Settles O50: the poll goes on, or the empty round is counted at the top of the loop. -/
theorem avgmEmptySetCountsEveryRound : Obligations.AvgmEmptySetCountsEveryRound := by
  intro s n a d u h hn
  rw [exec_statusByte_of_avgm rfl, State.statusPhase_eq]
  dsimp only
  rw [State.avgmPolled_eq, avgmReads_empty, State.avgmRound_eq _ 0 n hn]
  by_cases hover : d = 1 ∨ s.par.mpollMax = some (s.polls + 1)
  · simp only [if_pos hover, ofFn_empty]
    rfl
  · simp only [if_neg hover]

/-! ## RDTEMPM -/

/-- What a pass over some channels leaves in the readings (R211). -/
def readAll (rxs : Channel → Rx) (l : List Channel) (rd : Vector Reading 20) : Vector Reading 20 :=
  l.foldl (fun rd (c : Channel) => rd.set c (readingOf (rxs c).d0 (rawOf (rxs c)))) rd

theorem readAll_getElem_of_not_mem {rxs : Channel → Rx} {l : List Channel} {c : Channel} (hc : c ∉ l)
    (rd : Vector Reading 20) : (readAll rxs l rd)[c] = rd[c] := by
  induction l generalizing rd with
  | nil => rfl
  | cons d l ih =>
    obtain ⟨hne, hc⟩ := not_or.1 (mt List.mem_cons.2 hc)
    refine (ih hc _).trans ?_
    exact Vector.getElem_set_ne d.isLt c.isLt fun h => hne (Fin.ext h.symm)

theorem readAll_getElem {rxs : Channel → Rx} {l : List Channel} {c : Channel} (hc : c ∈ l) (rd : Vector Reading 20) :
    (readAll rxs l rd)[c] = readingOf (rxs c).d0 (rawOf (rxs c)) := by
  induction l generalizing rd with
  | nil => cases hc
  | cons d l ih =>
    by_cases hl : c ∈ l
    · exact ih hl _
    · obtain rfl : c = d := (List.mem_cons.1 hc).resolve_right hl
      exact (readAll_getElem_of_not_mem hl _).trans (Vector.getElem_set_self c.isLt)

section
variable {chset : ChSet} {c : Channel} {s : State} {rx : Rx} {rest : List Answer}

/-- The operation at the word that its result read of a channel has brought (R208). -/
def received (s : State) (c : Channel) (rx : Rx) (rest : List Answer) : State :=
  { called s (resultFrame c) rest with pending := .resultWord c rx.word }

/-- An operation other than RDREG at the result read of a channel (R208). -/
theorem step_of_resultFrame (hbusy : s.busy = true) (hjob : s.job ≠ .rdreg)
    (hpending : s.pending = .frame (resultFrame c)) (hanswers : s.answers = .ok rx :: rest) :
    step s = .next (received s c rx rest) := by
  obtain ⟨hfield, hframe⟩ := resultField_of_channel c
  rw [step_of_pending_frame hbusy hpending (decodeWire_resultFrame c), exec_fResultRd_of_channel hjob hfield hanswers,
    hframe]
  rfl

theorem step_of_received (hbusy : s.busy = true) :
    step (received s c rx rest) = exec (.resultWord rx.d0 (rawOf rx)) (received s c rx rest) := by
  rw [step_of_pending_resultWord (s := received s c rx rest) hbusy rfl, decodeResultWord_of_rx]

/-- A member of a pass at its result read: two steps later its reading is kept and the pass goes on (R208, R211). -/
theorem runs_rdtempm_member (hbusy : s.busy = true) (hjob : s.job = .rdtempm chset)
    (hpending : s.pending = .frame (resultFrame c)) (hanswers : s.answers = .ok rx :: rest) :
    Runs 2 s (((received s c rx rest).keepReading c (readingOf rx.d0 (rawOf rx))).nextRead chset c fun s =>
      s.complete (multiRes chset s.readings)) :=
  runs_two (step_of_resultFrame hbusy (by rw [hjob]; nofun) hpending hanswers)
    ((step_of_received hbusy).trans (exec_resultWord_of_rdtempm (s := received s c rx rest) hjob rfl _ _))

end

/-- The rest of a pass, from the result read of a member on. -/
theorem runs_rdtempm {chset : ChSet} (rxs : Channel → Rx) (rest : List Answer) (post : List Channel) :
    ∀ (pre : List Channel) (c : Channel) (s : State), members chset = pre ++ c :: post → s.busy = true →
      s.job = .rdtempm chset → s.pending = .frame (resultFrame c) →
      s.answers = .ok (rxs c) :: (post.map fun c => Answer.ok (rxs c)) ++ rest →
      Runs (2 * (c :: post).length) s (ended
        { s with
          answers := rest, readings := readAll rxs (c :: post) s.readings
          trace := s.trace ++ (c :: post).map resultFrame }
        (multiRes chset (readAll rxs (c :: post) s.readings))) := by
  induction post with
  | nil =>
    intro pre c s hmembers hbusy hjob hpending hanswers
    have hstep := runs_rdtempm_member hbusy hjob hpending hanswers
    rw [nextRead_of_last (nextMember_of_split chset pre [] c hmembers)] at hstep
    exact hstep
  | cons d post ih =>
    intro pre c s hmembers hbusy hjob hpending hanswers
    have hstep := runs_rdtempm_member hbusy hjob hpending hanswers
    rw [nextRead_of_next (nextMember_of_split chset pre (d :: post) c hmembers)] at hstep
    have hruns := runs_trans hstep (ih (pre ++ [c]) d _ (by simpa using hmembers) hbusy hjob rfl rfl)
    have hlen : 2 * (c :: d :: post).length = 2 + 2 * (d :: post).length := by simp only [List.length_cons]; omega
    have htrace : s.trace ++ (c :: d :: post).map resultFrame =
        s.trace ++ [resultFrame c] ++ (d :: post).map resultFrame := by simp
    rw [hlen, htrace]
    exact hruns

/-- The record of a pass, by the formula of each reading (R209, R211). -/
theorem multiRes_readAll (chset : ChSet) (rxs : Channel → Rx) (rd : Vector Reading 20) :
    multiRes chset (readAll rxs (members chset) rd) = { Res.empty with
      mtag := Vector.ofFn fun c => if chset.getLsbD c.val then (resultFormula (rxs c).d0 (rawOf (rxs c))).tag else none
      merr := Vector.ofFn fun c => if chset.getLsbD c.val then (resultFormula (rxs c).d0 (rawOf (rxs c))).err else none
      mq := Vector.ofFn fun c => if chset.getLsbD c.val then (resultFormula (rxs c).d0 (rawOf (rxs c))).q else none
      mf := Vector.ofFn fun c => if chset.getLsbD c.val then (resultFormula (rxs c).d0 (rawOf (rxs c))).f else none } := by
  have hlanes {α : Type} {v w : Channel → Option α} (h : ∀ c, chset.getLsbD c.val = true → v c = w c) :
      perMember chset v = Vector.ofFn fun c => if chset.getLsbD c.val then w c else none := by
    refine congrArg Vector.ofFn (funext fun c => ?_)
    by_cases hc : chset.getLsbD c.val = true
    · rw [isMember, if_pos hc, if_pos hc, h c hc]
    · rw [isMember, if_neg hc, if_neg hc]
  have hread (c : Channel) (hc : chset.getLsbD c.val = true) :
      (readAll rxs (members chset) rd)[c] = readingOf (rxs c).d0 (rawOf (rxs c)) :=
    readAll_getElem (by simpa [members, isMember] using hc) rd
  unfold multiRes
  simp only [← Reading.res_eq_formula]
  rw [hlanes fun c hc => by rw [hread c hc], hlanes fun c hc => by rw [hread c hc], hlanes fun c hc => by rw [hread c hc],
    hlanes fun c hc => by rw [hread c hc]]
  rfl

/-- Settles O44: the pass ends with every member's reading, and the record classifies them. -/
theorem rdtempmReadsTheMembersAscending : Obligations.RdtempmReadsTheMembersAscending := by
  intro s chset rxs rest mem entry s'
  have hrecord := multiRes_readAll chset rxs s.readings
  have hframe (c : Channel) : resultBytes (c.val + 1) = resultFrame c := (resultFrame_eq_bytes c).symm
  have hmem : mem = members chset := rfl
  simp only [hframe, hmem, entry]
  rw [← hrecord]
  cases hsplit : members chset with
  | nil =>
    have hfirst : firstMember chset = none := by rw [firstMember, hsplit]; rfl
    refine ⟨_, s.readings, exec_rdtempm_of_noMember hfirst, by simp, ?_⟩
    simp only [s', hmem, hsplit, List.map_nil, List.nil_append, List.append_nil, List.length_nil, Nat.mul_zero]
    exact runs_zero _
  | cons c post =>
    have hfirst : firstMember chset = some c := by rw [firstMember, hsplit]; rfl
    refine ⟨_, readAll rxs (c :: post) s.readings, exec_rdtempm_of_firstMember hfirst, ?_, ?_⟩
    · rintro _ ⟨⟩
      rfl
    · exact runs_rdtempm rxs rest post [] c _ hsplit rfl rfl rfl (by simp only [s', hmem, hsplit]; rfl)

end Sys2Proof.Laws

/-! Runs of AVG and AVGM (spec/45_averaging.md, R222 to R233): scripts of rounds, the bound on the transactions of AVG, and
the endless polling of AVGM. -/

namespace Sys2Proof.Laws
open Sys2Proof.Machine

/-! ## The steps of one round -/

section
variable {s : State} {rx : Rx} {rest : List Answer}

/-- The state after the start command of a round of AVG (R201, R222). -/
def roundStarted (s : State) (c : Channel) (rest : List Answer) : State :=
  ((called s (startFrame (channelNumber c)) rest).startPhase (channelNumber c)).beginPolls

/-- The state at the byte a status read has brought (R206). -/
def statusReceived (s : State) (rx : Rx) (rest : List Answer) : State :=
  { called s statusFrame rest with pending := .statusByte rx.d0 }

theorem step_of_startFrame_avg {c : Channel} (hbusy : s.busy = true) (hjob : Averages s.job)
    (hpending : s.pending = .frame (startFrame (channelNumber c))) (hanswers : s.answers = .ok rx :: rest) :
    step s = .next (roundStarted s c rest) := by
  rw [step_of_pending_frame hbusy hpending (decodeWire_startFrame _), exec_fStart_of_averages hjob hanswers]
  rfl

theorem step_of_statusFrame (hbusy : s.busy = true) (hjob : Averages s.job) (hpending : s.pending = .frame statusFrame)
    (hanswers : s.answers = .ok rx :: rest) : step s = .next (statusReceived s rx rest) := by
  rw [step_of_pending_frame hbusy hpending decodeWire_statusFrame, exec_fStatusRd_of_averages hjob hanswers]
  rfl

/-- The done flag of a status byte, as the block slices it (R96). -/
theorem doneFlag_iff (b : Byte) : b.extractLsb' 6 1 = 1#1 ↔ b.getLsbD 6 = true := by
  rw [← doneBit_eq, beq_iff_eq]

theorem step_of_statusReceived_avg {c : Channel} {n : BitVec 16} (hbusy : s.busy = true) (hjob : s.job = .avg c n) :
    step (statusReceived s rx rest) =
      .next (((statusReceived s rx rest).statusPhase (rx.d0.extractLsb' 6 1)).avgPolled c (rx.d0.extractLsb' 6 1)) := by
  rw [step_of_pending_statusByte (s := statusReceived s rx rest) hbusy rfl]
  exact exec_statusByte_of_avg (s := statusReceived s rx rest) hjob _ _ _ _

theorem step_of_received_avg {c : Channel} {n : BitVec 16} (hbusy : s.busy = true) (hjob : s.job = .avg c n) :
    step (received s c rx rest) = .next ((received s c rx rest).avgRoundEnd c n (readingOf rx.d0 (rawOf rx))) :=
  (step_of_received hbusy).trans (exec_resultWord_of_avg (s := received s c rx rest) hjob _ _)

end

/-! ## One scripted round of AVG -/

/-- The state at the result of a round whose first poll showed done (R222, R225). -/
def roundRead (s : State) (c : Channel) (r : Round) (rest : List Answer) : State :=
  { s with
    phase := 2, sel := channelNumber c, polls := 1, pending := .resultWord c r.result.word, answers := rest
    trace := s.trace ++ [startFrame (channelNumber c), statusFrame, resultFrame c] }

/-- A round whose first poll shows done is five steps and three frames (R225). -/
theorem runs_round {s : State} {c : Channel} {n : BitVec 16} {r : Round} {rest : List Answer} (hbusy : s.busy = true)
    (hjob : s.job = .avg c n) (hpending : s.pending = .frame (startFrame (channelNumber c)))
    (hanswers : s.answers = .ok r.start :: .ok r.poll :: .ok r.result :: rest) (hdone : r.done = true) :
    Runs 5 s ((roundRead s c r rest).avgRoundEnd c n (readingOf r.err (rawOf r.result))) := by
  have haverages : Averages s.job := by rw [hjob]; rfl
  have hflag : r.poll.d0.extractLsb' 6 1 = 1#1 := (doneFlag_iff _).2 hdone
  let s1 := roundStarted s c (.ok r.poll :: .ok r.result :: rest)
  let s2 := statusReceived s1 r.poll (.ok r.result :: rest)
  have hpoll : step s2 = .next { s2 with phase := 2, polls := 1, pending := .frame (resultFrame c) } := by
    refine (step_of_statusReceived_avg (s := s1) hbusy hjob).trans ?_
    rw [State.avgPolled_eq, State.statusPhase_eq, hflag, ← resultFrame_eq_bytes]
    rfl
  refine runs_succ s1 (step_of_startFrame_avg hbusy haverages hpending hanswers) ?_
  refine runs_succ s2 (step_of_statusFrame hbusy haverages rfl rfl) ?_
  refine runs_succ _ hpoll (runs_two (step_of_resultFrame (rx := r.result) (rest := rest) hbusy ?_ rfl rfl) ?_)
  · show s.job ≠ .rdreg
    rw [hjob]
    nofun
  · refine (step_of_received_avg (s := { s2 with phase := 2, polls := 1, pending := .frame (resultFrame c) })
      hbusy hjob).trans ?_
    have htrace : s.trace ++ [startFrame (channelNumber c)] ++ [statusFrame] ++ [resultFrame c] =
        s.trace ++ [startFrame (channelNumber c), statusFrame, resultFrame c] := by simp
    rw [roundRead, ← htrace]
    rfl

end Sys2Proof.Laws

/-! Scripts of rounds of AVG (spec/45_averaging.md, R225, R226): what the rounds of a script leave in the working
registers, the inputs and the history, and the two ways a script can end. -/

namespace Sys2Proof.Laws
open Sys2Proof.Machine

section
variable {s s' s'' : State} {c : Channel} {n : BitVec 16} {r : Round} {rounds : List Round}

/-! ## What one round leaves -/

/-- The state at the end of a round, begun and read (R221, R222, R225): the next thing is the top of the loop. -/
def roundEnded (s : State) (c : Channel) (r : Round) : State :=
  let read := roundRead { s with rnd := s.rnd + 1 } c r (s.answers.drop 3)
  if r.err = 0x01 then { read with sum := read.sum.set c (addReading read.sum[c] (rawOf r.result)), cnt := read.cnt + 1 }
  else read

/-- From the top of the loop with a round to go (R224), a round runs back to the top. -/
theorem runs_avgRound {rest : List Answer} (hbusy : s.busy = true) (hjob : s.job = .avg c n)
    (hcnt : s.cnt.toNat < n.toNat) (hrnd : s.rnd ≠ s.par.roundMax)
    (hanswers : s.answers = .ok r.start :: .ok r.poll :: .ok r.result :: rest) (hdone : r.done = true) :
    Runs 5 (s.avgRound c n) ((roundEnded s c r).avgRound c n) := by
  rw [State.avgRound_of_more hcnt hrnd]
  have hround := runs_round
    (s := { s with rnd := s.rnd + 1, pending := .frame (startFrame (channelNumber c)) }) hbusy hjob rfl hanswers hdone
  rw [State.avgRoundEnd_eq] at hround
  have hrest : s.answers.drop 3 = rest := by rw [hanswers]; rfl
  rw [roundEnded, hrest]
  exact hround

/-- `s'` is `s` after the rounds of a script on the channel `c`: each has used its three answers and sent its three
frames, and the VALID ones are in CNT and SUM (R221, R225). -/
structure Played (c : Channel) (rounds : List Round) (s s' : State) : Prop where
  busy : s'.busy = s.busy
  job : s'.job = s.job
  par : s'.par = s.par
  rnd : s'.rnd = s.rnd + rounds.length
  answers : s.answers = scriptAnswers rounds ++ s'.answers
  trace : s'.trace = s.trace ++ (List.replicate rounds.length (roundFrames (channelNumber c))).flatten
  cnt : s'.cnt.toNat = s.cnt.toNat + (validRounds rounds).length
  sum : s'.sum[c].toInt = s.sum[c].toInt + sumOf (validRounds rounds)
  bound : s'.sum[c].toInt.natAbs ≤ s'.cnt.toNat * 2 ^ 23

theorem scriptAnswers_append (rounds rounds' : List Round) :
    scriptAnswers (rounds ++ rounds') = scriptAnswers rounds ++ scriptAnswers rounds' :=
  List.flatMap_append

theorem validRounds_append (rounds rounds' : List Round) :
    validRounds (rounds ++ rounds') = validRounds rounds ++ validRounds rounds' :=
  List.filter_append ..

theorem sumOf_append (rounds rounds' : List Round) : sumOf (rounds ++ rounds') = sumOf rounds + sumOf rounds' := by
  simp [sumOf]

theorem validRounds_single (r : Round) : validRounds [r] = if r.err = 0x01 then [r] else [] := by
  simp [validRounds, List.filter_cons]

theorem Played.trans {rounds' : List Round} (h : Played c rounds s s') (h' : Played c rounds' s' s'') :
    Played c (rounds ++ rounds') s s'' where
  busy := h'.busy.trans h.busy
  job := h'.job.trans h.job
  par := h'.par.trans h.par
  rnd := by rw [h'.rnd, h.rnd, List.length_append, Nat.add_assoc]
  answers := by rw [h.answers, h'.answers, scriptAnswers_append, List.append_assoc]
  trace := by
    rw [h'.trace, h.trace, List.length_append, ← List.replicate_append_replicate, List.flatten_append, List.append_assoc]
  cnt := by rw [h'.cnt, h.cnt, validRounds_append, List.length_append, Nat.add_assoc]
  sum := by rw [h'.sum, h.sum, validRounds_append, sumOf_append, Int.add_assoc]
  bound := h'.bound

theorem roundFrames_channelNumber (c : Channel) :
    roundFrames (channelNumber c) = [startFrame (channelNumber c), statusFrame, resultFrame c] := by
  have hnumber : (channelNumber c).toNat = c.val + 1 := by
    rw [channelNumber, BitVec.toNat_ofNat]
    omega
  rw [roundFrames, startFrame_eq_bytes, statusFrame_eq_bytes, resultFrame_eq_bytes, hnumber]

/-- The sum and the count after a round, while the count is below a target of 16 bits (R221, R225). -/
theorem roundEnded_accumulates (hcnt : s.cnt.toNat < n.toNat) (hbound : s.sum[c].toInt.natAbs ≤ s.cnt.toNat * 2 ^ 23) :
    (roundEnded s c r).cnt.toNat = s.cnt.toNat + (validRounds [r]).length ∧
    (roundEnded s c r).sum[c].toInt = s.sum[c].toInt + sumOf (validRounds [r]) ∧
    (roundEnded s c r).sum[c].toInt.natAbs ≤ (roundEnded s c r).cnt.toNat * 2 ^ 23 := by
  rw [validRounds_single, roundEnded]
  by_cases hvalid : r.err = 0x01
  case neg =>
    rw [if_neg hvalid, if_neg hvalid]
    exact ⟨rfl, (Int.add_zero _).symm, hbound⟩
  have hcount : (s.cnt + 1).toNat = s.cnt.toNat + 1 := BitVec.toNat_add_of_lt (x := s.cnt) (y := 1) (by
    have htarget := n.isLt
    show s.cnt.toNat + 1 < _
    omega)
  have hread := sext24_natAbs_le (rawOf r.result)
  have hsum : (addReading s.sum[c] (rawOf r.result)).toInt = s.sum[c].toInt + sumOf [r] := by
    rw [addReading, toInt_ofInt_40 _ (by omega)]
    exact congrArg _ (Int.add_zero _).symm
  have hnext := addReading_natAbs_le s.sum[c] (rawOf r.result) s.cnt.toNat (by omega) hbound
  rw [if_pos hvalid, if_pos hvalid]
  simp only [roundRead, set_getElem_self]
  exact ⟨hcount, hsum, by rw [hcount]; exact hnext⟩

theorem roundEnded_eq (s : State) (c : Channel) (r : Round) :
    roundEnded s c r = { s with
      rnd := s.rnd + 1, phase := 2, sel := channelNumber c, polls := 1, pending := .resultWord c r.result.word
      answers := s.answers.drop 3, trace := s.trace ++ [startFrame (channelNumber c), statusFrame, resultFrame c]
      sum := (roundEnded s c r).sum, cnt := (roundEnded s c r).cnt } := by
  unfold roundEnded
  split <;> rfl

theorem played_roundEnded {rest : List Answer} (hcnt : s.cnt.toNat < n.toNat)
    (hbound : s.sum[c].toInt.natAbs ≤ s.cnt.toNat * 2 ^ 23)
    (hanswers : s.answers = .ok r.start :: .ok r.poll :: .ok r.result :: rest) :
    Played c [r] s (roundEnded s c r) := by
  have hfields := roundEnded_eq s c r
  obtain ⟨hcount, hsum, hnext⟩ := roundEnded_accumulates (r := r) hcnt hbound
  exact {
    busy := (congrArg State.busy hfields :)
    job := (congrArg State.job hfields :)
    par := (congrArg State.par hfields :)
    rnd := (congrArg State.rnd hfields :)
    answers := by
      rw [hfields, hanswers]
      rfl
    trace := by
      rw [hfields, roundFrames_channelNumber]
      rfl
    cnt := hcount
    sum := hsum
    bound := hnext }

/-! ## Whole scripts -/

theorem played_nil (hbound : s.sum[c].toInt.natAbs ≤ s.cnt.toNat * 2 ^ 23) : Played c [] s s :=
  ⟨rfl, rfl, rfl, rfl, rfl, by simp, rfl, by simp [sumOf, validRounds], hbound⟩

/-- A script whose VALID rounds are fewer than AVG still wants runs from the top of the loop to the top of the loop, as
far as its round bound (R224, R225). -/
theorem runs_script {rest : List Answer} : ∀ {rounds : List Round} {s : State}, s.busy = true → s.job = .avg c n →
    (∀ r ∈ rounds, r.done = true) → s.cnt.toNat + (validRounds rounds).length < n.toNat →
    s.rnd + rounds.length ≤ s.par.roundMax → s.answers = scriptAnswers rounds ++ rest →
    s.sum[c].toInt.natAbs ≤ s.cnt.toNat * 2 ^ 23 →
    ∃ s', Runs (5 * rounds.length) (s.avgRound c n) (s'.avgRound c n) ∧ Played c rounds s s' := by
  intro rounds
  induction rounds with
  | nil => exact fun _ _ _ _ _ _ hbound => ⟨_, runs_zero _, played_nil hbound⟩
  | cons r rounds ih =>
    intro s hbusy hjob hdone hvalid hrnd hanswers hbound
    rw [← List.singleton_append, validRounds_append, List.length_append] at hvalid
    rw [List.length_cons] at hrnd
    have hcnt : s.cnt.toNat < n.toNat := by omega
    have hplayed := played_roundEnded hcnt hbound hanswers
    have hround := runs_avgRound hbusy hjob hcnt (by omega) hanswers (hdone r List.mem_cons_self)
    obtain ⟨s', hruns, hrest⟩ := ih (s := roundEnded s c r) (hplayed.busy.trans hbusy) (hplayed.job.trans hjob)
      (fun r hr => hdone r (List.mem_cons_of_mem _ hr)) (by rw [hplayed.cnt]; omega)
      (by rw [hplayed.rnd, hplayed.par, List.length_singleton]; omega)
      (List.append_cancel_left (hplayed.answers.symm.trans hanswers)) hplayed.bound
    refine ⟨s', ?_, hplayed.trans hrest⟩
    rw [List.length_cons, Nat.mul_succ, Nat.add_comm]
    exact runs_trans hround hruns

theorem channelNumber_of_val {ch : BitVec 5} (hval : c.val + 1 = ch.toNat) : channelNumber c = ch := by
  rw [channelNumber, hval, BitVec.ofNat_toNat, BitVec.setWidth_eq]

/-- AVG at the top of its loop, before its first round (R225). -/
def avgBegun (s : State) (c : Channel) (n : BitVec 16) : State :=
  begun { s with sum := s.sum.set c 0, cnt := 0, rnd := 0, polls := 0 } (.avg c n) .none

theorem avgBegun_sum (s : State) (c : Channel) (n : BitVec 16) : (avgBegun s c n).sum[c].toInt = 0 := by
  simp only [avgBegun, begun, set_getElem_self]
  rfl

theorem avgBegun_bound (s : State) (c : Channel) (n : BitVec 16) :
    (avgBegun s c n).sum[c].toInt.natAbs ≤ (avgBegun s c n).cnt.toNat * 2 ^ 23 := by
  rw [avgBegun_sum]
  exact Nat.zero_le _

end

/-- Settles O51: the script but for its last round leaves AVG one VALID reading short, and the last round brings it. -/
theorem avgConsumesExactlyTheRoundsNeeded : Obligations.AvgConsumesExactlyTheRoundsNeeded := by
  intro s ch n rounds last rest hch hdone herr hvalid hrounds
  obtain ⟨c, hval, hc⟩ := exists_channelOfPort hch
  have hnumber := channelNumber_of_val hval
  let begin := avgBegun { s with answers := scriptAnswers (rounds ++ [last]) ++ rest } c n
  have hlast : (validRounds [last]).length = 1 := by rw [validRounds_single, if_pos herr, List.length_singleton]
  rw [validRounds_append, List.length_append, hlast] at hvalid
  have hanswers : begin.answers = scriptAnswers rounds ++ (scriptAnswers [last] ++ rest) := by
    rw [← List.append_assoc, ← scriptAnswers_append]
    rfl
  obtain ⟨s', hruns, hplayed⟩ := runs_script (s := begin) (n := n) rfl rfl
    (fun r hr => hdone r (List.mem_append_left _ hr)) (show 0 + _ < _ by omega) (show 0 + _ ≤ s.par.roundMax by omega)
    hanswers (avgBegun_bound ..)
  have hcnt : s'.cnt.toNat < n.toNat := by
    rw [hplayed.cnt]
    show 0 + _ < _
    omega
  have hrnd : s'.rnd ≠ s'.par.roundMax := by
    rw [hplayed.rnd, hplayed.par]
    show 0 + _ ≠ s.par.roundMax
    omega
  have hnext : s'.answers = scriptAnswers [last] ++ rest := List.append_cancel_left (hplayed.answers.symm.trans hanswers)
  have hround := runs_avgRound (hplayed.busy.trans rfl) (hplayed.job.trans rfl) hcnt hrnd hnext
    (hdone last (List.mem_append_right _ List.mem_cons_self))
  have hend := hplayed.trans (played_roundEnded hcnt hplayed.bound hnext)
  have hcount : (roundEnded s' c last).cnt = n := BitVec.eq_of_toNat_eq (by
    rw [hend.cnt, validRounds_append, List.length_append, hlast, hvalid]
    exact Nat.zero_add _)
  have hsum : (roundEnded s' c last).sum[c].toInt = sumOf (validRounds (rounds ++ [last])) := by
    rw [hend.sum, avgBegun_sum, Int.zero_add]
  have hn : n ≠ 0 := by
    rintro rfl
    exact absurd hcnt (Nat.not_lt_zero _)
  rw [State.avgRound_of_reached (s := roundEnded s' c last) hn (by rw [hcount])] at hround
  refine ⟨_, _, exec_avg_of_channelOfPort n hc, runs_trans hruns hround, rfl, ?_, ?_, ?_, ?_, ?_⟩
  · show (roundEnded s' c last).answers = rest
    rw [roundEnded_eq, hnext]
    rfl
  · show (roundEnded s' c last).phase = 2
    rw [roundEnded_eq]
  · show (roundEnded s' c last).sel = ch
    rw [roundEnded_eq, ← hnumber]
  · show (roundEnded s' c last).trace = _
    rw [hend.trace, hnumber, List.length_append, List.length_singleton]
    rfl
  · show ({ Res.empty with code := _, sum := _, cnt := _, meanF := _ } : Res) = _
    rw [hsum, hcount, ← hsum, BitVec.ofInt_toInt]

/-- Settles O52: the script ends at the top of the loop with CNT short and no round left (R224). -/
theorem avgEndsUnattainableAtItsRoundBound : Obligations.AvgEndsUnattainableAtItsRoundBound := by
  intro s ch n rounds rest hch hdone hvalid hrounds
  obtain ⟨c, hval, hc⟩ := exists_channelOfPort hch
  have hnumber := channelNumber_of_val hval
  let begin := avgBegun { s with answers := scriptAnswers rounds ++ rest } c n
  obtain ⟨s', hruns, hplayed⟩ := runs_script (s := begin) (n := n) rfl rfl hdone (show 0 + _ < _ by omega)
    (show 0 + _ ≤ s.par.roundMax by omega) (rest := rest) rfl (avgBegun_bound ..)
  have hcnt : s'.cnt.toNat < n.toNat := by
    rw [hplayed.cnt]
    show 0 + _ < _
    omega
  have hrnd : s'.rnd = s'.par.roundMax := by
    rw [hplayed.rnd, hplayed.par]
    show 0 + _ = s.par.roundMax
    omega
  rw [State.avgRound_of_bound hcnt hrnd] at hruns
  refine ⟨_, _, exec_avg_of_channelOfPort n hc, hruns, rfl, ?_, ?_, rfl⟩
  · exact (List.append_cancel_left hplayed.answers).symm
  · show s'.trace = _
    rw [hplayed.trace, hnumber]
    rfl

end Sys2Proof.Laws

/-! AVGM without a poll bound (spec/45_averaging.md, R233; spec/70_reset_and_hazards.md, R284): while no status read
shows done it polls for ever. -/

namespace Sys2Proof.Laws
open Sys2Proof.Machine

/-- AVGM is in its poll loop, without a bound, and no answer of the transport shows done (R222, R233). -/
structure Polling (chset : ChSet) (n : BitVec 16) (s : State) : Prop where
  busy : s.busy = true
  job : s.job = .avgm chset n
  unbounded : s.par.mpollMax = none
  silent : ∀ a ∈ s.answers, ∃ rx, a = .ok rx ∧ rx.d0.getLsbD 6 = false
  pending : s.pending = .frame statusFrame ∨ ∃ b, s.pending = .statusByte b ∧ b.getLsbD 6 = false

section
variable {s : State} {chset : ChSet} {n : BitVec 16}

/-- A step of the poll loop waits, brings a status byte, or counts a poll that showed no done (R222, R223). -/
theorem Polling.step (h : Polling chset n s) : ∃ t, step s = .next t ∧ Polling chset n t := by
  obtain ⟨hbusy, hjob, hbound, hsilent, hpending | ⟨b, hpending, hdone⟩⟩ := h
  case inl =>
    cases hanswers : s.answers with
    | nil =>
      obtain ⟨k, hk⟩ := step_transact hbusy hpending decodeWire_statusFrame
      exact ⟨s, by rw [hk, transact_of_noAnswer hanswers], hbusy, hjob, hbound, hsilent, .inl hpending⟩
    | cons a rest =>
      rw [hanswers] at hsilent
      obtain ⟨rx, rfl, hdone⟩ := hsilent a List.mem_cons_self
      exact ⟨_, step_of_statusFrame hbusy (by rw [hjob]; rfl) hpending hanswers, hbusy, hjob, hbound,
        fun a ha => hsilent a (List.mem_cons_of_mem _ ha), .inr ⟨rx.d0, rfl, hdone⟩⟩
  case inr =>
    have hflag : b.extractLsb' 6 1 ≠ 1#1 := fun hflag => by
      rw [(doneFlag_iff b).1 hflag] at hdone
      cases hdone
    have hover : ¬ (b.extractLsb' 6 1 = 1#1 ∨ s.par.mpollMax = some (s.polls + 1)) := by simp [hflag, hbound]
    refine ⟨_, (step_of_pending_statusByte hbusy hpending).trans (exec_statusByte_of_avgm hjob ..), ?_⟩
    rw [State.statusPhase_eq, State.avgmPolled_of_not_over (by exact hover)]
    exact ⟨hbusy, hjob, hbound, hsilent, .inl rfl⟩

theorem Polling.runs (k : Nat) : ∀ {s : State}, Polling chset n s → ∃ t, Runs k s t ∧ Polling chset n t := by
  induction k with
  | zero => exact fun h => ⟨_, runs_zero _, h⟩
  | succ k ih =>
    intro s h
    obtain ⟨t, hstep, ht⟩ := h.step
    obtain ⟨u, hruns, hu⟩ := ih ht
    exact ⟨u, runs_succ t hstep hruns, hu⟩

end

/-- Settles O54: the poll loop is an invariant, and BUSY is 1 in it. -/
theorem avgmPollsForEverWithoutDone : Obligations.AvgmPollsForEverWithoutDone := by
  intro s chset n hbusy hjob hpending hbound hsilent k
  obtain ⟨t, hruns, ht⟩ := Polling.runs k ⟨hbusy, hjob, hbound, hsilent, .inl hpending⟩
  exact ⟨t, hruns, ht.busy⟩

end Sys2Proof.Laws

/-! AVG ends (spec/45_averaging.md, R233): each position at which AVG calls the transport has a number of calls it can
still make, and every answer brings a position with a smaller one, or the end. -/

namespace Sys2Proof.Laws
open Sys2Proof.Machine

section
variable {s t : State} {c : Channel} {n : BitVec 16} {m : Nat} {a : Answer} {rest : List Answer}

/-- The calls of the rounds still to begin (R224, R233). -/
def callsAhead (s : State) : Nat := (s.par.roundMax - s.rnd) * (s.par.pollMax + 2)

/-- AVG runs within its bounds (R8, R224). -/
structure AvgRunning (c : Channel) (n : BitVec 16) (s : State) : Prop where
  busy : s.busy = true
  job : s.job = .avg c n
  polls : 1 ≤ s.par.pollMax
  rounds : s.rnd ≤ s.par.roundMax

/-- AVG is at a call of the transport and can make that many calls (R222, R233). -/
inductive AvgCalls (c : Channel) (s : State) : Nat → Prop
  | start (hpending : s.pending = .frame (startFrame (channelNumber c))) :
    AvgCalls c s (callsAhead s + (s.par.pollMax + 2))
  | poll (hpending : s.pending = .frame statusFrame) (hpolls : s.polls < s.par.pollMax) :
    AvgCalls c s (callsAhead s + (s.par.pollMax - s.polls) + 1)
  | read (hpending : s.pending = .frame (resultFrame c)) : AvgCalls c s (callsAhead s + 1)

/-- AVG is over, or at a call of the transport with at most `m` calls to make. -/
def AvgWithin (c : Channel) (n : BitVec 16) (m : Nat) (s : State) : Prop :=
  s.busy = false ∨ AvgRunning c n s ∧ ∃ m' ≤ m, AvgCalls c s m'

theorem AvgWithin.mono {m' : Nat} (h : AvgWithin c n m s) (hm : m ≤ m') : AvgWithin c n m' s := by
  obtain hover | ⟨hrunning, k, hk, hcalls⟩ := h
  · exact .inl hover
  · exact .inr ⟨hrunning, k, hk.trans hm, hcalls⟩

/-- One call of the transport has returned: `m` calls are left, at most. -/
def CallReturns (c : Channel) (n : BitVec 16) (m : Nat) (s : State) (rest : List Answer) : Prop :=
  ∃ k t, Runs k s t ∧ t.answers = rest ∧ t.trace.length = s.trace.length + 1 ∧ AvgWithin c n m t

/-! ## The top of the loop -/

/-- The top of AVG's loop makes no call: AVG ends there, or begins a round (R224, R225). -/
theorem State.avgRound_within (h : AvgRunning c n s) :
    (s.avgRound c n).answers = s.answers ∧ (s.avgRound c n).trace = s.trace ∧
      AvgWithin c n (callsAhead s) (s.avgRound c n) := by
  by_cases hmore : s.cnt.toNat < n.toNat
  case neg =>
    by_cases hn : n = 0
    · subst hn
      rw [State.avgRound_zero, State.completeAvg_zero]
      exact ⟨rfl, rfl, .inl rfl⟩
    · rw [State.avgRound_of_reached hn (Nat.le_of_not_lt hmore)]
      exact ⟨rfl, rfl, .inl rfl⟩
  by_cases hbound : s.rnd = s.par.roundMax
  case pos =>
    rw [State.avgRound_of_bound hmore hbound]
    exact ⟨rfl, rfl, .inl rfl⟩
  rw [State.avgRound_of_more hmore hbound]
  have hrounds : s.rnd + 1 ≤ s.par.roundMax := Nat.lt_of_le_of_ne h.rounds hbound
  have hahead : callsAhead s = (s.par.roundMax - (s.rnd + 1)) * (s.par.pollMax + 2) + (s.par.pollMax + 2) := by
    rw [callsAhead, ← Nat.succ_mul]
    congr 1
    omega
  exact ⟨rfl, rfl, .inr ⟨⟨h.busy, h.job, h.polls, hrounds⟩, _, hahead.ge, .start rfl⟩⟩

/-- So is the end of a round, whether its reading counts or not (R221). -/
theorem State.avgRoundEnd_within (h : AvgRunning c n s) (err : Byte) (raw : BitVec 24) :
    (s.avgRoundEnd c n (readingOf err raw)).answers = s.answers ∧
      (s.avgRoundEnd c n (readingOf err raw)).trace = s.trace ∧
      AvgWithin c n (callsAhead s) (s.avgRoundEnd c n (readingOf err raw)) := by
  rw [State.avgRoundEnd_eq]
  split
  · exact State.avgRound_within (s := { s with sum := s.sum.set c (addReading s.sum[c] raw), cnt := s.cnt + 1 })
      ⟨h.busy, h.job, h.polls, h.rounds⟩
  · exact State.avgRound_within h

/-! ## One call -/

/-- An `Err` ends the operation (R66). -/
theorem callReturns_of_err {e : Nat} {frame : List Byte} {i : Instr} (h : AvgRunning c n s)
    (hpending : s.pending = .frame frame) (hdecode : decodeWire frame = .ok i) (hanswers : s.answers = .err e :: rest) :
    CallReturns c n m s rest := by
  obtain ⟨k, hk⟩ := step_transact h.busy hpending hdecode
  exact ⟨1, _, runs_one (hk.trans (transact_of_err hanswers)), rfl, List.length_append, .inl rfl⟩

/-- After the start command the status is polled for the first time (R222). -/
theorem callReturns_of_start {rx : Rx} (h : AvgRunning c n s)
    (hpending : s.pending = .frame (startFrame (channelNumber c))) (hanswers : s.answers = .ok rx :: rest) :
    CallReturns c n (callsAhead s + s.par.pollMax + 1) s rest :=
  ⟨1, _, runs_one (step_of_startFrame_avg h.busy (by rw [h.job]; rfl) hpending hanswers), rfl, List.length_append,
    .inr ⟨⟨h.busy, h.job, h.polls, h.rounds⟩, _, Nat.le_refl _, .poll (s := roundStarted s c rest) rfl h.polls⟩⟩

/-- A poll is counted; the next call polls again within the bound, or reads the result (R222, R223). -/
theorem callReturns_of_poll {rx : Rx} (h : AvgRunning c n s) (hpending : s.pending = .frame statusFrame)
    (hpolls : s.polls < s.par.pollMax) (hanswers : s.answers = .ok rx :: rest) :
    CallReturns c n (callsAhead s + (s.par.pollMax - s.polls)) s rest := by
  have hstep := step_of_statusFrame h.busy (by rw [h.job]; rfl) hpending hanswers
  have hpoll := step_of_statusReceived_avg (rx := rx) (rest := rest) h.busy h.job
  rw [State.statusPhase_eq, State.avgPolled_eq] at hpoll
  refine ⟨2, _, runs_two hstep hpoll, rfl, List.length_append, .inr ⟨⟨h.busy, h.job, h.polls, h.rounds⟩, ?_⟩⟩
  by_cases hover : rx.d0.extractLsb' 6 1 = 1#1 ∨ s.polls + 1 = s.par.pollMax
  · refine ⟨callsAhead s + 1, by omega, .read ?_⟩
    rw [resultFrame_eq_bytes]
    exact if_pos hover
  · have hless : s.polls + 1 < s.par.pollMax := by omega
    exact ⟨callsAhead s + (s.par.pollMax - (s.polls + 1)) + 1, by omega, .poll (if_neg hover) hless⟩

/-- After the result read AVG is at the top of its loop (R221, R225). -/
theorem callReturns_of_read {rx : Rx} (h : AvgRunning c n s) (hpending : s.pending = .frame (resultFrame c))
    (hanswers : s.answers = .ok rx :: rest) : CallReturns c n (callsAhead s) s rest := by
  have hstep := step_of_resultFrame h.busy (by rw [h.job]; nofun) hpending hanswers
  have hend := step_of_received_avg (rx := rx) (rest := rest) h.busy h.job
  obtain ⟨hrest, htrace, hwithin⟩ := State.avgRoundEnd_within (s := received s c rx rest)
    ⟨h.busy, h.job, h.polls, h.rounds⟩ rx.d0 (rawOf rx)
  exact ⟨2, _, runs_two hstep hend, hrest, (congrArg List.length htrace).trans List.length_append, hwithin⟩

/-- Every answer brings AVG on by a call. -/
theorem AvgCalls.returns (h : AvgRunning c n s) (hcalls : AvgCalls c s m) (hanswers : s.answers = a :: rest) :
    CallReturns c n (m - 1) s rest := by
  cases a with
  | err e =>
    cases hcalls with
    | start hpending => exact callReturns_of_err h hpending (decodeWire_startFrame _) hanswers
    | poll hpending _ => exact callReturns_of_err h hpending decodeWire_statusFrame hanswers
    | read hpending => exact callReturns_of_err h hpending (decodeWire_resultFrame c) hanswers
  | ok rx =>
    cases hcalls with
    | start hpending => exact callReturns_of_start h hpending hanswers
    | poll hpending hpolls => exact callReturns_of_poll h hpending hpolls hanswers
    | read hpending => exact callReturns_of_read h hpending hanswers

theorem AvgCalls.pos (h : AvgCalls c s m) : 0 < m := by
  cases h <;> omega

/-! ## The whole run -/

/-- With an answer for each call it can make, AVG ends, and its history grows by no more than these calls. -/
theorem AvgWithin.ends : ∀ {m : Nat} {s : State}, AvgWithin c n m s → m ≤ s.answers.length →
    ∃ k u, Runs k s u ∧ u.busy = false ∧ u.trace.length ≤ s.trace.length + m := by
  intro m
  induction m with
  | zero =>
    rintro s (hover | ⟨-, m', hm, hcalls⟩) -
    · exact ⟨0, s, runs_zero s, hover, Nat.le_refl _⟩
    · exact absurd hcalls.pos (by omega)
  | succ m ih =>
    rintro s (hover | ⟨hrunning, m', hm, hcalls⟩) hlength
    · exact ⟨0, s, runs_zero s, hover, Nat.le_add_right _ _⟩
    · obtain ⟨a, rest, hanswers⟩ := List.exists_cons_of_length_pos (Nat.lt_of_lt_of_le (Nat.succ_pos m) hlength)
      obtain ⟨k, t, hruns, hrest, htrace, hwithin⟩ := hcalls.returns hrunning hanswers
      rw [hanswers, List.length_cons] at hlength
      obtain ⟨j, u, hruns', hover, htrace'⟩ := ih (hwithin.mono (by omega)) (by rw [hrest]; omega)
      exact ⟨k + j, u, runs_trans hruns hruns', hover, by omega⟩

end

/-- Settles O53: AVG is rejected, or is at the top of its loop with all its rounds to go. -/
theorem avgAlwaysEnds : Obligations.AvgAlwaysEnds := by
  intro s ch n hpolls hanswers
  by_cases hlegal : WellFormed (.avg ch n) = true
  case neg =>
    exact ⟨_, exec_of_illFormed rfl (Bool.eq_false_iff.2 hlegal), 0, _, runs_zero _, rfl, Nat.le_add_right _ _⟩
  obtain ⟨c, hc⟩ := channelOfPort_of_wellFormed hlegal
  obtain ⟨hrest, htrace, hwithin⟩ := State.avgRound_within (s := avgBegun s c n) ⟨rfl, rfl, hpolls, Nat.zero_le _⟩
  refine ⟨_, exec_avg_of_channelOfPort n hc, ?_⟩
  obtain ⟨k, u, hruns, hover, hlength⟩ := hwithin.ends (by rw [hrest]; exact hanswers)
  rw [htrace] at hlength
  exact ⟨k, u, hruns, hover, hlength⟩

end Sys2Proof.Laws

/-! Binary32 (spec/00_scope.md, R13; spec/40_codec.md, R137; spec/45_averaging.md, R226): the fields and the value of a
packed binary32, the decoded float, and the mean as a nearest binary32. -/

namespace Sys2Proof.Laws
open Sys2Proof.Machine

/-! ## Packing a binary32 -/

/-- The word with the sign of `q` and the exponent and fraction fields of `m` (R13). -/
def packed (q : Int) (m : Nat) : Word := BitVec.ofNat 32 (f32SignBit q + m)

/-- The sign of a binary32 as a factor (R13). -/
def signOf (q : Int) : ℚ := if q < 0 then -1 else 1

section
variable {q : Int} {m k sig : Nat}

theorem packed_toNat (hm : m < 2 ^ 31) : (packed q m).toNat = f32SignBit q + m := by
  rw [packed, BitVec.toNat_ofNat, Nat.mod_eq_of_lt]
  unfold f32SignBit
  split <;> omega

theorem f32SignBit_cases (q : Int) : f32SignBit q = 0 ∨ f32SignBit q = 2 ^ 31 := by
  unfold f32SignBit
  split
  · exact .inr rfl
  · exact .inl rfl

theorem f32Exp_packed (hm : m < 2 ^ 31) : f32Exp (packed q m) = m / 2 ^ 23 := by
  rw [f32Exp, BitVec.extractLsb'_toNat, packed_toNat hm, Nat.shiftRight_eq_div_pow]
  rcases f32SignBit_cases q with h | h <;> rw [h] <;> omega

theorem f32Frac_packed (hm : m < 2 ^ 31) : f32Frac (packed q m) = m % 2 ^ 23 := by
  rw [f32Frac, BitVec.extractLsb'_toNat, packed_toNat hm, Nat.shiftRight_zero]
  rcases f32SignBit_cases q with h | h <;> rw [h] <;> omega

theorem packed_sign (hm : m < 2 ^ 31) : (packed q m).getLsbD 31 = decide (q < 0) := by
  rw [BitVec.getLsbD, packed_toNat hm, Nat.testBit_eq_decide_div_mod_eq, f32SignBit]
  by_cases hq : q < 0
  · rw [if_pos hq, decide_eq_true hq, decide_eq_true]
    omega
  · rw [if_neg hq, decide_eq_false hq, decide_eq_false]
    omega

theorem packed_lowBit (hm : m < 2 ^ 31) : (packed q m).getLsbD 0 = decide (m % 2 = 1) := by
  rw [BitVec.getLsbD, packed_toNat hm, Nat.testBit_eq_decide_div_mod_eq, pow_zero, Nat.div_one, decide_eq_decide]
  rcases f32SignBit_cases q with h | h <;> rw [h] <;> omega

theorem f32Finite_packed (hm : m < 255 * 2 ^ 23) : f32Finite (packed q m) = true := by
  rw [f32Finite, f32Exp_packed (by omega), bne_iff_ne]
  omega

/-- A significand of up to `2^24` steps of `2^(k-149)`: subnormal where `k = 0`, and carried into the next exponent where
it is `2^24`. -/
theorem packed_magnitude (hnormal : k = 0 ∨ 2 ^ 23 ≤ sig) (hsig : sig ≤ 2 ^ 24) (hm : k * 2 ^ 23 + sig < 2 ^ 31) :
    (f32Sig (packed q (k * 2 ^ 23 + sig)) : ℚ) * 2 ^ ((max (f32Exp (packed q (k * 2 ^ 23 + sig))) 1 : ℤ) - 150) =
      sig * 2 ^ ((k : ℤ) - 149) := by
  rw [f32Sig, f32Exp_packed hm, f32Frac_packed hm]
  rcases Nat.lt_or_ge sig (2 ^ 23) with hlow | hhigh
  · have hk : k = 0 := by omega
    have hexp : (k * 2 ^ 23 + sig) / 2 ^ 23 = 0 := by omega
    have hfrac : (k * 2 ^ 23 + sig) % 2 ^ 23 = sig := by omega
    rw [hexp, hfrac, if_pos rfl, hk]
    norm_num
  · rcases hsig.lt_or_eq with hlt | heq
    · have hexp : (k * 2 ^ 23 + sig) / 2 ^ 23 = k + 1 := by omega
      have hfrac : 2 ^ 23 + (k * 2 ^ 23 + sig) % 2 ^ 23 = sig := by omega
      have hmax : (max ((k + 1 : ℕ) : ℤ) 1 : ℤ) - 150 = k - 149 := by omega
      rw [hexp, hfrac, if_neg (Nat.succ_ne_zero k), hmax]
    · have hexp : (k * 2 ^ 23 + sig) / 2 ^ 23 = k + 2 := by omega
      have hfrac : (k * 2 ^ 23 + sig) % 2 ^ 23 = 0 := by omega
      have hmax : (max ((k + 2 : ℕ) : ℤ) 1 : ℤ) - 150 = k - 149 + 1 := by omega
      rw [hexp, hfrac, if_neg (Nat.succ_ne_zero (k + 1)), hmax, heq, zpow_add_one₀ (by norm_num)]
      push_cast
      ring

theorem f32Val_packed (hnormal : k = 0 ∨ 2 ^ 23 ≤ sig) (hsig : sig ≤ 2 ^ 24) (hm : k * 2 ^ 23 + sig < 2 ^ 31) :
    f32Val (packed q (k * 2 ^ 23 + sig)) = signOf q * (sig * 2 ^ ((k : ℤ) - 149)) := by
  rw [f32Val, packed_sign hm, mul_assoc, packed_magnitude hnormal hsig hm, signOf]
  simp only [decide_eq_true_eq]

end

theorem signOf_mul_natAbs (q : Int) : signOf q * (q.natAbs : ℚ) = q := by
  rw [signOf, Nat.cast_natAbs]
  split_ifs with hq
  · rw [abs_of_neg hq]
    push_cast
    ring
  · rw [abs_of_nonneg (not_lt.1 hq), one_mul]

theorem abs_signOf_mul (q : Int) (x : ℚ) : |signOf q * x| = |x| := by
  rw [signOf]
  split_ifs <;> simp

/-! ## The decoded float -/

/-- A magnitude of at most 24 bits, shifted up, is a normal significand. -/
theorem shifted_bounds {a : Nat} (ha : a ≠ 0) (hrange : a < 2 ^ 24) :
    2 ^ 23 ≤ a * 2 ^ (23 - Nat.log2 a) ∧ a * 2 ^ (23 - Nat.log2 a) < 2 ^ 24 := by
  have hlog : Nat.log2 a < 24 := (Nat.log2_lt ha).2 hrange
  have hsplit (i : Nat) : 2 ^ (Nat.log2 a + i) * 2 ^ (23 - Nat.log2 a) = 2 ^ (23 + i) := by
    rw [← pow_add]
    congr 1
    omega
  rw [← hsplit 0, ← hsplit 1]
  exact ⟨Nat.mul_le_mul_right _ (Nat.log2_self_le ha), Nat.mul_lt_mul_of_pos_right Nat.lt_log2_self (by positivity)⟩

/-- The construction of R137 packs the magnitude, shifted up to 24 bits. -/
theorem f32OfQ_eq_packed {q : Int} (hq : q ≠ 0) (hrange : q.natAbs < 2 ^ 24) :
    f32OfQ q = packed q ((116 + Nat.log2 q.natAbs) * 2 ^ 23 + q.natAbs * 2 ^ (23 - Nat.log2 q.natAbs)) := by
  have hpos : q.natAbs ≠ 0 := Int.natAbs_ne_zero.2 hq
  have hlog : Nat.log2 q.natAbs < 24 := (Nat.log2_lt hpos).2 hrange
  have hlead : 2 ^ Nat.log2 q.natAbs * 2 ^ (23 - Nat.log2 q.natAbs) = 2 ^ 23 := by
    rw [← pow_add, Nat.add_sub_cancel' (by omega)]
  have hlow := (shifted_bounds hpos hrange).1
  simp only [f32OfQ, if_neg hq, packed]
  congr 1
  rw [Nat.sub_mul, hlead]
  omega

/-- Settles O25: the magnitude has at most 24 bits, so it is the significand as it stands. -/
theorem decodedFloatIsExact : Obligations.DecodedFloatIsExact := by
  refine ⟨fun raw => ?_, rfl⟩
  by_cases hq : raw.toInt = 0
  · rw [hq]
    exact ⟨rfl, by norm_num [f32OfQ, f32Val, f32Sig, f32Exp, f32Frac]⟩
  have hrange : raw.toInt.natAbs < 2 ^ 24 := (sext24_natAbs_le raw).trans_lt (by decide)
  have hpos : raw.toInt.natAbs ≠ 0 := Int.natAbs_ne_zero.2 hq
  have hlog : Nat.log2 raw.toInt.natAbs < 24 := (Nat.log2_lt hpos).2 hrange
  obtain ⟨hlow, hhigh⟩ := shifted_bounds hpos hrange
  rw [f32OfQ_eq_packed hq hrange]
  refine ⟨f32Finite_packed (by omega), ?_⟩
  have hscale : (2 : ℚ) ^ (23 - Nat.log2 raw.toInt.natAbs) * 2 ^ (((116 + Nat.log2 raw.toInt.natAbs : ℕ) : ℤ) - 149) =
      1 / 1024 := by
    have hexp : ((23 - Nat.log2 raw.toInt.natAbs : ℕ) : ℤ) + (((116 + Nat.log2 raw.toInt.natAbs : ℕ) : ℤ) - 149) = -10 := by
      omega
    rw [← zpow_natCast, ← zpow_add₀ (by norm_num), hexp]
    norm_num
  calc f32Val _ = signOf raw.toInt * raw.toInt.natAbs *
        (2 ^ (23 - Nat.log2 raw.toInt.natAbs) * 2 ^ (((116 + Nat.log2 raw.toInt.natAbs : ℕ) : ℤ) - 149)) := by
        rw [f32Val_packed (.inr hlow) hhigh.le (by omega)]
        push_cast
        ring
    _ = raw.toInt / 1024 := by
        rw [signOf_mul_natAbs, hscale]
        ring

end Sys2Proof.Laws

/-! The mean (spec/45_averaging.md, R226; spec/00_scope.md, R13): `rne32` scales the quotient by its exponent, rounds it
to an integer significand, and packs that. On the grid of that exponent the rounding is the nearest integer; finite
floats off the grid are below it. -/

namespace Sys2Proof.Laws
open Sys2Proof.Machine

/-! ## The nearest integer -/

section
variable {n d m : Nat}

theorem div_le_roundDiv (n d : Nat) : n / d ≤ roundDiv n d := by
  simp only [roundDiv]
  split_ifs <;> omega

theorem roundDiv_le_div_succ (n d : Nat) : roundDiv n d ≤ n / d + 1 := by
  simp only [roundDiv]
  split_ifs <;> omega

theorem le_roundDiv (hd : 0 < d) (h : m * d ≤ n) : m ≤ roundDiv n d :=
  ((Nat.le_div_iff_mul_le hd).2 h).trans (div_le_roundDiv n d)

theorem roundDiv_le (hd : 0 < d) (h : n < m * d) : roundDiv n d ≤ m :=
  (roundDiv_le_div_succ n d).trans ((Nat.div_lt_iff_lt_mul hd).2 h)

/-- Twice the distance of the rounded quotient is at most the divisor, and less where the quotient is odd (R13). -/
theorem roundDiv_twice_natAbs_le (hd : 0 < d) :
    2 * ((roundDiv n d * d : ℤ) - n).natAbs ≤ d ∧
      (2 * ((roundDiv n d * d : ℤ) - n).natAbs = d → roundDiv n d % 2 = 0) := by
  have hdiv : ((n / d : ℕ) : ℤ) * d + (n % d : ℕ) = n := by exact_mod_cast Nat.div_add_mod' n d
  have hmod := Nat.mod_lt n hd
  have hup : ((n / d + 1 : ℕ) : ℤ) * d = ((n / d : ℕ) : ℤ) * d + d := by
    push_cast
    ring
  simp only [roundDiv]
  split_ifs with hlow hhigh
  · omega
  · omega
  · rcases Nat.mod_two_eq_zero_or_one (n / d) with heven | hodd
    · rw [heven, Nat.add_zero]
      omega
    · rw [hodd]
      omega

theorem roundDiv_abs_sub_le (hd : 0 < d) :
    |(roundDiv n d : ℚ) - n / d| ≤ 1 / 2 ∧ (|(roundDiv n d : ℚ) - n / d| = 1 / 2 → roundDiv n d % 2 = 0) := by
  obtain ⟨hhalf, heven⟩ := roundDiv_twice_natAbs_le (n := n) hd
  have hpos : (0 : ℚ) < d := Nat.cast_pos.2 hd
  have hdist : |(roundDiv n d : ℚ) - n / d| = (((roundDiv n d * d : ℤ) - n).natAbs : ℚ) / d := by
    rw [Nat.cast_natAbs, eq_div_iff hpos.ne', ← abs_of_pos hpos, ← abs_mul, abs_of_pos hpos]
    push_cast
    rw [sub_mul, div_mul_cancel₀ _ hpos.ne']
  rw [hdist, div_le_iff₀ hpos, div_eq_iff hpos.ne']
  constructor
  · have hcast : 2 * (((roundDiv n d * d : ℤ) - n).natAbs : ℚ) ≤ d := by exact_mod_cast hhalf
    linarith
  · intro htie
    refine heven ?_
    have hcast : 2 * (((roundDiv n d * d : ℤ) - n).natAbs : ℚ) = d := by linarith
    exact_mod_cast hcast

end

/-- No integer is nearer than one within a half, and another one as near is a half away as well. -/
theorem abs_sub_le_of_half {i j : ℤ} {y : ℚ} (hhalf : |i - y| ≤ 1 / 2) (hne : j ≠ i) :
    |i - y| ≤ |j - y| ∧ (|i - y| = |j - y| → |i - y| = 1 / 2) := by
  have hone : (1 : ℚ) ≤ |(j : ℚ) - i| := by exact_mod_cast Int.one_le_abs (sub_ne_zero.2 hne)
  have htriangle : |(j : ℚ) - i| ≤ |j - y| + |i - y| := by
    rw [abs_sub_comm (i : ℚ) y]
    exact abs_sub_le _ _ _
  exact ⟨by linarith, fun htie => by linarith⟩

/-! ## The exponent of a quotient -/

theorem zpow_two_eq_div (e : ℤ) : (2 : ℚ) ^ e = 2 ^ e.toNat / 2 ^ (-e).toNat := by
  rw [← zpow_natCast, ← zpow_natCast, ← zpow_sub₀ (by norm_num)]
  congr 1
  omega

section
variable {a d : Nat}

theorem div_lt_zpow_iff (hd : 0 < d) (e : ℤ) : (a : ℚ) / d < 2 ^ e ↔ a * 2 ^ (-e).toNat < d * 2 ^ e.toNat := by
  rw [zpow_two_eq_div, div_lt_div_iff₀ (by exact_mod_cast hd) (by positivity), mul_comm ((2 : ℚ) ^ _)]
  exact_mod_cast Iff.rfl

theorem ratExp_spec (ha : 0 < a) (hd : 0 < d) : (2 : ℚ) ^ ratExp a d ≤ a / d ∧ (a : ℚ) / d < 2 ^ (ratExp a d + 1) := by
  have hdpos : (0 : ℚ) < d := Nat.cast_pos.2 hd
  have hlow {x : Nat} (hx : 0 < x) : (2 : ℚ) ^ (Nat.log2 x : ℤ) ≤ x := by
    rw [zpow_natCast]
    exact_mod_cast Nat.log2_self_le hx.ne'
  have hhigh (x : Nat) : (x : ℚ) < 2 ^ ((Nat.log2 x : ℤ) + 1) := by
    exact_mod_cast Nat.lt_log2_self
  have hfloor : (2 : ℚ) ^ ((Nat.log2 a : ℤ) - Nat.log2 d - 1) ≤ a / d := by
    rw [le_div_iff₀ hdpos]
    calc (2 : ℚ) ^ ((Nat.log2 a : ℤ) - Nat.log2 d - 1) * d
        ≤ 2 ^ ((Nat.log2 a : ℤ) - Nat.log2 d - 1) * 2 ^ ((Nat.log2 d : ℤ) + 1) := by gcongr; exact (hhigh d).le
      _ = 2 ^ (Nat.log2 a : ℤ) := by rw [← zpow_add₀ (by norm_num)]; congr 1; ring
      _ ≤ a := hlow ha
  have hceil : (a : ℚ) / d < 2 ^ ((Nat.log2 a : ℤ) - Nat.log2 d + 1) := by
    rw [div_lt_iff₀ hdpos]
    calc (a : ℚ) < 2 ^ ((Nat.log2 a : ℤ) + 1) := hhigh a
      _ = 2 ^ ((Nat.log2 a : ℤ) - Nat.log2 d + 1) * 2 ^ (Nat.log2 d : ℤ) := by
        rw [← zpow_add₀ (by norm_num)]; congr 1; ring
      _ ≤ 2 ^ ((Nat.log2 a : ℤ) - Nat.log2 d + 1) * d := by gcongr; exact hlow hd
  simp only [ratExp, ← div_lt_zpow_iff hd]
  split_ifs with hless
  · rw [sub_add_cancel]
    exact ⟨hfloor, hless⟩
  · exact ⟨not_lt.1 hless, hceil⟩

end

/-! ## The grid of an exponent -/

theorem f32Sig_lt (b : Word) : f32Sig b < 2 ^ 24 := by
  have hfrac : f32Frac b < 2 ^ 23 := (b.extractLsb' 0 23).isLt
  rw [f32Sig]
  split <;> omega

/-- A float is on the grid of an exponent, or below the first power of two of that grid (R13). -/
theorem f32Val_on_grid_or_below (b : Word) (e : ℤ) (he : -126 ≤ e) :
    (∃ j : ℤ, f32Val b = j * 2 ^ (e - 23)) ∨ -126 < e ∧ |f32Val b| < 2 ^ e := by
  rcases le_or_gt (e - 23) ((max (f32Exp b) 1 : ℤ) - 150) with hgrid | hbelow
  · left
    refine ⟨(if b.getLsbD 31 then -1 else 1) * f32Sig b * 2 ^ ((max (f32Exp b) 1 : ℤ) - 150 - (e - 23)).toNat, ?_⟩
    have hexp : (2 : ℚ) ^ ((max (f32Exp b) 1 : ℤ) - 150) =
        2 ^ ((max (f32Exp b) 1 : ℤ) - 150 - (e - 23)).toNat * 2 ^ (e - 23) := by
      rw [← zpow_natCast, ← zpow_add₀ (by norm_num), Int.toNat_of_nonneg (by omega)]
      congr 1
      omega
    rw [f32Val, hexp]
    push_cast
    ring
  · refine .inr ⟨by omega, ?_⟩
    have hsig : (f32Sig b : ℚ) < 2 ^ 24 := by exact_mod_cast f32Sig_lt b
    have hsign : |(if b.getLsbD 31 then -1 else 1 : ℚ)| = 1 := by split_ifs <;> simp
    have hpow : (0 : ℚ) < 2 ^ ((max (f32Exp b) 1 : ℤ) - 150) := by positivity
    calc |f32Val b| = f32Sig b * 2 ^ ((max (f32Exp b) 1 : ℤ) - 150) := by
          rw [f32Val, abs_mul, abs_mul, hsign, one_mul, Nat.abs_cast, abs_of_pos hpow]
      _ < 2 ^ 24 * 2 ^ ((max (f32Exp b) 1 : ℤ) - 150) := by gcongr
      _ ≤ 2 ^ 24 * 2 ^ (e - 24) :=
          mul_le_mul_of_nonneg_left (zpow_le_zpow_right₀ (by norm_num) (by omega)) (by positivity)
      _ = 2 ^ e := by
          rw [← zpow_natCast, ← zpow_add₀ (by norm_num)]
          congr 1
          ring

/-! ## The mean -/

section
variable {p : Int} {d : Nat}

/-- The exponent of the mean, not below that of the subnormal values (R13). -/
def meanExp (p : Int) (d : Nat) : ℤ := max (ratExp p.natAbs d) (-126)

/-- The significand of the mean, in steps of `2^(meanExp - 23)` (R13). -/
def meanSig (p : Int) (d : Nat) : Nat :=
  roundDiv (p.natAbs * 2 ^ (23 - meanExp p d).toNat) (d * 2 ^ (meanExp p d - 23).toNat)

theorem neg_126_le_meanExp : -126 ≤ meanExp p d := le_max_right _ _

/-- The magnitude of the mean in steps of `2^(meanExp - 23)`. -/
def meanSteps (p : Int) (d : Nat) : ℚ := (p.natAbs : ℚ) / d / 2 ^ (meanExp p d - 23)

/-- The quotient that is rounded is the magnitude in steps of the grid. -/
theorem scaled_quotient (a d : Nat) (e : ℤ) :
    ((a * 2 ^ (23 - e).toNat : ℕ) : ℚ) / ((d * 2 ^ (e - 23).toNat : ℕ) : ℚ) = (a : ℚ) / d / 2 ^ (e - 23) := by
  have hneg : (-(e - 23)).toNat = (23 - e).toNat := by rw [neg_sub]
  rw [zpow_two_eq_div (e - 23), hneg, div_div_div_eq]
  push_cast
  rfl

theorem meanSig_abs_sub_le (hd : 0 < d) :
    |(meanSig p d : ℚ) - meanSteps p d| ≤ 1 / 2 ∧ (|(meanSig p d : ℚ) - meanSteps p d| = 1 / 2 → meanSig p d % 2 = 0) := by
  rw [meanSteps, ← scaled_quotient]
  exact roundDiv_abs_sub_le (by positivity)

theorem two_pow_23_mul_step (e : ℤ) : (2 : ℚ) ^ 23 * 2 ^ (e - 23) = 2 ^ e := by
  have hexp : ((23 : ℕ) : ℤ) + (e - 23) = e := by omega
  rw [← zpow_natCast, ← zpow_add₀ (by norm_num), hexp]

/-- Above the subnormal exponent the magnitude is at least `2^meanExp` (R13). -/
theorem le_meanSteps (hp : p ≠ 0) (hd : 0 < d) (hexp : meanExp p d ≠ -126) : 2 ^ 23 ≤ meanSteps p d := by
  have hratExp : meanExp p d = ratExp p.natAbs d := by
    rw [meanExp] at hexp ⊢
    omega
  have hspec := (ratExp_spec (Int.natAbs_pos.2 hp) hd).1
  rw [meanSteps, le_div_iff₀ (by positivity), two_pow_23_mul_step, hratExp]
  exact hspec

theorem meanSteps_lt (hp : p ≠ 0) (hd : 0 < d) : meanSteps p d < 2 ^ 24 := by
  have hspec := (ratExp_spec (Int.natAbs_pos.2 hp) hd).2
  rw [meanSteps, div_lt_iff₀ (by positivity), ← zpow_natCast, ← zpow_add₀ (by norm_num)]
  refine hspec.trans_le (zpow_le_zpow_right₀ (by norm_num) ?_)
  rw [meanExp]
  push_cast
  omega

theorem meanExp_le (hp : p ≠ 0) (hd : 0 < d) (hrange : p.natAbs ≤ 8192 * d) : meanExp p d ≤ 13 := by
  have hspec := (ratExp_spec (Int.natAbs_pos.2 hp) hd).1
  have hquot : (p.natAbs : ℚ) / d ≤ 2 ^ (13 : ℤ) := by
    rw [div_le_iff₀ (by exact_mod_cast hd)]
    calc (p.natAbs : ℚ) ≤ (8192 * d : ℕ) := Nat.cast_le.2 hrange
      _ = 2 ^ (13 : ℤ) * d := by norm_num
  have hratExp : ratExp p.natAbs d ≤ 13 := (zpow_le_zpow_iff_right₀ (by norm_num : (1 : ℚ) < 2)).1 (hspec.trans hquot)
  exact max_le hratExp (by norm_num)

/-- The significand is normal, or the exponent is that of the subnormal values (R13). -/
theorem le_meanSig (hp : p ≠ 0) (hd : 0 < d) (hexp : meanExp p d ≠ -126) : 2 ^ 23 ≤ meanSig p d := by
  have hsteps := le_meanSteps hp hd hexp
  have hpos : 0 < d * 2 ^ (meanExp p d - 23).toNat := by positivity
  rw [meanSteps, ← scaled_quotient, le_div_iff₀ (by exact_mod_cast hpos)] at hsteps
  exact le_roundDiv hpos (by exact_mod_cast hsteps)

theorem meanSig_le (hp : p ≠ 0) (hd : 0 < d) : meanSig p d ≤ 2 ^ 24 := by
  have hsteps := meanSteps_lt hp hd
  have hpos : 0 < d * 2 ^ (meanExp p d - 23).toNat := by positivity
  rw [meanSteps, ← scaled_quotient, div_lt_iff₀ (by exact_mod_cast hpos)] at hsteps
  exact roundDiv_le hpos (by exact_mod_cast hsteps)

/-- The exponent field the significand is added to. -/
def meanField (p : Int) (d : Nat) : Nat := (meanExp p d + 126).toNat

theorem meanField_bounds (hp : p ≠ 0) (hd : 0 < d) (hrange : p.natAbs ≤ 8192 * d) :
    (meanField p d = 0 ∨ 2 ^ 23 ≤ meanSig p d) ∧ meanField p d * 2 ^ 23 + meanSig p d < 255 * 2 ^ 23 := by
  have hexp := meanExp_le hp hd hrange
  have hsig := meanSig_le hp hd
  have hmin := neg_126_le_meanExp (p := p) (d := d)
  rw [meanField]
  refine ⟨?_, by omega⟩
  by_cases hlow : meanExp p d = -126
  · exact .inl (by omega)
  · exact .inr (le_meanSig hp hd hlow)

/-- No mean reaches infinity: the sums of R221 are within the range of a reading. -/
theorem rne32_eq_packed (hp : p ≠ 0) (hd : 0 < d) (hrange : p.natAbs ≤ 8192 * d) :
    rne32 p d = packed p (meanField p d * 2 ^ 23 + meanSig p d) := by
  have hfinite := (meanField_bounds hp hd hrange).2
  rw [packed, ← Nat.min_eq_left hfinite.le, rne32, if_neg hp]
  rfl

theorem f32Val_rne32 (hp : p ≠ 0) (hd : 0 < d) (hrange : p.natAbs ≤ 8192 * d) :
    f32Val (rne32 p d) = signOf p * (meanSig p d * 2 ^ (meanExp p d - 23)) := by
  obtain ⟨hnormal, hfinite⟩ := meanField_bounds hp hd hrange
  have hmin := neg_126_le_meanExp (p := p) (d := d)
  have hexp : (meanField p d : ℤ) - 149 = meanExp p d - 23 := by
    rw [meanField]
    omega
  rw [rne32_eq_packed hp hd hrange, f32Val_packed hnormal (meanSig_le hp hd) (by omega), hexp]

/-- The distance of a value from the mean, in steps of the grid. -/
theorem abs_sub_mean (p : Int) (d : Nat) (x : ℚ) :
    |signOf p * (x * 2 ^ (meanExp p d - 23)) - p / d| = |x - meanSteps p d| * 2 ^ (meanExp p d - 23) := by
  have hpow : (0 : ℚ) < 2 ^ (meanExp p d - 23) := by positivity
  have hmean : (p : ℚ) / d = signOf p * (meanSteps p d * 2 ^ (meanExp p d - 23)) := by
    rw [meanSteps, div_mul_cancel₀ _ hpow.ne', ← mul_div_assoc, signOf_mul_natAbs]
  rw [hmean, ← mul_sub, abs_signOf_mul, ← sub_mul, abs_mul, abs_of_pos hpow]

/-- A float in steps of the grid of the mean is an integer, or too small to be nearer than the grid's own end. -/
theorem f32Val_in_steps (hp : p ≠ 0) (hd : 0 < d) (b : Word) :
    ∃ x : ℚ, f32Val b = signOf p * (x * 2 ^ (meanExp p d - 23)) ∧
      ((∃ j : ℤ, x = j) ∨ |x| < 2 ^ 23 ∧ 2 ^ 23 ≤ meanSteps p d) := by
  have hpow : (0 : ℚ) < 2 ^ (meanExp p d - 23) := by positivity
  have hsquare : signOf p * signOf p = 1 := by
    rw [signOf]
    split_ifs <;> norm_num
  rcases f32Val_on_grid_or_below b (meanExp p d) neg_126_le_meanExp with ⟨j, hj⟩ | ⟨hexp, hbelow⟩
  · refine ⟨signOf p * j, ?_, .inl ⟨(if p < 0 then -1 else 1) * j, ?_⟩⟩
    · rw [hj, mul_assoc, ← mul_assoc (signOf p), hsquare, one_mul]
    · rw [signOf]
      push_cast
      rfl
  · refine ⟨signOf p * (f32Val b / 2 ^ (meanExp p d - 23)), ?_, .inr ⟨?_, le_meanSteps hp hd hexp.ne'⟩⟩
    · rw [mul_assoc, ← mul_assoc (signOf p), hsquare, one_mul, div_mul_cancel₀ _ hpow.ne']
    · rw [abs_signOf_mul, abs_div, abs_of_pos hpow, div_lt_iff₀ hpow, two_pow_23_mul_step]
      exact hbelow

/-- In steps of the grid no float is nearer to the mean than its significand, and on a tie the significand is even. -/
theorem meanSig_nearest (hd : 0 < d) {x : ℚ} (hx : (∃ j : ℤ, x = j) ∨ |x| < 2 ^ 23 ∧ 2 ^ 23 ≤ meanSteps p d) :
    |(meanSig p d : ℚ) - meanSteps p d| ≤ |x - meanSteps p d| ∧
      (|(meanSig p d : ℚ) - meanSteps p d| = |x - meanSteps p d| → x ≠ meanSig p d → meanSig p d % 2 = 0) := by
  obtain ⟨hhalf, heven⟩ := meanSig_abs_sub_le (p := p) hd
  have hinteger {j : ℤ} (hne : j ≠ (meanSig p d : ℤ)) := abs_sub_le_of_half (y := meanSteps p d) hhalf hne
  push_cast at hinteger
  rcases hx with ⟨j, rfl⟩ | ⟨hsmall, hlarge⟩
  · by_cases hne : j = (meanSig p d : ℤ)
    · subst hne
      exact ⟨le_rfl, fun _ hne => absurd (by norm_cast) hne⟩
    · exact ⟨(hinteger hne).1, fun htie _ => heven ((hinteger hne).2 htie)⟩
  · have hgrid : |(meanSig p d : ℚ) - meanSteps p d| ≤ meanSteps p d - 2 ^ 23 := by
      rw [← abs_of_nonneg (sub_nonneg.2 hlarge), abs_sub_comm (meanSteps p d)]
      by_cases heq : (2 ^ 23 : ℤ) = meanSig p d
      · have hsig : (2 ^ 23 : ℚ) = meanSig p d := by exact_mod_cast heq
        rw [hsig]
      · have hnear := (hinteger heq).1
        push_cast at hnear
        exact hnear
    have hfar : meanSteps p d - 2 ^ 23 < |x - meanSteps p d| := by
      rw [abs_sub_comm]
      exact (sub_lt_sub_left (lt_of_abs_lt hsmall) _).trans_le (le_abs_self _)
    exact ⟨(hgrid.trans_lt hfar).le, fun htie => absurd htie (hgrid.trans_lt hfar).ne⟩

end

/-- Settles O55: the floats are compared in steps of the grid of the mean. -/
theorem meanIsTheNearestFloat : Obligations.MeanIsTheNearestFloat := by
  refine ⟨fun p d hd hrange => ?_, fun d => if_pos rfl⟩
  by_cases hp : p = 0
  · have hmean : rne32 p d = 0 := if_pos hp
    have hzero : f32Val 0 = 0 := by norm_num [f32Val, f32Sig, f32Exp, f32Frac]
    rw [hmean]
    refine ⟨rfl, fun b _ => ⟨?_, fun _ _ => rfl⟩⟩
    rw [hzero, hp, Int.cast_zero, zero_div, sub_zero, abs_zero]
    exact abs_nonneg _
  obtain ⟨-, hfinite⟩ := meanField_bounds hp hd hrange
  refine ⟨by rw [rne32_eq_packed hp hd hrange]; exact f32Finite_packed hfinite, fun b _ => ?_⟩
  obtain ⟨x, hval, hx⟩ := f32Val_in_steps hp hd b
  obtain ⟨hnearest, htie⟩ := meanSig_nearest hd hx
  have hpow : (0 : ℚ) < 2 ^ (meanExp p d - 23) := by positivity
  rw [hval, f32Val_rne32 hp hd hrange, abs_sub_mean, abs_sub_mean]
  refine ⟨mul_le_mul_of_nonneg_right hnearest hpow.le, fun heq hne => ?_⟩
  have heven := htie (mul_right_cancel₀ hpow.ne' heq) (fun hx => hne (by rw [hx]))
  rw [rne32_eq_packed hp hd hrange, packed_lowBit (by omega), decide_eq_false]
  omega

end Sys2Proof.Laws
